-- ==== Sys2Proof/Word.lean ====
section
/-! DEFINITION. The word type: every register and every access is 32 bits wide (20_memory.md R37). -/

namespace Sys2Proof

/-- `u32`: an unsigned 32-bit integer (00_scope.md R8), the width `REG_BITS` of R7. -/
abbrev Word := BitVec 32

/-- The 41-bit operation word of the opcode table (30_encoding.md R52). -/
abbrev OpWord := BitVec 41

end Sys2Proof
end

