-- ==== Sys2Proof/Syntax.lean ====
section
/-! DEFINITION. Operations: the 15 rows of opcode_table.json (30_encoding.md R65), the three forms of an operation
(R51), and the accesses that match no row (R66). -/

namespace Sys2Proof

/-- One constructor per row of the opcode table (R65). A write carries the 32-bit data value `v`; a read carries
nothing (R52: the data field of a read is 0, and the table ignores it). -/
inductive Instr where
  /-- read 0x00 (R70) -/
  | rdDevid
  /-- read 0x04 (R71) -/
  | rdCtrl
  /-- read 0x08 (R72) -/
  | rdCfg0
  /-- read 0x0C: DATAIN is write-only (R78) -/
  | rdDatain
  /-- read 0x10 (R73) -/
  | rdDataout
  /-- read 0x14 (R74) -/
  | rdStatus
  /-- write 0x00: DEVID is read-only (R79) -/
  | wrDevid (v : Word)
  /-- write 0x04 with SAM and EN: ingest one unit (R91) -/
  | ctrlSamIn (v : Word)
  /-- write 0x04 with SAM, without EN: drain one result (R92) -/
  | ctrlSamOut (v : Word)
  /-- write 0x04 with PRC, without SAM: run the transform (R93) -/
  | ctrlPrc (v : Word)
  /-- write 0x04 without SAM and PRC: store EN and IEN only (R90) -/
  | ctrlSet (v : Word)
  /-- write 0x08 (R75) -/
  | wrCfg0 (v : Word)
  /-- write 0x0C (R76) -/
  | wrDatain (v : Word)
  /-- write 0x10: DATAOUT is read-only (R81) -/
  | wrDataout (v : Word)
  /-- write 0x14: STATUS is read-only (R82) -/
  | wrStatus (v : Word)
deriving DecidableEq, Repr

/-- An operation of the host (R51): offsets and sizes are counts of bytes. -/
inductive Op where
  | reset
  | read (off size : Nat)
  | write (off size : Nat) (v : Word)
deriving DecidableEq, Repr

/-- The accesses of R65's catch-alls, which have no bit pattern of their own. -/
inductive InvalidAccess where
  /-- an aligned 4-byte read of an offset that is no register (R83) -/
  | rdUnmapped
  /-- an aligned 4-byte write of an offset that is no register (R83) -/
  | wrUnmapped
  /-- a misaligned or wrongly sized read (R84) -/
  | badRead
  /-- a misaligned or wrongly sized write (R84) -/
  | badWrite
deriving DecidableEq, Repr

/-- What decoding an operation answers: the hard reset, a row of the opcode table, or a rejection by name. -/
inductive Decoded where
  | reset
  | instr (i : Instr)
  | invalid (a : InvalidAccess)
deriving DecidableEq, Repr

end Sys2Proof
end

