-- ==== Sys2Proof/WellFormed.lean ====
section
/-! DEFINITION. Which terms are well formed: the "data condition" column of 30_encoding.md R65 for a row of the opcode
table, and the legal operations of R51. -/

namespace Sys2Proof

/-- The data condition of R65: a CTRL command's value must select that command (R64). Every data value is legal on
every other row (R66). -/
def Instr.wellFormed : Instr → Bool
  | .rdDevid => true
  | .rdCtrl => true
  | .rdCfg0 => true
  | .rdDatain => true
  | .rdDataout => true
  | .rdStatus => true
  | .wrDevid _ => true
  | .ctrlSamIn v => v.getLsbD 2 && v.getLsbD 0
  | .ctrlSamOut v => v.getLsbD 2 && !v.getLsbD 0
  | .ctrlPrc v => !v.getLsbD 2 && v.getLsbD 3
  | .ctrlSet v => !v.getLsbD 2 && !v.getLsbD 3
  | .wrCfg0 _ => true
  | .wrDatain _ => true
  | .wrDataout _ => true
  | .wrStatus _ => true

/-- The six mapped offsets (20_memory.md R36). -/
def mappedOffset (off : Nat) : Bool :=
  off == 0x00 || off == 0x04 || off == 0x08 || off == 0x0C || off == 0x10 || off == 0x14

/-- The legal operations of R51: size 4 and one of the six offsets. A reset has neither. -/
def Op.legal : Op → Bool
  | .reset => true
  | .read off size => size == 4 && mappedOffset off
  | .write off size _ => size == 4 && mappedOffset off

end Sys2Proof
end

