-- ==== Sys2Proof/Decode.lean ====
section
/-! DEFINITION. Decoding an operation (40_register_ops.md R69) and an operation word (30_encoding.md R52), and the
encoder, written from the same tables. -/

namespace Sys2Proof

/-! ### Fields of a CTRL value (R61) -/

/-- `en = v[0]` -/
def ctrlEn (v : Word) : Bool := v.getLsbD 0
/-- `ien = v[1]` -/
def ctrlIen (v : Word) : Bool := v.getLsbD 1
/-- `sam = v[2]` -/
def ctrlSam (v : Word) : Bool := v.getLsbD 2
/-- `prc = v[3]` -/
def ctrlPrcBit (v : Word) : Bool := v.getLsbD 3

/-! ### Decoding an operation (R69) -/

/-- The command a CTRL write selects, in the priority of R64: SAM before PRC, and the written EN between ingestion and
drain. -/
def decodeCtrl (v : Word) : Instr :=
  if ctrlSam v then
    if ctrlEn v then .ctrlSamIn v else .ctrlSamOut v
  else if ctrlPrcBit v then .ctrlPrc v
  else .ctrlSet v

/-- R69 step 3: an aligned 4-byte read. -/
def decodeRead (off : Nat) : Decoded :=
  if off = 0x00 then .instr .rdDevid
  else if off = 0x04 then .instr .rdCtrl
  else if off = 0x08 then .instr .rdCfg0
  else if off = 0x0C then .instr .rdDatain
  else if off = 0x10 then .instr .rdDataout
  else if off = 0x14 then .instr .rdStatus
  else .invalid .rdUnmapped

/-- R69 step 4: an aligned 4-byte write. -/
def decodeWrite (off : Nat) (v : Word) : Decoded :=
  if off = 0x00 then .instr (.wrDevid v)
  else if off = 0x04 then .instr (decodeCtrl v)
  else if off = 0x08 then .instr (.wrCfg0 v)
  else if off = 0x0C then .instr (.wrDatain v)
  else if off = 0x10 then .instr (.wrDataout v)
  else if off = 0x14 then .instr (.wrStatus v)
  else .invalid .wrUnmapped

/-- The shape every register access must have: 4 bytes, aligned (R37, R38). -/
def wellShaped (off size : Nat) : Bool := size == 4 && off % 4 == 0

/-- Top-level decode of R69, total on every operation: the first case that applies decides. -/
def decode : Op → Decoded
  | .reset => .reset
  | .read off size => if wellShaped off size then decodeRead off else .invalid .badRead
  | .write off size v => if wellShaped off size then decodeWrite off v else .invalid .badWrite

/-- The direction of an access that matches no row. -/
def InvalidAccess.isRead : InvalidAccess → Bool
  | .rdUnmapped => true
  | .wrUnmapped => false
  | .badRead => true
  | .badWrite => false

/-! ### The operation word (R52) -/

/-- The fields `we = w[40]`, `off[7:0] = w[39:32]`, `v = w[31:0]` of an operation word, as the 4-byte operation they
stand for; the data field of a read is ignored. -/
def opOfWord (w : OpWord) : Op :=
  if w.getLsbD 40 then .write (w.extractLsb' 32 8).toNat 4 (w.extractLsb' 0 32)
  else .read (w.extractLsb' 32 8).toNat 4

/-- The instruction an operation word stands for, if it matches a row. -/
def decodeWord (w : OpWord) : Option Instr :=
  match decode (opOfWord w) with
  | .instr i => some i
  | .reset => none
  | .invalid _ => none

/-- The operation in the table's numbering: `w` is the operation word as a number, of which `nbits` bits are given.
Bits above bit 40 belong to no field of R52, so a word that has one is no operation word. DESIGN CHOICE, safe: log 25. -/
def opOfTableWord (nbits w : Nat) : Option Op :=
  let x := w % 2 ^ nbits
  if x < 2 ^ 41 then some (opOfWord (BitVec.ofNat 41 x)) else none

/-- The instruction the decoder reads from a table word: none where it refuses. -/
def decodeTableWord (nbits w : Nat) : Option Instr :=
  let x := w % 2 ^ nbits
  if x < 2 ^ 41 then decodeWord (BitVec.ofNat 41 x) else none

/-! ### Encoding -/

/-- Assemble an operation word from its three fields (R52). -/
def packWord (we : Bool) (off : BitVec 8) (v : Word) : OpWord :=
  (BitVec.ofBool we ++ off) ++ v

/-- The operation word of an instruction (R65): direction, offset, data (0 for a read). -/
def encode : Instr → OpWord
  | .rdDevid => packWord false 0x00 0
  | .rdCtrl => packWord false 0x04 0
  | .rdCfg0 => packWord false 0x08 0
  | .rdDatain => packWord false 0x0C 0
  | .rdDataout => packWord false 0x10 0
  | .rdStatus => packWord false 0x14 0
  | .wrDevid v => packWord true 0x00 v
  | .ctrlSamIn v => packWord true 0x04 v
  | .ctrlSamOut v => packWord true 0x04 v
  | .ctrlPrc v => packWord true 0x04 v
  | .ctrlSet v => packWord true 0x04 v
  | .wrCfg0 v => packWord true 0x08 v
  | .wrDatain v => packWord true 0x0C v
  | .wrDataout v => packWord true 0x10 v
  | .wrStatus v => packWord true 0x14 v

/-- The access an instruction stands for, as the host issues it (R51, R65). -/
def encodeOp : Instr → Op
  | .rdDevid => .read 0x00 4
  | .rdCtrl => .read 0x04 4
  | .rdCfg0 => .read 0x08 4
  | .rdDatain => .read 0x0C 4
  | .rdDataout => .read 0x10 4
  | .rdStatus => .read 0x14 4
  | .wrDevid v => .write 0x00 4 v
  | .ctrlSamIn v => .write 0x04 4 v
  | .ctrlSamOut v => .write 0x04 4 v
  | .ctrlPrc v => .write 0x04 4 v
  | .ctrlSet v => .write 0x04 4 v
  | .wrCfg0 v => .write 0x08 4 v
  | .wrDatain v => .write 0x0C 4 v
  | .wrDataout v => .write 0x10 4 v
  | .wrStatus v => .write 0x14 4 v

/-! ### The opcode table (R65, opcode_table.json) -/

/-- One row: it matches a word `w` when `w &&& mask = pattern`. -/
structure OpcodeRow where
  mnemonic : String
  pattern : OpWord
  mask : OpWord
deriving DecidableEq, Repr

/-- The rows of opcode_table.json, in its order. -/
def opcodeTable : List OpcodeRow :=
  [⟨"RD_DEVID", 0x00000000000, 0x1FF00000000⟩,
   ⟨"RD_CTRL", 0x00400000000, 0x1FF00000000⟩,
   ⟨"RD_CFG0", 0x00800000000, 0x1FF00000000⟩,
   ⟨"RD_DATAIN", 0x00C00000000, 0x1FF00000000⟩,
   ⟨"RD_DATAOUT", 0x01000000000, 0x1FF00000000⟩,
   ⟨"RD_STATUS", 0x01400000000, 0x1FF00000000⟩,
   ⟨"WR_DEVID", 0x10000000000, 0x1FF00000000⟩,
   ⟨"CTRL_SAM_IN", 0x10400000005, 0x1FF00000005⟩] ++
  [⟨"CTRL_SAM_OUT", 0x10400000004, 0x1FF00000005⟩,
   ⟨"CTRL_PRC", 0x10400000008, 0x1FF0000000C⟩,
   ⟨"CTRL_SET", 0x10400000000, 0x1FF0000000C⟩,
   ⟨"WR_CFG0", 0x10800000000, 0x1FF00000000⟩,
   ⟨"WR_DATAIN", 0x10C00000000, 0x1FF00000000⟩,
   ⟨"WR_DATAOUT", 0x11000000000, 0x1FF00000000⟩,
   ⟨"WR_STATUS", 0x11400000000, 0x1FF00000000⟩]

/-- A word matches a row (R52). -/
def OpcodeRow.matchesWord (r : OpcodeRow) (w : OpWord) : Bool := w &&& r.mask == r.pattern

/-- The table's name of an instruction. -/
def Instr.mnemonic : Instr → String
  | .rdDevid => "RD_DEVID"
  | .rdCtrl => "RD_CTRL"
  | .rdCfg0 => "RD_CFG0"
  | .rdDatain => "RD_DATAIN"
  | .rdDataout => "RD_DATAOUT"
  | .rdStatus => "RD_STATUS"
  | .wrDevid _ => "WR_DEVID"
  | .ctrlSamIn _ => "CTRL_SAM_IN"
  | .ctrlSamOut _ => "CTRL_SAM_OUT"
  | .ctrlPrc _ => "CTRL_PRC"
  | .ctrlSet _ => "CTRL_SET"
  | .wrCfg0 _ => "WR_CFG0"
  | .wrDatain _ => "WR_DATAIN"
  | .wrDataout _ => "WR_DATAOUT"
  | .wrStatus _ => "WR_STATUS"

end Sys2Proof
end

