-- ==== Sys2Proof/Config.lean ====
section
/-! DEFINITION. What an implementation fixes and the spec leaves open (00_scope.md R7): constants without a body,
so that no proof can lean on a value. -/

namespace Sys2Proof

/-- `ADDR_MODE`, the treatment of invalid accesses (40_register_ops.md R80). -/
inductive AddrMode where
  /-- invalid reads answer `OK(0)`, invalid writes answer `OK` -/
  | permissive
  /-- invalid accesses answer `ERR(InvalidOffset)` -/
  | strict
deriving DecidableEq, Repr, Inhabited

/-- `DEVID_VALUE`: OPEN in the spec (R7, decision D1); only that it is constant may be used.
DESIGN CHOICE, safe: log 4. -/
opaque Config.devidValue : Word

/-- `ADDR_MODE`: OPEN in the spec (R7, decision D2), one of the two values. DESIGN CHOICE, safe: log 5. -/
opaque Config.addrMode : AddrMode

/-- `BUF_INIT`: what entry `entry` of the sample buffer holds after hard reset number `epoch`, until it is written
(10_state.md R34, U1: any value, chosen anew at every reset). DESIGN CHOICE, safe: log 6. -/
opaque Config.bufInit (epoch entry : Nat) : Word

/-- What `f2i` gives of a binary64 value that is not finite: outside the domain of 43_transform_engine.md R130, and
R138 says that no such value arises. DESIGN CHOICE, safe: log 19. -/
opaque Config.nonFiniteToInt : Int

/-- `MAX_SAMPLES`: the capacity of the sample buffer (R7). -/
def Config.maxSamples : Nat := 2048

end Sys2Proof
end

