-- ==== Sys2Proof/Machine/State.lean ====
section
/-! DEFINITION. The state of one device instance (10_state.md R13), the reasons a step can stop, and the state after
reset (R34). -/

namespace Sys2Proof.Machine

/-- Why the machine stops with a fault: never. Every error of this hardware is a response that changes nothing
(60_exceptions.md R146, R149), and no sequence of operations makes the device stop answering (R160), so the type has
no constructor. -/
inductive Fault where
deriving DecidableEq, Repr

/-- Why an instruction has no meaning. -/
inductive Refusal where
  /-- Raised by `exec` for an instruction whose meaning is not written; no arm raises it. Safe. -/
  | notModelled (mnemonic : String)
deriving DecidableEq, Repr

/-- The error kinds (60_exceptions.md R142), all of D0 §7's list. -/
inductive ErrKind where
  | invalidOffset
  | notConfigured
  | overCapacity
  /-- reserved, never raised (R147) -/
  | unsupportedSampleCount
deriving DecidableEq, Repr

/-- The response of an operation (R141): `OK(v)` for an accepted read, `OK` for an accepted write or a reset, or
`ERR(kind)`, which delivers no data value. -/
inductive Response where
  | okData (v : Word)
  | ok
  | err (k : ErrKind)
deriving DecidableEq, Repr

/-- The sample buffer (10_state.md R27): 2048 entries of u32, held as the entries written since the last hard reset,
indexes strictly rising. An entry that is not listed holds the free value `Config.bufInit epoch index` (R34, U1);
`epoch` counts the hard resets, so that the value is chosen anew at every reset. Log 6, log 7. -/
structure Memory where
  epoch : Nat
  cells : List (Nat × Word)
deriving DecidableEq, Repr

/-- The elements of R13 (`n_samples` is computed from `cfg`, as R17 allows), then the model's own two fields: the
operations the host has issued and the device has not answered, oldest first (00_scope.md R10, 20_memory.md R43), and
the response of the last answered operation (60_exceptions.md R141). Log 1, log 3, log 24. -/
@[ext]
structure State where
  /-- constant identifying the device (R14) -/
  id : Word
  /-- EN (bit 0) and IEN (bit 1) (R15) -/
  ctrl : BitVec 2
  /-- the last value written to CFG0, all 32 bits (R16) -/
  cfg : Word
  /-- a CFG0 write has been accepted since the last hard reset (R18) -/
  configured : Bool
  /-- the last value written to DATAIN (R19) -/
  datainLatch : Word
  /-- the last value produced for DATAOUT (R20) -/
  dataoutLatch : Word
  /-- READY, SCPLT, PCPLT, FULL, EMPTY at bits 0 to 4 (R21) -/
  status : BitVec 5
  /-- the sample buffer (R27) -/
  sampleBuffer : Memory
  /-- the entry the next ingestion writes (R28) -/
  sampleIndex : Nat
  /-- the entry the next drain reads (R28) -/
  resultIndex : Nat
  /-- the pending interrupt indication (R30); drives the output `irq` -/
  irqPending : Bool
  /-- operations issued by the host and not yet answered, oldest first -/
  pending : List Op
  /-- the response of the last answered operation -/
  response : Response
deriving DecidableEq, Repr

/-- The reset values of R34: `ctrl = 0`, both cursors 0, `status = READY` are D0's; `cfg`, `configured`, the latches
and `irq_pending` are the spec's decisions D6 and D18 (log 8); the buffer is `BUF_INIT` (nothing listed). No operation
is pending, and the response is the `OK` of the Reset operation (70_reset_and_hazards.md R163). -/
def State.reset : State where
  id := Config.devidValue
  ctrl := 0
  cfg := 0
  configured := false
  datainLatch := 0
  dataoutLatch := 0
  status := 0x01
  sampleBuffer := ⟨0, []⟩
  sampleIndex := 0
  resultIndex := 0
  irqPending := false
  pending := []
  response := .ok

end Sys2Proof.Machine
end

