-- ==== Sys2Proof/Machine/Operands.lean ====
section
/-! DEFINITION. Operand fields and register formats: CTRL, CFG0 and DATAIN (30_encoding.md R55 to R57, R61 to R63), and
the signed reading of a buffer entry (00_scope.md R8). -/

namespace Sys2Proof.Machine

/-! ### CTRL (R55) -/

/-- `ctrl <- (ien << 1) | en` (41_ctrl_commands.md R88) -/
def packCtrl (en ien : Bool) : BitVec 2 := BitVec.ofBool ien ++ BitVec.ofBool en

/-- EN, `ctrl[0]` -/
def State.en (s : State) : Bool := s.ctrl.getLsbD 0
/-- IEN, `ctrl[1]` -/
def State.ien (s : State) : Bool := s.ctrl.getLsbD 1

/-- What a read of CTRL returns: EN and IEN, bits 31:2 zero (R71). -/
def ctrlReadValue (c : BitVec 2) : Word := c.setWidth 32

/-! ### CFG0 (R56, R62) -/

/-- `smode = v[0]`: set for two 16-bit samples per DATAIN value. -/
def smode (cfg : Word) : Bool := cfg.getLsbD 0

/-- `NSAMPLES_MASK` and `NSAMPLES_SHIFT` (00_scope.md R7). -/
def nsamplesMask : Word := 0xE
def nsamplesShift : Nat := 1

/-- `sel = (v & NSAMPLES_MASK) >> NSAMPLES_SHIFT`, unsigned, 0 to 7 (R62). -/
def selector (cfg : Word) : Nat := ((cfg &&& nsamplesMask) >>> nsamplesShift).toNat

/-- `L = log2 n_samples = NSAMPLES + 4` (43_transform_engine.md R117). -/
def log2Samples (cfg : Word) : Nat := selector cfg + 4

/-- `n_samples = 2^(sel + 4)` (10_state.md R17, 30_encoding.md R62). -/
def nSamples (cfg : Word) : Nat := 2 ^ log2Samples cfg

/-- Entries one ingestion writes: 1 in 32-bit mode, 2 in 16-bit mode (42_sample_codec.md R106, R107). -/
def unitSize (cfg : Word) : Nat := if smode cfg then 2 else 1

/-! ### DATAIN (R57, R63) -/

/-- `lo = d & 0xFFFF`, zero-extended: the earlier sample. The order is the spec's decision D10. DESIGN CHOICE, unsafe:
log 14. -/
def lowHalf (d : Word) : Word := d &&& 0xFFFF

/-- `hi = (d >> 16) & 0xFFFF`, zero-extended: the later sample. -/
def highHalf (d : Word) : Word := (d >>> 16) &&& 0xFFFF

/-! ### Buffer entries read by the transform -/

/-- `s32(v)`: the two's complement reading of a u32 (00_scope.md R8, decision D12: log 16). -/
def s32 (v : Word) : Int := if v.toNat < 2 ^ 31 then (v.toNat : Int) else (v.toNat : Int) - 2 ^ 32

end Sys2Proof.Machine
end

