-- ==== Sys2Proof/Machine/Flags.lean ====
section
/-! DEFINITION. The STATUS word: masks, the STATUS read, events and the interrupt latch, the reset pass's bits
(00_scope.md R8, R9; 10_state.md R21 to R26; 41_ctrl_commands.md R97, R98). -/

namespace Sys2Proof.Machine

/-! ### Masks (00_scope.md R8) -/

def maskREADY : BitVec 5 := 0x01
def maskSCPLT : BitVec 5 := 0x02
def maskPCPLT : BitVec 5 := 0x04
def maskFULL : BitVec 5 := 0x08
def maskEMPTY : BitVec 5 := 0x10

/-- The bits that raise the interrupt: SCPLT, PCPLT, FULL, EMPTY (60_exceptions.md R151). -/
def maskEvents : BitVec 5 := 0x1E

/-- `STATUS_KEEP_MASK`: the bits that survive a STATUS read, FULL and EMPTY (00_scope.md R7). READY is cleared
(90_conflicts.md C1). DEDUCED, unsafe: log 9. -/
def statusKeepMask : BitVec 5 := 0x18

/-! ### Bits of a state's STATUS word -/

def State.ready (s : State) : Bool := s.status.getLsbD 0
def State.scplt (s : State) : Bool := s.status.getLsbD 1
def State.pcplt (s : State) : Bool := s.status.getLsbD 2
def State.full (s : State) : Bool := s.status.getLsbD 3
def State.empty (s : State) : Bool := s.status.getLsbD 4

/-- The level output `irq = irq_pending` (60_exceptions.md R150). -/
def State.irq (s : State) : Bool := s.irqPending

/-- What a read of STATUS returns: bits 31:5 zero (30_encoding.md R59). -/
def statusReadValue (st : BitVec 5) : Word := st.setWidth 32

/-- STATUS after a STATUS read (40_register_ops.md R74). -/
def statusAfterRead (st : BitVec 5) : BitVec 5 := st &&& statusKeepMask

/-- Whether setting the bits `m` raises the interrupt under the interrupt enable `ien` (R98): only event bits do. -/
def raisesIrq (ien : Bool) (m : BitVec 5) : Bool := ien && (m &&& maskEvents != 0)

/-- `event(m)` (00_scope.md R9): set the bits `m`; raise `irq_pending` if IEN, as stored by this same write, is 1.
"Becomes set" is the set action, not a 0-to-1 change (decision D13: log 17). -/
def event (m : BitVec 5) (s : State) : State :=
  { s with
    status := s.status ||| m
    irqPending := s.irqPending || raisesIrq s.ien m }

/-- An event that happens only under a condition (FULL and EMPTY at the end of a buffer). -/
def eventIf (c : Bool) (m : BitVec 5) (s : State) : State := if c then event m s else s

/-- STATUS after the reset pass (41_ctrl_commands.md R97): with EN the pass clears EMPTY; without EN it sets READY and
clears FULL. Which transition clears which sticky bit is the spec's decision D8 (log 12). -/
def statusAfterPass (en : Bool) (st : BitVec 5) : BitVec 5 :=
  if en then st &&& ~~~maskEMPTY else (st ||| maskREADY) &&& ~~~maskFULL

end Sys2Proof.Machine
end

