-- ==== Sys2Proof/Machine/Ops.lean ====
section
/-! DEFINITION. The shared operations: the sample buffer, responses, the error response (this hardware's one kind of
exception), invalid accesses, the steps of a CTRL write and the hard reset. -/

namespace Sys2Proof.Machine

/-! ### The sample buffer (10_state.md R27) -/

/-- The value listed for entry `i`, if one is. -/
def lookupCell (i : Nat) : List (Nat × Word) → Option Word
  | [] => none
  | (j, v) :: rest => if i = j then some v else lookupCell i rest

/-- List `v` for entry `i`, keeping the indexes strictly rising. -/
def insertCell (i : Nat) (v : Word) : List (Nat × Word) → List (Nat × Word)
  | [] => [(i, v)]
  | (j, w) :: rest =>
    if i < j then (i, v) :: (j, w) :: rest
    else if i = j then (i, v) :: rest
    else (j, w) :: insertCell i v rest

/-- What an entry that is not listed reads as: the free value `BUF_INIT` of this epoch (R34, U1). Log 6. -/
def Memory.unlisted (b : Memory) (i : Nat) : Word := Config.bufInit b.epoch i

/-- `buf[i]` -/
def Memory.read (b : Memory) (i : Nat) : Word := (lookupCell i b.cells).getD (b.unlisted i)

/-- `buf[i] <- v` -/
def Memory.write (b : Memory) (i : Nat) (v : Word) : Memory := { b with cells := insertCell i v b.cells }

/-- `buf[base], buf[base + 1], ... <- vs` -/
def Memory.writeMany (b : Memory) (base : Nat) : List Word → Memory
  | [] => b
  | v :: vs => (b.write base v).writeMany (base + 1) vs

/-- The entries `buf[0 .. n-1]`. -/
def Memory.firstEntries (b : Memory) (n : Nat) : List Word := (List.range n).map b.read

/-- A list of cells is in canonical form from `lo` on: indexes strictly rising, each at least `lo` and inside the
buffer's capacity. -/
def cellsWf (lo : Nat) : List (Nat × Word) → Bool
  | [] => true
  | (i, _) :: rest => decide (lo ≤ i) && decide (i < Config.maxSamples) && cellsWf (i + 1) rest

/-- The canonical form of the buffer: listed indexes strictly rising and below 2048. -/
def Memory.wf (b : Memory) : Bool := cellsWf 0 b.cells

/-- The buffer after a hard reset: `BUF_INIT`, chosen anew (R34, U1). -/
def Memory.afterReset (b : Memory) : Memory := ⟨b.epoch + 1, []⟩

/-! ### Responses (60_exceptions.md R141, R142) -/

/-- The state with `r` as the response of the last answered operation. -/
def complete (r : Response) (s : State) : State := { s with response := r }

/-- Complete the operation with response `r`. -/
def respond (r : Response) (s : State) : Host.Outcome State Fault Refusal := .next (complete r s)

/-- `raise <Kind>`: complete with `ERR(kind)` and change no state element (00_scope.md R9, 60_exceptions.md R146,
decision D3: log 10). -/
def raise (k : ErrKind) (s : State) : Host.Outcome State Fault Refusal := respond (.err k) s

/-- The numeric codes of R142 (decision D7); 0 is `OK`. -/
def ErrKind.code : ErrKind → Nat
  | .invalidOffset => 1
  | .notConfigured => 2
  | .overCapacity => 3
  | .unsupportedSampleCount => 4

/-- The code of a response. -/
def Response.code : Response → Nat
  | .okData _ => 0
  | .ok => 0
  | .err k => k.code

/-! ### Invalid accesses (40_register_ops.md R80) -/

/-- The response to an invalid access: by the mode, and in `permissive` mode by the direction. -/
def invalidResponse (mode : AddrMode) (isRead : Bool) : Response :=
  match mode with
  | .strict => .err .invalidOffset
  | .permissive => if isRead then .okData 0 else .ok

/-- The common treatment of every invalid access: the response of the device's `ADDR_MODE`, nothing else. -/
def invalidAccess (isRead : Bool) (s : State) : Host.Outcome State Fault Refusal :=
  respond (invalidResponse Config.addrMode isRead) s

/-- `RD_UNMAPPED`, `WR_UNMAPPED`, `BAD_ACCESS` (R83, R84). -/
def rejectAccess (a : InvalidAccess) (s : State) : Host.Outcome State Fault Refusal :=
  invalidAccess a.isRead s

/-! ### The steps of a CTRL write (41_ctrl_commands.md R85) -/

/-- R88: EN and IEN are both replaced; SAM and PRC are not stored. -/
def storeCtrl (en ien : Bool) (s : State) : State := { s with ctrl := packCtrl en ien }

/-- R87 (b): the ingestion would need an entry at or beyond `n_samples`. -/
def ingestOverCapacity (s : State) : Bool := decide (s.sampleIndex + unitSize s.cfg > nSamples s.cfg)

/-- R87 (c): `result_index >= n_samples div 2`. -/
def drainOverCapacity (s : State) : Bool := decide (s.resultIndex ≥ nSamples s.cfg / 2)

/-- R97, the reset pass: the last step of every accepted CTRL write. -/
def resetPass (en : Bool) (s : State) : State :=
  { s with
    status := statusAfterPass en s.status
    sampleIndex := if en then s.sampleIndex else 0
    resultIndex := if en then 0 else s.resultIndex }

/-- An accepted CTRL write: store, trigger, reset pass, `OK` (R85). -/
def acceptCtrl (en ien : Bool) (trigger : State → State) (s : State) : Host.Outcome State Fault Refusal :=
  respond .ok (resetPass en (trigger (storeCtrl en ien s)))

/-! ### Hard reset and waiting -/

/-- The hard reset (70_reset_and_hazards.md R163): every element at its reset value, from any state. The operations the
host has already issued stay issued. -/
def hardReset (s : State) : Host.Outcome State Fault Refusal :=
  .next { State.reset with
    sampleBuffer := s.sampleBuffer.afterReset
    pending := s.pending }

/-- With no operation issued the device waits: it takes no step of its own (00_scope.md R10, 60_exceptions.md R162).
DEDUCED, safe: log 2. -/
def waitForHost (s : State) : Host.Outcome State Fault Refusal := .next s

end Sys2Proof.Machine
end

