-- ==== Sys2Proof/Machine/Binary64.lean ====
section
/-! DEFINITION. The numerics `NUM` of the transform engine (43_transform_engine.md R121): IEEE 754 binary64, every
operation computed exactly and rounded once, to nearest, ties to even. Log 18. -/

namespace Sys2Proof.Machine

/-- A binary64 value. `fin neg man exp` is `(-1)^neg * man * 2^exp`, with `man < 2^53`, `-1074 <= exp <= 971`, and
either `2^52 <= man` or `exp = -1074`: one form for each value, and the two zeros apart. One `nan` stands for every
NaN: the spec names no payload. -/
inductive F64 where
  | fin (neg : Bool) (man : Nat) (exp : Int)
  | inf (neg : Bool)
  | nan
deriving DecidableEq, Repr

/-- The least exponent of the format. -/
def minExp : Int := -1074
/-- The greatest exponent of a 53-bit integer significand. -/
def maxExp : Int := 971

/-- The value is a finite one in its one form. -/
def F64.canonical : F64 → Bool
  | .fin _ m e =>
    decide (m < 2 ^ 53) && decide (minExp ≤ e) && decide (e ≤ maxExp) && (decide (2 ^ 52 ≤ m) || decide (e = minExp))
  | .inf _ => true
  | .nan => true

/-- The zero of a sign. -/
def F64.zero (neg : Bool) : F64 := .fin neg 0 minExp
/-- `1.0` -/
def F64.one : F64 := .fin false (2 ^ 52) (-52)

/-- The value of a 64-bit pattern: sign, 11-bit exponent, 52-bit fraction. -/
def F64.ofBits (b : BitVec 64) : F64 :=
  let neg := b.getLsbD 63
  let e := (b.extractLsb' 52 11).toNat
  let f := (b.extractLsb' 0 52).toNat
  if e = 2047 then if f = 0 then .inf neg else .nan
  else if e = 0 then .fin neg f minExp
  else .fin neg (f + 2 ^ 52) (e - 1075)

/-- The 64-bit pattern of a canonical value (the quiet pattern for `nan`). -/
def F64.toBits : F64 → BitVec 64
  | .fin neg m e =>
    let s := if neg then 2 ^ 63 else 0
    if m < 2 ^ 52 then BitVec.ofNat 64 (s + m)
    else BitVec.ofNat 64 (s + (e + 1075).toNat * 2 ^ 52 + (m - 2 ^ 52))
  | .inf neg => BitVec.ofNat 64 ((if neg then 2 ^ 63 else 0) + 2047 * 2 ^ 52)
  | .nan => BitVec.ofNat 64 (2047 * 2 ^ 52 + 2 ^ 51)

/-! ### Rounding -/

/-- `m / 2^d` to the nearest integer, a tie to the even one. -/
def roundShift (m d : Nat) : Nat :=
  let q := m / 2 ^ d
  let r := m % 2 ^ d
  if 2 * r > 2 ^ d || (2 * r == 2 ^ d && q % 2 == 1) then q + 1 else q

/-- The exponent at which `m * 2^e`, `m` positive, is rounded: 53 significant bits, but not below the least exponent. -/
def roundExp (m : Nat) (e : Int) : Int := max (e + ((Nat.log2 m + 1 : Nat) : Int) - 53) minExp

/-- A significand of at most 53 bits, or just `2^53` after rounding up, at an exponent: infinity when the exponent is
too large for the format. -/
def packFin (neg : Bool) (q : Nat) (e : Int) : F64 :=
  if q = 2 ^ 53 then
    if e + 1 > maxExp then .inf neg else .fin neg (2 ^ 52) (e + 1)
  else
    if e > maxExp then .inf neg else .fin neg q e

/-- `(-1)^neg * m * 2^e` rounded to nearest, ties to even. -/
def roundF64 (neg : Bool) (m : Nat) (e : Int) : F64 :=
  if m = 0 then F64.zero neg
  else
    let t := roundExp m e
    if t ≤ e then packFin neg (m * 2 ^ (e - t).toNat) t
    else packFin neg (roundShift m (t - e).toNat) t

/-! ### The operations (R121) -/

/-- `(-1)^neg * m` -/
def signed (neg : Bool) (m : Nat) : Int := if neg then -(m : Int) else (m : Int)

/-- Change of sign. -/
def fneg : F64 → F64
  | .fin s m e => .fin (!s) m e
  | .inf s => .inf (!s)
  | .nan => .nan

/-- The sum of two finite values: exact, then rounded; an exact zero is `-0` only if both addends are negative zeros. -/
def addFin (s₁ : Bool) (m₁ : Nat) (e₁ : Int) (s₂ : Bool) (m₂ : Nat) (e₂ : Int) : F64 :=
  let e := min e₁ e₂
  let z := signed s₁ (m₁ * 2 ^ (e₁ - e).toNat) + signed s₂ (m₂ * 2 ^ (e₂ - e).toNat)
  if z = 0 then F64.zero (s₁ && s₂) else roundF64 (decide (z < 0)) z.natAbs e

/-- `fadd` -/
def fadd : F64 → F64 → F64
  | .nan, _ => .nan
  | .inf _, .nan => .nan
  | .inf s₁, .inf s₂ => if s₁ = s₂ then .inf s₁ else .nan
  | .inf s₁, .fin _ _ _ => .inf s₁
  | .fin _ _ _, .nan => .nan
  | .fin _ _ _, .inf s₂ => .inf s₂
  | .fin s₁ m₁ e₁, .fin s₂ m₂ e₂ => addFin s₁ m₁ e₁ s₂ m₂ e₂

/-- `fsub` -/
def fsub (x y : F64) : F64 := fadd x (fneg y)

/-- `fmul` -/
def fmul : F64 → F64 → F64
  | .nan, _ => .nan
  | .inf _, .nan => .nan
  | .inf s₁, .inf s₂ => .inf (s₁ ^^ s₂)
  | .inf s₁, .fin s₂ m₂ _ => if m₂ = 0 then .nan else .inf (s₁ ^^ s₂)
  | .fin _ _ _, .nan => .nan
  | .fin s₁ m₁ _, .inf s₂ => if m₁ = 0 then .nan else .inf (s₁ ^^ s₂)
  | .fin s₁ m₁ e₁, .fin s₂ m₂ e₂ => roundF64 (s₁ ^^ s₂) (m₁ * m₂) (e₁ + e₂)

/-- Extra bits kept of a quotient before it is rounded: enough that what is cut off lies below the rounding bit. -/
def divBits : Nat := 110

/-- The quotient of two finite values, the divisor not zero: the integer quotient with a sticky last bit, rounded. -/
def divFin (s₁ : Bool) (m₁ : Nat) (e₁ : Int) (s₂ : Bool) (m₂ : Nat) (e₂ : Int) : F64 :=
  let n := m₁ * 2 ^ divBits
  roundF64 (s₁ ^^ s₂) (2 * (n / m₂) + (n % m₂ != 0).toNat) (e₁ - e₂ - (divBits : Int) - 1)

/-- `fdiv` -/
def fdiv : F64 → F64 → F64
  | .nan, _ => .nan
  | .inf _, .nan => .nan
  | .inf _, .inf _ => .nan
  | .inf s₁, .fin s₂ _ _ => .inf (s₁ ^^ s₂)
  | .fin _ _ _, .nan => .nan
  | .fin s₁ _ _, .inf s₂ => F64.zero (s₁ ^^ s₂)
  | .fin s₁ m₁ e₁, .fin s₂ m₂ e₂ =>
    if m₂ = 0 then if m₁ = 0 then .nan else .inf (s₁ ^^ s₂)
    else divFin s₁ m₁ e₁ s₂ m₂ e₂

/-- The integer square root by its binary digits, from bit `k - 1` down: the greatest `r` of the form
`r₀ + (a number below 2^k)` with `r * r <= n`. -/
def isqrtFrom (n : Nat) : Nat → Nat → Nat
  | 0, r => r
  | k + 1, r => isqrtFrom n k (if (r + 2 ^ k) * (r + 2 ^ k) ≤ n then r + 2 ^ k else r)

/-- Digits of the root of a scaled significand: `2^164` bounds the radicand. -/
def sqrtDigits : Nat := 83

/-- The root of a positive finite value: the radicand scaled to an even exponent, its integer root with a sticky last
bit, rounded. -/
def sqrtFin (m : Nat) (e : Int) : F64 :=
  let k : Nat := if e % 2 = 0 then 110 else 111
  let n := m * 2 ^ k
  let r := isqrtFrom n sqrtDigits 0
  roundF64 false (2 * r + (r * r != n).toNat) ((e - (k : Int)) / 2 - 1)

/-- `fsqrt` -/
def fsqrt : F64 → F64
  | .nan => .nan
  | .inf s => if s then .nan else .inf false
  | .fin s m e => if m = 0 then F64.zero s else if s then .nan else sqrtFin m e

/-- `i2f`: an integer as a binary64 value (exact below 2^53 in magnitude). -/
def i2f (z : Int) : F64 := roundF64 (decide (z < 0)) z.natAbs 0

/-- `f2i`: truncation toward zero of a finite value (R130). A value that is not finite is outside the rule's domain:
a free value, log 19. -/
def f2i : F64 → Int
  | .fin s m e => signed s (if 0 ≤ e then m * 2 ^ e.toNat else m / 2 ^ (-e).toNat)
  | .inf _ => Config.nonFiniteToInt
  | .nan => Config.nonFiniteToInt

end Sys2Proof.Machine
end

