-- ==== Sys2Proof/Machine/Transform.lean ====
section
/-! DEFINITION. The transform engine (43_transform_engine.md R114 to R140): bit reversal, twiddle factors, butterflies,
magnitude, min-max rescale. `L` is log2 of the transform length `N = 2^L`. -/

namespace Sys2Proof.Machine

/-! ### Bit reversal (R119, R120) -/

/-- `rev(i, L)`: bit `b` of the result is bit `L - 1 - b` of `i`. -/
def bitRev : Nat → Nat → Nat
  | 0, _ => 0
  | L + 1, i => (i % 2) * 2 ^ L + bitRev L (i / 2)

/-- A complex value of the engine's arrays: `re`, `im`. -/
structure Cplx where
  re : F64
  im : F64
deriving DecidableEq, Repr

/-- `0.0 + i·0.0` -/
def Cplx.zero : Cplx := ⟨F64.zero false, F64.zero false⟩

/-- The arrays before the first pass: `re[j] = i2f(s32(x[rev(j, L)]))`, `im[j] = +0.0` (R118, R120). -/
def loadSamples (L : Nat) (x : List Word) : List Cplx :=
  (List.range (2 ^ L)).map fun j => ⟨i2f (s32 (x.getD (bitRev L j) 0)), F64.zero false⟩

/-! ### Twiddle factors (R122 to R124) -/

/-- The seed bit patterns `(c_N, s_N)` of R123, for `N = 2^L`, `L` from 4 to 11. -/
def seedBits (L : Nat) : BitVec 64 × BitVec 64 :=
  match L with
  | 4 => (0x3FED906BCF328D46, 0x3FD87DE2A6AEA963)
  | 5 => (0x3FEF6297CFF75CB0, 0x3FC8F8B83C69A60B)
  | 6 => (0x3FEFD88DA3D12526, 0x3FB917A6BC29B42C)
  | 7 => (0x3FEFF621E3796D7E, 0x3FA91F65F10DD814)
  | 8 => (0x3FEFFD886084CD0D, 0x3F992155F7A3667E)
  | 9 => (0x3FEFFF62169B92DB, 0x3F8921D1FCDEC784)
  | 10 => (0x3FEFFFD8858E8A92, 0x3F7921F0FE670071)
  | _ => (0x3FEFFFF621621D02, 0x3F6921F8BECCA4BA)

/-- `W[1] = (c_N, -s_N)` (R123). -/
def seed (L : Nat) : Cplx := ⟨F64.ofBits (seedBits L).1, fneg (F64.ofBits (seedBits L).2)⟩

/-- `W[k] = W[k-1] · W[1]`, in the operand order of R124. -/
def nextTwiddle (w1 w : Cplx) : Cplx :=
  ⟨fsub (fmul w.re w1.re) (fmul w.im w1.im), fadd (fmul w.re w1.im) (fmul w.im w1.re)⟩

/-- `count` twiddles from `w` on. -/
def twiddlesFrom (w1 : Cplx) : Nat → Cplx → List Cplx
  | 0, _ => []
  | count + 1, w => w :: twiddlesFrom w1 count (nextTwiddle w1 w)

/-- The table `W[0 .. N/2-1]`: `W[0] = (1.0, +0.0)`, then `W[1]` and the recurrence. -/
def twiddles (L : Nat) : List Cplx :=
  ⟨F64.one, F64.zero false⟩ :: twiddlesFrom (seed L) (2 ^ (L - 1) - 1) (seed L)

/-! ### Butterflies (R125 to R128) -/

/-- The product `W·v` in the operand order of R127. -/
def twiddleMul (w v : Cplx) : Cplx :=
  ⟨fsub (fmul w.re v.re) (fmul w.im v.im), fadd (fmul w.re v.im) (fmul w.im v.re)⟩

/-- The twiddle index of R126, `a = N / (2·stage)`. -/
def twiddleIndex (N stage i : Nat) : Nat :=
  let a := N / (2 * stage)
  (i * a) % (stage * a)

/-- R127 for the pair `(i, i + stage)`: the old values are read before any is written. -/
def butterfly (w : List Cplx) (N stage : Nat) (d : List Cplx) (i : Nat) : List Cplx :=
  let u := d.getD i Cplx.zero
  let t := twiddleMul (w.getD (twiddleIndex N stage i) Cplx.zero) (d.getD (i + stage) Cplx.zero)
  (d.set i ⟨fadd u.re t.re, fadd u.im t.im⟩).set (i + stage) ⟨fsub u.re t.re, fsub u.im t.im⟩

/-- One pass: every pair with `(i & stage) = 0`, `i` from 0 to N - 1 (R125). -/
def pass (w : List Cplx) (N stage : Nat) (d : List Cplx) : List Cplx :=
  (List.range N).foldl (fun d i => if i &&& stage = 0 then butterfly w N stage d i else d) d

/-- The L passes, `stage = 1, 2, 4, ..., N/2` (R116, R125). -/
def passes (w : List Cplx) (L : Nat) (d : List Cplx) : List Cplx :=
  (List.range L).foldl (fun d t => pass w (2 ^ L) (2 ^ t) d) d

/-! ### Magnitude and rescale (R129 to R133) -/

/-- `g = sqrt(re² + im²)` (R129). -/
def magnitude (z : Cplx) : F64 := fsqrt (fadd (fmul z.re z.re) (fmul z.im z.im))

/-- `m = f2i(g)`, a natural number (R130): not reduced modulo 2^32. -/
def intMagnitude (z : Cplx) : Nat := (f2i (magnitude z)).toNat

/-- The magnitudes `m[0 .. N-1]` of the entries `x[0 .. N-1]`. -/
def magnitudes (L : Nat) (x : List Word) : List Nat :=
  (passes (twiddles L) L (loadSamples L x)).map intMagnitude

/-- The least entry (R131). -/
def minOf : List Nat → Nat
  | [] => 0
  | m :: ms => ms.foldl min m

/-- The greatest entry (R131). -/
def maxOf (ms : List Nat) : Nat := ms.foldl max 0

/-- Full scale, `2^(S+4)` (R133). -/
def fullScale (s16 : Bool) : Nat := if s16 then 32 else 16

/-- The output for one magnitude: mid-scale `2^(S+3)` when all magnitudes are equal (R132), else the truncated linear
rescale (R133). -/
def rescaleOne (s16 : Bool) (lo hi m : Nat) : Nat :=
  if lo = hi then fullScale s16 / 2 else (m - lo) * fullScale s16 / (hi - lo)

/-- The outputs for the magnitudes. -/
def rescale (s16 : Bool) (ms : List Nat) : List Nat := ms.map (rescaleOne s16 (minOf ms) (maxOf ms))

/-- `Transform(N, S, x)` (R116), `N = 2^L`. -/
def transform (L : Nat) (s16 : Bool) (x : List Word) : List Word :=
  (rescale s16 (magnitudes L x)).map (BitVec.ofNat 32)

end Sys2Proof.Machine
end

