-- ==== Sys2Proof/Machine/Commands.lean ====
section
/-! DEFINITION. The four CTRL commands (41_ctrl_commands.md R85 to R98) and the sample codec (42_sample_codec.md R105 to
R109). -/

namespace Sys2Proof.Machine

/-! ### The codec -/

/-- The buffer after one ingestion (R106, R107): the whole latch, or its two halves, the low one first. -/
def ingestBuffer (cfg d : Word) (b : Memory) (si : Nat) : Memory :=
  if smode cfg then (b.write si (lowHalf d)).write (si + 1) (highHalf d) else b.write si d

/-! ### The triggers -/

/-- The stores of `ingest()`: the buffer and the cursor; the latch is read, not consumed (R108, decision D27). -/
def ingestStore (s : State) : State :=
  { s with
    sampleBuffer := ingestBuffer s.cfg s.datainLatch s.sampleBuffer s.sampleIndex
    sampleIndex := s.sampleIndex + unitSize s.cfg }

/-- `ingest()` (R91): store, then SCPLT, then FULL once `sample_index == n_samples`. -/
def ingest (s : State) : State :=
  let t := event maskSCPLT (ingestStore s)
  eventIf (t.sampleIndex == nSamples t.cfg) maskFULL t

/-- The stores of `drain()`: one whole entry to the latch, in both sample modes (R109, R110). -/
def drainStore (s : State) : State :=
  { s with
    dataoutLatch := s.sampleBuffer.read s.resultIndex
    resultIndex := s.resultIndex + 1 }

/-- `drain()` (R92): copy, then SCPLT, then EMPTY once `result_index == n_samples div 2`. -/
def drain (s : State) : State :=
  let t := event maskSCPLT (drainStore s)
  eventIf (t.resultIndex == nSamples t.cfg / 2) maskEMPTY t

/-- The buffer after the transform: entries `0 .. n_samples-1` are rewritten in place (R135). -/
def transformBuffer (cfg : Word) (b : Memory) : Memory :=
  b.writeMany 0 (transform (log2Samples cfg) (smode cfg) (b.firstEntries (nSamples cfg)))

/-- `process()` (R93): the transform, complete before the write returns, then PCPLT. -/
def process (s : State) : State :=
  event maskPCPLT { s with sampleBuffer := transformBuffer s.cfg s.sampleBuffer }

/-! ### The commands -/

/-- `CTRL_SET` (R90): the store and the reset pass, never refused. -/
def execCtrlSet (v : Word) (s : State) : Host.Outcome State Fault Refusal :=
  acceptCtrl (ctrlEn v) (ctrlIen v) id s

/-- `CTRL_SAM_IN` (R91): the checks of R87, then store, ingest, reset pass. EN is 1 in every value that selects this
command (R64); PRC is dropped (R94). -/
def execCtrlSamIn (v : Word) (s : State) : Host.Outcome State Fault Refusal :=
  if !s.configured then raise .notConfigured s
  else if ingestOverCapacity s then raise .overCapacity s
  else acceptCtrl true (ctrlIen v) ingest s

/-- `CTRL_SAM_OUT` (R92): the checks of R87, then store, drain, reset pass. EN is 0 in every value that selects this
command (R64); PRC is dropped (R94). -/
def execCtrlSamOut (v : Word) (s : State) : Host.Outcome State Fault Refusal :=
  if !s.configured then raise .notConfigured s
  else if drainOverCapacity s then raise .overCapacity s
  else acceptCtrl false (ctrlIen v) drain s

/-- `CTRL_PRC` (R93): accepted whenever the device is configured (R95). -/
def execCtrlPrc (v : Word) (s : State) : Host.Outcome State Fault Refusal :=
  if !s.configured then raise .notConfigured s
  else acceptCtrl (ctrlEn v) (ctrlIen v) process s

end Sys2Proof.Machine
end

