-- ==== Sys2Proof/Machine/Invalid.lean ====
section
/-! DEFINITION. The rows of the opcode table that are invalid accesses (40_register_ops.md R78, R79, R81, R82): the
common treatment of R80, one definition a row. -/

namespace Sys2Proof.Machine

/-- `RD_DATAIN`: DATAIN is write-only; the latch is not returned (R78). -/
def execRdDatain (s : State) : Host.Outcome State Fault Refusal := invalidAccess true s

/-- `WR_DEVID`: DEVID is read-only; nothing is stored (R79). -/
def execWrDevid (_v : Word) (s : State) : Host.Outcome State Fault Refusal := invalidAccess false s

/-- `WR_DATAOUT`: DATAOUT is read-only (R81). -/
def execWrDataout (_v : Word) (s : State) : Host.Outcome State Fault Refusal := invalidAccess false s

/-- `WR_STATUS`: STATUS is read-only; the write clears no bit and acknowledges nothing (R82). -/
def execWrStatus (_v : Word) (s : State) : Host.Outcome State Fault Refusal := invalidAccess false s

end Sys2Proof.Machine
end

