-- ==== Sys2Proof/Machine/Reads.lean ====
section
/-! DEFINITION. The accepted reads (40_register_ops.md R70 to R74). -/

namespace Sys2Proof.Machine

/-- `RD_DEVID`: `return OK(id)` (R70). -/
def execRdDevid (s : State) : Host.Outcome State Fault Refusal := respond (.okData s.id) s

/-- `RD_CTRL`: `return OK(ctrl)` (R71). -/
def execRdCtrl (s : State) : Host.Outcome State Fault Refusal := respond (.okData (ctrlReadValue s.ctrl)) s

/-- `RD_CFG0`: `return OK(cfg)` (R72). -/
def execRdCfg0 (s : State) : Host.Outcome State Fault Refusal := respond (.okData s.cfg) s

/-- `RD_DATAOUT`: `return OK(dataout_latch)`; no cursor moves (R73). -/
def execRdDataout (s : State) : Host.Outcome State Fault Refusal := respond (.okData s.dataoutLatch) s

/-- `RD_STATUS`: the current word; then READY, SCPLT and PCPLT and the pending interrupt are cleared (R74). -/
def execRdStatus (s : State) : Host.Outcome State Fault Refusal :=
  respond (.okData (statusReadValue s.status)) { s with status := statusAfterRead s.status, irqPending := false }

end Sys2Proof.Machine
end

