-- ==== Sys2Proof/Machine/Writes.lean ====
section
/-! DEFINITION. The plain writes (40_register_ops.md R75, R76). -/

namespace Sys2Proof.Machine

/-- `WR_CFG0`: the full value is stored and the device counts as configured; cursors, STATUS and buffer stay (R75,
decision D9: log 13). `n_samples` follows from `cfg` (R17). -/
def execWrCfg0 (v : Word) (s : State) : Host.Outcome State Fault Refusal :=
  respond .ok { s with cfg := v, configured := true }

/-- `WR_DATAIN`: the raw value is stored for the next ingestion (R76). -/
def execWrDatain (v : Word) (s : State) : Host.Outcome State Fault Refusal :=
  respond .ok { s with datainLatch := v }

end Sys2Proof.Machine
end

