-- ==== Sys2Proof/Machine/Dispatch.lean ====
section
/-! DEFINITION. One arm per row of the opcode table. -/

namespace Sys2Proof.Machine

def exec (i : Instr) (s : State) : Host.Outcome State Fault Refusal :=
  match i with
  | .rdDevid => Sys2Proof.Machine.execRdDevid s
  | .rdCtrl => Sys2Proof.Machine.execRdCtrl s
  | .rdCfg0 => Sys2Proof.Machine.execRdCfg0 s
  | .rdDatain => Sys2Proof.Machine.execRdDatain s
  | .rdDataout => Sys2Proof.Machine.execRdDataout s
  | .rdStatus => Sys2Proof.Machine.execRdStatus s
  | .wrDevid v => Sys2Proof.Machine.execWrDevid v s
  | .ctrlSamIn v => Sys2Proof.Machine.execCtrlSamIn v s
  | .ctrlSamOut v => Sys2Proof.Machine.execCtrlSamOut v s
  | .ctrlPrc v => Sys2Proof.Machine.execCtrlPrc v s
  | .ctrlSet v => Sys2Proof.Machine.execCtrlSet v s
  | .wrCfg0 v => Sys2Proof.Machine.execWrCfg0 v s
  | .wrDatain v => Sys2Proof.Machine.execWrDatain v s
  | .wrDataout v => Sys2Proof.Machine.execWrDataout v s
  | .wrStatus v => Sys2Proof.Machine.execWrStatus v s

end Sys2Proof.Machine
end

