-- ==== Sys2Proof/Machine/Step.lean ====
section
/-! DEFINITION. One step: the device takes the oldest operation the host has issued, decodes it and answers it
(00_scope.md R10, 40_register_ops.md R69). Log 1, log 2. -/

namespace Sys2Proof.Machine

/-- Answer one operation (R69). -/
def answer (op : Op) (s : State) : Host.Outcome State Fault Refusal :=
  match decode op with
  | .reset => hardReset s
  | .instr i => exec i s
  | .invalid a => rejectAccess a s

/-- The device's step. -/
def step (s : State) : Host.Outcome State Fault Refusal :=
  match s.pending with
  | [] => waitForHost s
  | op :: rest => answer op { s with pending := rest }

/-- The state in which the host has issued the operation of the table word `w` (`nbits` bits given) before all others.
Where `w` is no operation word (R52) there is nothing to issue. Log 1, log 25. -/
def State.withFetchWord (s : State) (nbits w : Nat) : State :=
  match opOfTableWord nbits w with
  | some op => { s with pending := op :: s.pending }
  | none => s

end Sys2Proof.Machine
end

