-- ==== Sys2Proof/Safety.lean ====
section
/-! DEFINITION. What claims are stated in terms of: the protocol states (41_ctrl_commands.md R99), the invariants of
10_state.md R33, and the states the host can bring about. -/

namespace Sys2Proof.Machine

/-! ### The protocol states of R99: names for regions of the state space -/

/-- `Idle/Ready`: EN = 0 and both cursors 0. -/
def State.isIdle (s : State) : Bool := !s.en && s.sampleIndex == 0 && s.resultIndex == 0

/-- `Ingesting`: EN = 1, `sample_index < n_samples`. -/
def State.isIngesting (s : State) : Bool := s.en && decide (s.sampleIndex < nSamples s.cfg)

/-- `Ready-to-process`: EN = 1, `sample_index = n_samples`. -/
def State.isReadyToProcess (s : State) : Bool := s.en && s.sampleIndex == nSamples s.cfg

/-- `Draining`: EN = 0, `result_index < n_samples / 2`. -/
def State.isDraining (s : State) : Bool := !s.en && decide (s.resultIndex < nSamples s.cfg / 2)

/-- `Drained`: EN = 0, `result_index = n_samples / 2`. -/
def State.isDrained (s : State) : Bool := !s.en && s.resultIndex == nSamples s.cfg / 2

/-! ### The invariants -/

/-- What holds in every reachable state: R33's (I2), (I4), (I5), the constant `id` (R14), the buffer's canonical form,
and R148's "while `configured = 0` both cursors are 0 and `n_samples = 16`". (I1) and (I3) hold by the types: a state
has no `n_samples` of its own and no bits above `status[4]` and `ctrl[1]`. -/
structure State.Inv (s : State) : Prop where
  id_constant : s.id = Config.devidValue
  buffer_wf : s.sampleBuffer.wf = true
  sampleIndex_le : s.sampleIndex ≤ 2048
  resultIndex_le : s.resultIndex ≤ 1024
  full_en : s.full = true → s.en = true
  empty_disabled : s.empty = true → s.en = false
  enabled_resultIndex : s.en = true → s.resultIndex = 0
  disabled_sampleIndex : s.en = false → s.sampleIndex = 0
  unconfigured : s.configured = false → s.cfg = 0 ∧ s.sampleIndex = 0 ∧ s.resultIndex = 0

/-! ### Runs -/

/-- The host issues one more operation: it comes after all those issued before (20_memory.md R43). -/
def State.issue (s : State) (op : Op) : State := { s with pending := s.pending ++ [op] }

/-- The states that the host and the device can bring about from reset: the host may issue any operation at any time,
and the device steps. -/
inductive Reachable : State → Prop where
  | reset : Reachable State.reset
  | issue (s : State) (op : Op) : Reachable s → Reachable (s.issue op)
  | step (s t : State) : Reachable s → step s = .next t → Reachable t

/-! ### The CTRL write as one function -/

/-- The algorithm of 41_ctrl_commands.md R85, line by line, over the written value. The machine reaches the same effect
through the four rows of the opcode table. -/
def ctrlWriteAlgorithm (v : Word) (s : State) : Host.Outcome State Fault Refusal :=
  let en := v.getLsbD 0
  let ien := v.getLsbD 1
  let sam := v.getLsbD 2
  let prc := v.getLsbD 3
  if (sam || prc) && !s.configured then .next { s with response := .err .notConfigured }
  else if sam && en && decide (s.sampleIndex + (if s.cfg.getLsbD 0 then 2 else 1) > nSamples s.cfg) then
    .next { s with response := .err .overCapacity }
  else if sam && !en && decide (s.resultIndex ≥ nSamples s.cfg / 2) then
    .next { s with response := .err .overCapacity }
  else
    let stored := { s with ctrl := BitVec.ofBool ien ++ BitVec.ofBool en }
    let triggered := if sam then (if en then ingest stored else drain stored) else if prc then process stored else stored
    if en then
      .next { triggered with resultIndex := 0, status := triggered.status &&& 0x0F, response := .ok }
    else
      .next { triggered with sampleIndex := 0, status := (triggered.status ||| 0x01) &&& 0x17, response := .ok }

/-! ### What an instruction may write -/

/-- The four CTRL commands. -/
def isCtrlCommand : Instr → Bool
  | .rdDevid => false
  | .rdCtrl => false
  | .rdCfg0 => false
  | .rdDatain => false
  | .rdDataout => false
  | .rdStatus => false
  | .wrDevid _ => false
  | .ctrlSamIn _ => true
  | .ctrlSamOut _ => true
  | .ctrlPrc _ => true
  | .ctrlSet _ => true
  | .wrCfg0 _ => false
  | .wrDatain _ => false
  | .wrDataout _ => false
  | .wrStatus _ => false

/-- The buffer entries an instruction may store to (10_state.md R27): an ingestion the unit at `sample_index`, a
transform the entries below `n_samples`, every other row none. -/
def storesEntry (i : Instr) (s : State) (a : Nat) : Bool :=
  match i with
  | .ctrlSamIn _ => decide (s.sampleIndex ≤ a) && decide (a < s.sampleIndex + unitSize s.cfg)
  | .ctrlPrc _ => decide (a < nSamples s.cfg)
  | .rdDevid => false
  | .rdCtrl => false
  | .rdCfg0 => false
  | .rdDatain => false
  | .rdDataout => false
  | .rdStatus => false
  | .wrDevid _ => false
  | .ctrlSamOut _ => false
  | .ctrlSet _ => false
  | .wrCfg0 _ => false
  | .wrDatain _ => false
  | .wrDataout _ => false
  | .wrStatus _ => false

/-! ### Sessions: several operations one after the other -/

/-- Write each word to DATAIN and ingest it (70_reset_and_hazards.md R168, step 3), with the CTRL value `v`. -/
def loadAll (v : Word) : List Word → State → Host.Outcome State Fault Refusal
  | [], s => .next s
  | d :: ds, s =>
    match exec (.wrDatain d) s with
    | .next s₁ =>
      match exec (.ctrlSamIn v) s₁ with
      | .next s₂ => if s₂.response = .ok then loadAll v ds s₂ else .next s₂
      | .fault r => .fault r
      | .refused r => .refused r
    | .fault r => .fault r
    | .refused r => .refused r

/-- Drain `k` results with the CTRL value `v` (R168, step 6): what the output latch holds after each, and the last state;
none if a drain is refused. -/
def drainAll (v : Word) : Nat → State → Option (List Word × State)
  | 0, s => some ([], s)
  | k + 1, s =>
    match exec (.ctrlSamOut v) s with
    | .next s₁ => if s₁.response = .ok then (drainAll v k s₁).map fun r => (s₁.dataoutLatch :: r.1, r.2) else none
    | .fault _ => none
    | .refused _ => none

/-! ### Values of binary64 numbers -/

/-- The value is finite. -/
def F64.isFinite : F64 → Bool
  | .fin _ _ _ => true
  | .inf _ => false
  | .nan => false

/-- The rational value of a finite number. -/
def F64.toRat : F64 → ℚ
  | .fin s m e => (if s then -1 else 1) * (m : ℚ) * (2 : ℚ) ^ e
  | .inf _ => 0
  | .nan => 0

/-- The significand is even: what a tie is rounded to. -/
def F64.evenSignificand : F64 → Bool
  | .fin _ m _ => m % 2 == 0
  | .inf _ => false
  | .nan => false

/-- `r` is the binary64 value of the rational `q` under round to nearest, ties to even, `q` within the format's range
(43_transform_engine.md R121): a finite value in its one form, none nearer, and of two equally near ones the even. -/
def IsNearestEven (q : ℚ) (r : F64) : Prop :=
  r.isFinite = true ∧ r.canonical = true ∧
  ∀ y : F64, y.isFinite = true → y.canonical = true →
    |q - r.toRat| ≤ |q - y.toRat| ∧ (|q - r.toRat| = |q - y.toRat| → y.toRat ≠ r.toRat → r.evenSignificand = true)

/-- The magnitude from which a rational rounds to infinity: half a unit above the greatest finite value. -/
def overflowBound : ℚ := (2 ^ 54 - 1) * 2 ^ 970

/-- An array whose entries are all finite. -/
def allFinite (d : List Cplx) : Bool := d.all fun z => z.re.isFinite && z.im.isFinite

end Sys2Proof.Machine
end

