-- ==== Sys2Proof/Certificates/Slice0/Obligations.lean ====
section
/-! DEFINITION. The statements for the provers. Each docstring says what rule or section of spec/ it formalises. -/

open Sys2Proof Sys2Proof.Machine

/-! ### Encoding -/

/-- 30_encoding.md sections 1 and 5: decoding the word of a well-formed instruction gives it back, with every data
value the row admits; so does decoding the access it stands for. -/
def Obligations.DecodingAnEncodedInstructionGivesItBack : Prop :=
  ∀ i : Instr, i.wellFormed = true → decodeWord (encode i) = some i ∧ decode (encodeOp i) = .instr i

/-- 30_encoding.md sections 1 and 5: a word matches a row of the opcode table exactly when it decodes to an instruction
of that row's mnemonic, so no word matches two rows and a word that matches none is no instruction. -/
def Obligations.OpcodeTableIsExactlyTheDecoder : Prop :=
  ∀ (w : OpWord) (r : OpcodeRow), r ∈ opcodeTable →
    (r.matchesWord w = true ↔ ∃ i, decodeWord w = some i ∧ i.mnemonic = r.mnemonic)

/-- 30_encoding.md section 1, 40_register_ops.md section 1: the legal operations (size 4, one of the six offsets) are
exactly those that decode to an instruction, the instruction is well formed and stands for that very access; every
other operation is rejected by name. -/
def Obligations.LegalAccessesAreExactlyTheInstructions : Prop :=
  ∀ op : Op, op ≠ .reset →
    (op.legal = true → ∃ i, decode op = .instr i ∧ i.wellFormed = true ∧ encodeOp i = op) ∧
    (op.legal = false → ∃ a, decode op = .invalid a)

/-- 30_encoding.md R64: the command a CTRL write selects, by `sam`, `prc` and `en` of the written value. -/
def Obligations.CtrlValueSelectsTheCommand : Prop :=
  ∀ v : Word,
    (v.getLsbD 2 = true → v.getLsbD 0 = true → decode (.write 0x04 4 v) = .instr (.ctrlSamIn v)) ∧
    (v.getLsbD 2 = true → v.getLsbD 0 = false → decode (.write 0x04 4 v) = .instr (.ctrlSamOut v)) ∧
    (v.getLsbD 2 = false → v.getLsbD 3 = true → decode (.write 0x04 4 v) = .instr (.ctrlPrc v)) ∧
    (v.getLsbD 2 = false → v.getLsbD 3 = false → decode (.write 0x04 4 v) = .instr (.ctrlSet v))

/-- 30_encoding.md section 5 and the op words of 95_test_vectors.md: written-out words decode to what they stand for. -/
def Obligations.WrittenOutWordsDecodeRight : Prop :=
  decodeWord 0x01400000000 = some .rdStatus ∧ decodeWord 0x108FFFFFFF0 = some (.wrCfg0 0xFFFFFFF0) ∧
  decodeWord 0x1040000000C = some (.ctrlSamOut 0xC) ∧ decodeWord 0x10400000009 = some (.ctrlPrc 9) ∧
  decodeWord 0x11400000000 = some (.wrStatus 0) ∧ decodeWord 0x01800000000 = none

/-! ### The step and reset -/

/-- 00_scope.md section 5 (R10), 40_register_ops.md section 1: a step answers the oldest operation issued: the hard
reset, the decoded instruction's meaning, or the rejection of an access that is no instruction. With nothing issued
the state stays (the model's reading, log 2). -/
def Obligations.StepAnswersTheOldestOperation : Prop :=
  ∀ (s : State) (rest : List Op),
    (∀ op i, s.pending = op :: rest → decode op = .instr i → step s = exec i { s with pending := rest }) ∧
    (s.pending = .reset :: rest → step s = hardReset { s with pending := rest }) ∧
    (∀ op a, s.pending = op :: rest → decode op = .invalid a → step s = rejectAccess a { s with pending := rest }) ∧
    (s.pending = [] → step s = .next s)

/-- 60_exceptions.md section 3 (R160): no operation makes the device stop answering. -/
def Obligations.EveryStepAnswers : Prop := ∀ s : State, ∃ t, step s = .next t

/-- 10_state.md section 8: the reset state. The values of `ctrl`, the cursors and `status` are D0's; `id` is the open
parameter; the others are the spec's own decisions (log 8), and an unwritten buffer entry reads as the free value
`Config.bufInit` (log 6), of which nothing is known. -/
def Obligations.ResetStateValues : Prop :=
  State.reset.ctrl = 0 ∧ State.reset.status = 0x01 ∧ State.reset.sampleIndex = 0 ∧ State.reset.resultIndex = 0 ∧
  State.reset.id = Config.devidValue ∧ State.reset.cfg = 0 ∧ nSamples State.reset.cfg = 16 ∧
  State.reset.configured = false ∧ State.reset.datainLatch = 0 ∧ State.reset.dataoutLatch = 0 ∧
  State.reset.irqPending = false ∧ ∀ i, State.reset.sampleBuffer.read i = Config.bufInit 0 i

/-- 70_reset_and_hazards.md section 1: the Reset operation, from any state: every element at its reset value, the
buffer chosen anew (U1: the free value of the next epoch, log 6), the answer `OK`. D0 gives the values of `ctrl`, the
cursors and `status`; those of `cfg`, `configured`, the latches and `irq` are the spec's decisions (log 8). That the
operations issued stay issued is the model's choice (log 26). -/
def Obligations.ResetOperationRestoresEveryElement : Prop :=
  ∀ (s : State) (rest : List Op), s.pending = .reset :: rest →
    ∃ t, step s = .next t ∧
      t = { State.reset with sampleBuffer := t.sampleBuffer, pending := rest } ∧
      ∀ i, t.sampleBuffer.read i = Config.bufInit (s.sampleBuffer.epoch + 1) i

/-! ### The invariant -/

/-- 10_state.md section 7: the invariants hold at reset. -/
def Obligations.ResetSatisfiesTheInvariant : Prop := State.reset.Inv

/-- 10_state.md section 7: every step keeps the invariants, whatever operation it answers. -/
def Obligations.EveryStepKeepsTheInvariant : Prop := ∀ s t : State, s.Inv → step s = .next t → t.Inv

/-- 10_state.md section 7, "These hold in every reachable state": whatever operations the host issues. -/
def Obligations.ReachableStatesSatisfyTheInvariant : Prop := ∀ s : State, Reachable s → s.Inv

/-- 10_state.md section 7, last sentence: D0's cursor bounds are kept by every operation but a CFG0 write. -/
def Obligations.CursorBoundsAreKeptButForCfg0Writes : Prop :=
  ∀ (s t : State) (op : Op) (rest : List Op), s.pending = op :: rest → (∀ v, op ≠ .write 0x08 4 v) →
    s.sampleIndex ≤ nSamples s.cfg → s.resultIndex ≤ nSamples s.cfg / 2 → step s = .next t →
    t.sampleIndex ≤ nSamples t.cfg ∧ t.resultIndex ≤ nSamples t.cfg / 2

/-! ### Reads and plain writes -/

/-- 40_register_ops.md section 2: RD_DEVID, RD_CTRL, RD_CFG0 and RD_DATAOUT answer the register and change nothing. -/
def Obligations.RegisterReadsAnswerTheRegister : Prop :=
  ∀ s : State,
    exec .rdDevid s = .next { s with response := .okData s.id } ∧
    exec .rdCtrl s = .next { s with response := .okData (BitVec.ofNat 32 s.ctrl.toNat) } ∧
    exec .rdCfg0 s = .next { s with response := .okData s.cfg } ∧
    exec .rdDataout s = .next { s with response := .okData s.dataoutLatch }

/-- 40_register_ops.md section 2, RD_STATUS: the current word, then READY, SCPLT and PCPLT cleared, FULL and EMPTY
kept, the pending interrupt cleared; nothing else changes. A second read answers FULL and EMPTY alone. -/
def Obligations.StatusReadAnswersThenClears : Prop :=
  ∀ s : State,
    exec .rdStatus s = .next { s with
      status := s.status &&& 0x18, irqPending := false, response := .okData (BitVec.ofNat 32 s.status.toNat) } ∧
    ∀ t, exec .rdStatus s = .next t →
      t.ready = false ∧ t.scplt = false ∧ t.pcplt = false ∧ t.full = s.full ∧ t.empty = s.empty ∧
      exec .rdStatus t = .next { t with response := .okData (BitVec.ofNat 32 (s.status &&& 0x18).toNat) }

/-- 40_register_ops.md section 3, WR_CFG0: all 32 bits are stored, the device counts as configured, `n_samples` becomes
`2^(v[3:1] + 4)`. That the write is accepted in every state and that cursors, STATUS, latches and buffer stay is the
spec's decision D9 (log 13), the flag `configured` its decision D6 (log 11). -/
def Obligations.Cfg0WriteSetsModeAndLength : Prop :=
  ∀ (v : Word) (s : State),
    exec (.wrCfg0 v) s = .next { s with cfg := v, configured := true, response := .ok } ∧
    ∀ t, exec (.wrCfg0 v) s = .next t →
      nSamples t.cfg = 2 ^ ((v.toNat / 2) % 8 + 4) ∧ nSamples t.cfg ∈ [16, 32, 64, 128, 256, 512, 1024, 2048]

/-- 40_register_ops.md section 3, WR_DATAIN: the raw value goes to the latch; nothing else changes. -/
def Obligations.DatainWriteSetsOnlyTheLatch : Prop :=
  ∀ (v : Word) (s : State), exec (.wrDatain v) s = .next { s with datainLatch := v, response := .ok }

/-! ### Invalid accesses -/

/-- 40_register_ops.md section 4: the rows RD_DATAIN, WR_DEVID, WR_DATAOUT and WR_STATUS complete in both modes, by the
device's `ADDR_MODE`: `ERR(InvalidOffset)` in strict mode, else `OK(0)` for the read and `OK` for the writes, with no
other change. `ADDR_MODE` is the spec's open parameter (log 5); that RD_DATAIN and WR_DEVID are invalid accesses is its
decision D22 (log 23). -/
def Obligations.WrongDirectionRowsAnswerByMode : Prop :=
  ∀ (v : Word) (s : State),
    exec .rdDatain s = .next { s with
      response := if Config.addrMode = .strict then .err .invalidOffset else .okData 0 } ∧
    exec (.wrDevid v) s = .next { s with
      response := if Config.addrMode = .strict then .err .invalidOffset else .ok } ∧
    exec (.wrDataout v) s = .next { s with
      response := if Config.addrMode = .strict then .err .invalidOffset else .ok } ∧
    exec (.wrStatus v) s = .next { s with
      response := if Config.addrMode = .strict then .err .invalidOffset else .ok }

/-- 40_register_ops.md section 4: the common treatment of every invalid access: an access of a size other than 4, a
misaligned or unmapped one, a read of DATAIN, a write of DEVID, DATAOUT or STATUS. By `ADDR_MODE` (log 5):
`ERR(InvalidOffset)` in strict mode, else `OK(0)` for a read and `OK` for a write; in both modes every other element is
unchanged. That other sizes belong to the class is the spec's decision D19, that unmapped offsets, reads of DATAIN and
writes of DEVID do its decision D22 (log 23). -/
def Obligations.InvalidAccessesChangeNothing : Prop :=
  ∀ (s : State) (off size : Nat) (v : Word) (rest : List Op),
    (s.pending = .read off size :: rest → (size ≠ 4 ∨ off ∉ [0x00, 0x04, 0x08, 0x10, 0x14]) →
      step s = .next { s with
        pending := rest, response := if Config.addrMode = .strict then .err .invalidOffset else .okData 0 }) ∧
    (s.pending = .write off size v :: rest → (size ≠ 4 ∨ off ∉ [0x04, 0x08, 0x0C]) →
      step s = .next { s with
        pending := rest, response := if Config.addrMode = .strict then .err .invalidOffset else .ok })

/-! ### The CTRL commands -/

/-- 41_ctrl_commands.md section 2, CTRL_SET: EN and IEN stored, then the reset pass; never refused, no event. Which
sticky bit the pass clears is the spec's decision D8 (log 12); a `v` that does not select the command is log 31. -/
def Obligations.CtrlSetStoresAndRunsTheResetPass : Prop :=
  ∀ (v : Word) (s : State),
    (v.getLsbD 0 = true → exec (.ctrlSet v) s = .next { s with
      ctrl := BitVec.ofBool (v.getLsbD 1) ++ BitVec.ofBool true, status := s.status &&& 0x0F,
      resultIndex := 0, response := .ok }) ∧
    (v.getLsbD 0 = false → exec (.ctrlSet v) s = .next { s with
      ctrl := BitVec.ofBool (v.getLsbD 1) ++ BitVec.ofBool false, status := (s.status ||| 0x01) &&& 0x17,
      sampleIndex := 0, response := .ok })

/-- 41_ctrl_commands.md section 2 and 42_sample_codec.md, CTRL_SAM_IN in 32-bit mode: the whole latch goes to the entry
at `sample_index`, which advances by 1; SCPLT is set, and FULL when the buffer is full; the reset pass with EN. The
spec's decisions: clearing EMPTY is D8 (log 12), the capacity check D5 (log 10), the flag `configured` D6 (log 11), the
interrupt latch by the IEN of the same value D13 (log 17), the latch kept D27 (log 33). The model's own: a `v` that does
not select the command (log 31). -/
def Obligations.IngestionIn32BitMode : Prop :=
  ∀ (v : Word) (s : State), s.configured = true → s.cfg.getLsbD 0 = false → s.sampleIndex + 1 ≤ nSamples s.cfg →
    exec (.ctrlSamIn v) s = .next { s with
      ctrl := BitVec.ofBool (v.getLsbD 1) ++ BitVec.ofBool true
      sampleBuffer := s.sampleBuffer.write s.sampleIndex s.datainLatch
      sampleIndex := s.sampleIndex + 1
      status := (if s.sampleIndex + 1 = nSamples s.cfg then s.status ||| 0x0A else s.status ||| 0x02) &&& 0x0F
      resultIndex := 0
      irqPending := s.irqPending || v.getLsbD 1
      response := .ok }

/-- The same in 16-bit mode: the low halfword to `sample_index`, the high one to the next entry, both zero-extended;
`sample_index` advances by 2. The spec's decisions: the order and the extension of the halves are D10 (log 14), clearing
EMPTY D8 (log 12), the capacity check D5 (log 10), the flag `configured` D6 (log 11), the interrupt latch by the IEN of
the same value D13 (log 17), the latch kept D27 (log 33). The model's own: a `v` that does not select the command (log
31). -/
def Obligations.IngestionIn16BitMode : Prop :=
  ∀ (v : Word) (s : State), s.configured = true → s.cfg.getLsbD 0 = true → s.sampleIndex + 2 ≤ nSamples s.cfg →
    exec (.ctrlSamIn v) s = .next { s with
      ctrl := BitVec.ofBool (v.getLsbD 1) ++ BitVec.ofBool true
      sampleBuffer := (s.sampleBuffer.write s.sampleIndex (BitVec.ofNat 32 (s.datainLatch.toNat % 65536))).write
        (s.sampleIndex + 1) (BitVec.ofNat 32 (s.datainLatch.toNat / 65536))
      sampleIndex := s.sampleIndex + 2
      status := (if s.sampleIndex + 2 = nSamples s.cfg then s.status ||| 0x0A else s.status ||| 0x02) &&& 0x0F
      resultIndex := 0
      irqPending := s.irqPending || v.getLsbD 1
      response := .ok }

/-- 41_ctrl_commands.md section 2, CTRL_SAM_OUT: the entry at `result_index`, all 32 bits in both modes, goes to the
output latch; `result_index` advances by 1; SCPLT, and EMPTY at `n_samples / 2`; the reset pass without EN. The spec's
decisions: clearing FULL is D8 (log 12), one entry a drain D11 (log 15), the capacity check D5 (log 10), the flag
`configured` D6 (log 11), the interrupt latch by the IEN of the same value D13 (log 17). The model's own: a `v` that does
not select the command (log 31). -/
def Obligations.DrainCopiesOneEntry : Prop :=
  ∀ (v : Word) (s : State), s.configured = true → s.resultIndex < nSamples s.cfg / 2 →
    exec (.ctrlSamOut v) s = .next { s with
      ctrl := BitVec.ofBool (v.getLsbD 1) ++ BitVec.ofBool false
      dataoutLatch := s.sampleBuffer.read s.resultIndex
      resultIndex := s.resultIndex + 1
      status := ((if s.resultIndex + 1 = nSamples s.cfg / 2 then s.status ||| 0x12 else s.status ||| 0x02) ||| 0x01) &&& 0x17
      sampleIndex := 0
      irqPending := s.irqPending || v.getLsbD 1
      response := .ok }

/-- 41_ctrl_commands.md section 2, CTRL_PRC: with the device configured it is accepted in every state (R95): the first
`n_samples` entries become the transform of themselves, PCPLT is set, the reset pass runs for the written EN. The spec's
decisions: clearing EMPTY or FULL in that pass is D8 (log 12), the flag `configured` D6 (log 11), the interrupt latch by
the IEN of the same value D13 (log 17). The model's own: a `v` that does not select the command (log 31). -/
def Obligations.ProcessTransformsTheBuffer : Prop :=
  ∀ (v : Word) (s : State), s.configured = true →
    exec (.ctrlPrc v) s = .next { s with
      ctrl := BitVec.ofBool (v.getLsbD 1) ++ BitVec.ofBool (v.getLsbD 0)
      sampleBuffer := s.sampleBuffer.writeMany 0 (transform (log2Samples s.cfg) (s.cfg.getLsbD 0)
        ((List.range (nSamples s.cfg)).map s.sampleBuffer.read))
      status := if v.getLsbD 0 then (s.status ||| 0x04) &&& 0x0F else (s.status ||| 0x05) &&& 0x17
      resultIndex := if v.getLsbD 0 then 0 else s.resultIndex
      sampleIndex := if v.getLsbD 0 then s.sampleIndex else 0
      irqPending := s.irqPending || v.getLsbD 1
      response := .ok }

/-- 41_ctrl_commands.md section 1: every write to CTRL, through whichever row it decodes to, has the effect of the
algorithm of that section on its value. In that algorithm the checks before the store, with nothing changed by a refused
write, are the spec's decisions D3 to D5 (log 10), the flag `configured` D6 (log 11), the sticky bits that the reset pass
clears D8 (log 12). -/
def Obligations.CtrlWritesFollowTheAlgorithm : Prop :=
  ∀ (v : Word) (s : State) (rest : List Op), s.pending = .write 0x04 4 v :: rest →
    step s = ctrlWriteAlgorithm v { s with pending := rest }

/-- 30_encoding.md R61: `en`, `ien`, `sam` and `prc` of a CTRL value are its bits 0 to 3, and no other bit is read: two
values that agree there have the same effect on every state. -/
def Obligations.OnlyFourBitsOfACtrlValueAreRead : Prop :=
  ∀ (v v' : Word) (s : State),
    (ctrlEn v = v.getLsbD 0 ∧ ctrlIen v = v.getLsbD 1 ∧ ctrlSam v = v.getLsbD 2 ∧ ctrlPrcBit v = v.getLsbD 3) ∧
    ((∀ b, b < 4 → v.getLsbD b = v'.getLsbD b) → answer (.write 0x04 4 v) s = answer (.write 0x04 4 v') s)

/-- 41_ctrl_commands.md R94: with SAM and PRC in one value the write is the SAM command of its EN bit; the PRC request
is dropped: the write does what the same value without PRC does, refused or not, PCPLT is not set, and the buffer is not
transformed. That the write does not clear PCPLT either is the spec's decision D26 (log 34). -/
def Obligations.SamWinsOverPrc : Prop :=
  ∀ (v : Word) (s t : State), v.getLsbD 2 = true → v.getLsbD 3 = true →
    decode (.write 0x04 4 v) = .instr (if v.getLsbD 0 then .ctrlSamIn v else .ctrlSamOut v) ∧
    answer (.write 0x04 4 v) s = answer (.write 0x04 4 (v &&& 0xFFFFFFF7)) s ∧
    (answer (.write 0x04 4 v) s = .next t → t.pcplt = s.pcplt ∧
      ∀ a, ¬ (v.getLsbD 0 = true ∧ s.sampleIndex ≤ a ∧ a < s.sampleIndex + unitSize s.cfg) →
        t.sampleBuffer.read a = s.sampleBuffer.read a)

/-- 70_reset_and_hazards.md section 1 (R165): `WR CTRL, 0` is the soft reset, accepted in every state: it is `CTRL_SET`
with EN and IEN 0, `sample_index` becomes 0, READY is set, FULL cleared, however many samples had been ingested. Clearing
FULL is the spec's decision D8 (log 12). -/
def Obligations.SoftResetFromAnyState : Prop :=
  ∀ s : State, decode (.write 0x04 4 0) = .instr (.ctrlSet 0) ∧
    ∃ t, exec (.ctrlSet 0) s = .next t ∧ t.response = .ok ∧ t.en = false ∧ t.ien = false ∧ t.sampleIndex = 0 ∧
      t.ready = true ∧ t.full = false

/-- 70_reset_and_hazards.md section 1: `WR CTRL, 1` then `WR CTRL, 0` returns both cursors to 0 and clears FULL and
EMPTY from any state, and a STATUS read after it clears the edge bits and `irq`; cfg, configured, the latches and the
buffer stay. Clearing FULL and EMPTY is the spec's decision D8 (log 12); that READY too is clear after the STATUS read is
log 9 (conflict C1). -/
def Obligations.TwoCtrlWritesAndAStatusReadRecover : Prop :=
  ∀ s : State, ∃ t u w, exec (.ctrlSet 1) s = .next t ∧ exec (.ctrlSet 0) t = .next u ∧ exec .rdStatus u = .next w ∧
    w.sampleIndex = 0 ∧ w.resultIndex = 0 ∧ w.status = 0 ∧ w.irqPending = false ∧ w.ctrl = 0 ∧ w.cfg = s.cfg ∧
    w.configured = s.configured ∧ w.datainLatch = s.datainLatch ∧ w.dataoutLatch = s.dataoutLatch ∧
    w.sampleBuffer = s.sampleBuffer

/-! ### Errors -/

/-- 60_exceptions.md section 1, NotConfigured: a SAM or PRC command of an unconfigured device is refused with nothing
changed (decision D6 for the condition, D3 for nothing changed: log 10, log 11). -/
def Obligations.TriggersOfAnUnconfiguredDeviceAreRefused : Prop :=
  ∀ (v : Word) (s : State), s.configured = false →
    exec (.ctrlSamIn v) s = .next { s with response := .err .notConfigured } ∧
    exec (.ctrlSamOut v) s = .next { s with response := .err .notConfigured } ∧
    exec (.ctrlPrc v) s = .next { s with response := .err .notConfigured }

/-- 60_exceptions.md section 1, OverCapacity: an ingestion that needs an entry at or beyond `n_samples`, and a drain at
or beyond `n_samples / 2`, are refused with nothing changed (decisions D3 to D5: log 10). -/
def Obligations.OverCapacityIsRefused : Prop :=
  ∀ (v : Word) (s : State), s.configured = true →
    (nSamples s.cfg < s.sampleIndex + (if s.cfg.getLsbD 0 then 2 else 1) →
      exec (.ctrlSamIn v) s = .next { s with response := .err .overCapacity }) ∧
    (nSamples s.cfg / 2 ≤ s.resultIndex → exec (.ctrlSamOut v) s = .next { s with response := .err .overCapacity })

/-- 60_exceptions.md section 1 (decision D3, log 10): an operation answered with an error leaves every element of the
device as it was. -/
def Obligations.AnErrorResponseChangesNothing : Prop :=
  ∀ (s t : State) (op : Op) (rest : List Op) (k : ErrKind), s.pending = op :: rest → step s = .next t →
    t.response = .err k → t = { s with pending := rest, response := .err k }

/-- 60_exceptions.md section 1: which CTRL writes are refused, and with which kind: `NotConfigured` before
`OverCapacity`. The spec's decisions: the flag `configured` as the condition of `NotConfigured` is D6 (log 11), the order
and the comparisons are D4 and D5 (log 10). -/
def Obligations.WhichCtrlWritesAreRefused : Prop :=
  ∀ (v : Word) (s t : State), answer (.write 0x04 4 v) s = .next t →
    (t.response = .err .notConfigured ↔ (v.getLsbD 2 = true ∨ v.getLsbD 3 = true) ∧ s.configured = false) ∧
    (t.response = .err .overCapacity ↔ v.getLsbD 2 = true ∧ s.configured = true ∧
      (v.getLsbD 0 = true ∧ nSamples s.cfg < s.sampleIndex + unitSize s.cfg ∨
        v.getLsbD 0 = false ∧ nSamples s.cfg / 2 ≤ s.resultIndex)) ∧
    (t.response = .err .notConfigured ∨ t.response = .err .overCapacity ∨ t.response = .ok)

/-- 60_exceptions.md R147: `UnsupportedSampleCount` is never raised: every selector gives a legal length, the bits above
bit 3 take no part in it, and WR_CFG0 always answers `OK`. -/
def Obligations.UnsupportedSampleCountIsNeverRaised : Prop :=
  (∀ (s t : State) (op : Op) (rest : List Op), s.pending = op :: rest → step s = .next t →
    t.response ≠ .err .unsupportedSampleCount) ∧
  (∀ v : Word, nSamples v ∈ [16, 32, 64, 128, 256, 512, 1024, 2048] ∧ nSamples v = nSamples (v &&& 0xE)) ∧
  (∀ (v : Word) (s : State), ∃ t, exec (.wrCfg0 v) s = .next t ∧ t.response = .ok)

/-! ### Status bits and the interrupt, over every step -/

/-- 10_state.md section 4 (R22): READY is set by reset and by every accepted CTRL write without EN, cleared by a STATUS
read and by nothing else; a CTRL write that triggers nothing raises no interrupt. That a STATUS read clears READY is log 9
(DEDUCED, conflict C1). -/
def Obligations.ReadyIsSetAndClearedOnlyAsStated : Prop :=
  ∀ (s t : State) (op : Op) (rest : List Op), s.pending = op :: rest → step s = .next t →
    (t.ready = true ↔
      op = .reset ∨ (∃ v, op = .write 0x04 4 v ∧ v.getLsbD 0 = false ∧ t.response = .ok) ∨
      (s.ready = true ∧ op ≠ .read 0x14 4)) ∧
    (∀ v, op = .write 0x04 4 v → v.getLsbD 2 = false → v.getLsbD 3 = false → t.irqPending = s.irqPending)

/-- 10_state.md section 4 (R23, R24): SCPLT is set by every accepted ingestion and drain, PCPLT by every accepted PRC
command; each is cleared by a STATUS read and by reset, by nothing else (the spec's decision D26, log 34); each is an
interrupt event, latched by the IEN of the same value (decision D13, log 17). -/
def Obligations.EdgeBitsAreSetAndClearedOnlyAsStated : Prop :=
  ∀ (s t : State) (op : Op) (rest : List Op), s.pending = op :: rest → step s = .next t →
    (t.scplt = true ↔
      (∃ v, op = .write 0x04 4 v ∧ v.getLsbD 2 = true ∧ t.response = .ok) ∨
      (s.scplt = true ∧ op ≠ .read 0x14 4 ∧ op ≠ .reset)) ∧
    (t.pcplt = true ↔
      (∃ v, op = .write 0x04 4 v ∧ v.getLsbD 2 = false ∧ v.getLsbD 3 = true ∧ t.response = .ok) ∨
      (s.pcplt = true ∧ op ≠ .read 0x14 4 ∧ op ≠ .reset)) ∧
    (∀ v, op = .write 0x04 4 v → v.getLsbD 1 = true → (v.getLsbD 2 = true ∨ v.getLsbD 3 = true) →
      t.response = .ok → t.irqPending = true)

/-- 10_state.md section 4 (decision D8, log 12): FULL is set by the ingestion that fills the buffer and cleared by an
accepted CTRL write without EN and by reset; EMPTY is set by the drain that reaches `n_samples / 2` and cleared by an
accepted CTRL write with EN and by reset; both survive everything else, STATUS reads among it. -/
def Obligations.StickyBitsAreSetAndClearedOnlyAsStated : Prop :=
  ∀ (s t : State) (op : Op) (rest : List Op), s.pending = op :: rest → step s = .next t →
    (t.full = true ↔
      (∃ v, op = .write 0x04 4 v ∧ v.getLsbD 2 = true ∧ v.getLsbD 0 = true ∧ t.response = .ok ∧
        s.sampleIndex + unitSize s.cfg = nSamples s.cfg) ∨
      (s.full = true ∧ op ≠ .reset ∧ ¬ ∃ v, op = .write 0x04 4 v ∧ v.getLsbD 0 = false ∧ t.response = .ok)) ∧
    (t.empty = true ↔
      (∃ v, op = .write 0x04 4 v ∧ v.getLsbD 2 = true ∧ v.getLsbD 0 = false ∧ t.response = .ok ∧
        s.resultIndex + 1 = nSamples s.cfg / 2) ∨
      (s.empty = true ∧ op ≠ .reset ∧ ¬ ∃ v, op = .write 0x04 4 v ∧ v.getLsbD 0 = true ∧ t.response = .ok))

/-- 60_exceptions.md section 2 (R151, R153, R155): a STATUS read and a hard reset deassert `irq`, nothing else does; it
rises only with an accepted CTRL write that triggers an event and carries IEN; between operations it stays. The latch, and
that the IEN of the same write sets it, are the spec's decision D13 (log 17); that the device waits between operations is
log 2. -/
def Obligations.InterruptRisesAndFallsOnlyAsStated : Prop :=
  (∀ (s t : State) (op : Op) (rest : List Op), s.pending = op :: rest → step s = .next t →
    (t.irq = true ↔
      (∃ v, op = .write 0x04 4 v ∧ (v.getLsbD 2 = true ∨ v.getLsbD 3 = true) ∧ v.getLsbD 1 = true ∧ t.response = .ok) ∨
      (s.irq = true ∧ op ≠ .read 0x14 4 ∧ op ≠ .reset))) ∧
  (∀ s t : State, s.pending = [] → step s = .next t → t.irq = s.irq)

/-- 41_ctrl_commands.md section 4 (R102): no step advances both cursors; `sample_index` advances only in a CTRL write that
carries SAM and EN, `result_index` only in one that carries SAM and not EN; EN is then as written, and the other cursor
is 0. -/
def Obligations.TheTwoCursorsNeverAdvanceTogether : Prop :=
  ∀ s t : State, step s = .next t →
    ¬ (s.sampleIndex < t.sampleIndex ∧ s.resultIndex < t.resultIndex) ∧
    (s.sampleIndex < t.sampleIndex →
      (∃ v, s.pending.head? = some (.write 0x04 4 v) ∧ v.getLsbD 2 = true ∧ v.getLsbD 0 = true) ∧
      t.en = true ∧ t.resultIndex = 0) ∧
    (s.resultIndex < t.resultIndex →
      (∃ v, s.pending.head? = some (.write 0x04 4 v) ∧ v.getLsbD 2 = true ∧ v.getLsbD 0 = false) ∧
      t.en = false ∧ t.sampleIndex = 0)

/-- 41_ctrl_commands.md section 4, the transition table (R100), row by row, from states that satisfy the invariant; where
a row of the table does not say it, SAM and PRC need a configured device (R87). The last clause is the table's "Every
accepted write also applies the reset pass". The spec's decisions: refused writes change nothing, D3 to D5 (log 10); the
flag `configured`, D6 (log 11); the sticky bits that the pass clears, D8 (log 12). The model's own: a `v` that does not
select the command (log 31). -/
def Obligations.ProtocolTransitions : Prop :=
  ∀ (s t : State) (v : Word), s.Inv →
    (exec (.ctrlSet v) s = .next t → v.getLsbD 0 = true → s.en = false → t.isIngesting = true ∧ t.sampleIndex = 0 ∧
      t.empty = false) ∧
    (exec (.ctrlSamIn v) s = .next t → s.en = false → s.configured = true → t.isIngesting = true ∧
      t.sampleIndex = unitSize s.cfg ∧ t.scplt = true) ∧
    (exec (.ctrlSamIn v) s = .next t → s.isIngesting = true → s.configured = true →
      (s.sampleIndex + unitSize s.cfg < nSamples s.cfg → t.isIngesting = true ∧ t.scplt = true) ∧
      (s.sampleIndex + unitSize s.cfg = nSamples s.cfg → t.isReadyToProcess = true ∧ t.scplt = true ∧ t.full = true)) ∧
    (exec (.ctrlSamIn v) s = .next t → s.isReadyToProcess = true → t = { s with response := .err .overCapacity }) ∧
    (exec (.ctrlPrc v) s = .next t → s.configured = true → t.pcplt = true ∧ t.en = v.getLsbD 0 ∧
      (v.getLsbD 0 = true → s.en = true → t.sampleIndex = s.sampleIndex ∧ t.resultIndex = s.resultIndex ∧
        t.isIngesting = s.isIngesting ∧ t.isReadyToProcess = s.isReadyToProcess) ∧
      (v.getLsbD 0 = true → s.en = false → t.isIngesting = true ∧ t.sampleIndex = 0 ∧ t.resultIndex = 0 ∧
        t.empty = false) ∧
      (v.getLsbD 0 = false → t.sampleIndex = 0 ∧ t.resultIndex = s.resultIndex ∧ t.ready = true ∧ t.full = false)) ∧
    (exec (.ctrlSet v) s = .next t → v.getLsbD 0 = false → s.en = true → t.isDraining = true ∧ t.resultIndex = 0 ∧
      t.isIdle = true ∧ t.ready = true ∧ t.full = false) ∧
    (exec (.ctrlSamOut v) s = .next t → s.en = true → s.configured = true → t.isDraining = true ∧ t.resultIndex = 1 ∧
      t.scplt = true ∧ t.ready = true ∧ t.full = false) ∧
    (exec (.ctrlSamOut v) s = .next t → s.isDraining = true → s.configured = true →
      (s.resultIndex + 1 < nSamples s.cfg / 2 → t.isDraining = true ∧ t.scplt = true ∧ t.ready = true) ∧
      (s.resultIndex + 1 = nSamples s.cfg / 2 → t.isDrained = true ∧ t.scplt = true ∧ t.empty = true ∧ t.ready = true)) ∧
    (exec (.ctrlSamOut v) s = .next t → s.isDrained = true → t = { s with response := .err .overCapacity }) ∧
    (exec (.ctrlSet v) s = .next t → v.getLsbD 0 = false → s.en = false → t.en = false ∧
      t.sampleIndex = s.sampleIndex ∧ t.resultIndex = s.resultIndex ∧ t.ready = true ∧ t.status = s.status ||| 0x01) ∧
    (exec (.ctrlSet v) s = .next t → v.getLsbD 0 = true → s.en = true → t.en = true ∧
      t.sampleIndex = s.sampleIndex ∧ t.resultIndex = s.resultIndex ∧ t.status = s.status) ∧
    (∀ i : Instr, isCtrlCommand i = true → exec i s = .next t → t.response = .ok →
      (t.en = true → t.resultIndex = 0 ∧ t.empty = false) ∧
      (t.en = false → t.sampleIndex = 0 ∧ t.ready = true ∧ t.full = false))

/-! ### Frames -/

/-- 10_state.md sections 2 to 6: each register changes only by the operations that its rule names: `id` and the queue by
no instruction, `cfg` and `configured` by WR_CFG0, the latches by WR_DATAIN and CTRL_SAM_OUT, `ctrl` and the cursors by
the CTRL commands, STATUS and the interrupt by these and RD_STATUS. That an ingestion leaves the DATAIN latch is the
spec's decision D27 (log 33), that WR_CFG0 leaves the cursors its decision D9 (log 13). -/
def Obligations.RegistersChangeOnlyByTheirWriters : Prop :=
  ∀ (i : Instr) (s t : State), exec i s = .next t →
    t.id = s.id ∧ t.pending = s.pending ∧ t.sampleBuffer.epoch = s.sampleBuffer.epoch ∧
    ((∀ v, i ≠ .wrCfg0 v) → t.cfg = s.cfg ∧ t.configured = s.configured) ∧
    ((∀ v, i ≠ .wrDatain v) → t.datainLatch = s.datainLatch) ∧
    ((∀ v, i ≠ .ctrlSamOut v) → t.dataoutLatch = s.dataoutLatch) ∧
    (isCtrlCommand i = false →
      t.ctrl = s.ctrl ∧ t.sampleIndex = s.sampleIndex ∧ t.resultIndex = s.resultIndex ∧
      (i ≠ .rdStatus → t.status = s.status ∧ t.irqPending = s.irqPending) ∧
      t.full = s.full ∧ t.empty = s.empty)

/-- 10_state.md section 5: an instruction changes no entry of the sample buffer but those it stores to: an ingestion the
unit at `sample_index`, a transform the entries below `n_samples`, every other row none. -/
def Obligations.BufferChangesOnlyWhereStored : Prop :=
  ∀ (i : Instr) (s t : State) (a : Nat), exec i s = .next t → storesEntry i s a = false →
    t.sampleBuffer.read a = s.sampleBuffer.read a

/-! ### The transform -/

/-- 43_transform_engine.md R135 and R140: the outputs go back to entries `0 .. N-1`, each a u32 whose bits 31:6 are 0;
entries at and beyond N are not touched; a second PRC transforms the output of the first; the transform itself changes
nothing else (the cursors, latches, `cfg`; `ctrl` and STATUS but for what the command around it writes). -/
def Obligations.TransformIsWrittenBackInPlace : Prop :=
  ∀ (v v' : Word) (s t u : State), s.configured = true → exec (.ctrlPrc v) s = .next t → exec (.ctrlPrc v') t = .next u →
    (∀ k, k < nSamples s.cfg →
      (transform (log2Samples s.cfg) (smode s.cfg) (s.sampleBuffer.firstEntries (nSamples s.cfg)))[k]? =
        some (t.sampleBuffer.read k) ∧ (t.sampleBuffer.read k).toNat < 64) ∧
    (∀ k, nSamples s.cfg ≤ k → t.sampleBuffer.read k = s.sampleBuffer.read k) ∧
    (∀ k, k < nSamples s.cfg →
      (transform (log2Samples s.cfg) (smode s.cfg)
        (transform (log2Samples s.cfg) (smode s.cfg) (s.sampleBuffer.firstEntries (nSamples s.cfg))))[k]? =
        some (u.sampleBuffer.read k)) ∧
    process s = event maskPCPLT { s with sampleBuffer := (process s).sampleBuffer }

/-- 43_transform_engine.md section 1 (R114): the result depends on N, SMODE and the entries below N alone: not on the
cursors, STATUS, the latches, the upper bits of CFG0, or the entries at and beyond N. -/
def Obligations.TransformReadsNothingElse : Prop :=
  ∀ (v v' : Word) (s s' t t' : State), s.configured = true → s'.configured = true →
    (∀ b, b < 4 → s.cfg.getLsbD b = s'.cfg.getLsbD b) →
    (∀ k, k < nSamples s.cfg → s.sampleBuffer.read k = s'.sampleBuffer.read k) →
    exec (.ctrlPrc v) s = .next t → exec (.ctrlPrc v') s' = .next t' →
    ∀ k, k < nSamples s.cfg → t.sampleBuffer.read k = t'.sampleBuffer.read k

/-- 43_transform_engine.md section 6 (R132, R133, R136): the outputs lie in `0 .. 2^(S+4)`; with all magnitudes equal
every output is `2^(S+3)`; else entry k is `((m[k] - lo) * 2^(S+4)) div (hi - lo)`, and both ends are reached
(truncation is decision D17). -/
def Obligations.OutputsLieInTheScaledRange : Prop :=
  ∀ (L : Nat) (s16 : Bool) (x : List Word),
    let m := magnitudes L x
    let y := transform L s16 x
    let full := if s16 then 32 else 16
    y.length = 2 ^ L ∧ (∀ w ∈ y, w.toNat ≤ full) ∧
    (minOf m = maxOf m → ∀ w ∈ y, w.toNat = full / 2) ∧
    (minOf m ≠ maxOf m →
      (∃ w ∈ y, w.toNat = 0) ∧ (∃ w ∈ y, w.toNat = full) ∧
      ∀ k, k < 2 ^ L → (y.getD k 0).toNat = (m.getD k 0 - minOf m) * full / (maxOf m - minOf m))

/-- 43_transform_engine.md R131: `lo` and `hi` are the least and the greatest of all N integer magnitudes. -/
def Obligations.ExtremesAreTakenOverAllMagnitudes : Prop :=
  ∀ (L : Nat) (x : List Word), (magnitudes L x).length = 2 ^ L ∧
    minOf (magnitudes L x) ∈ magnitudes L x ∧ maxOf (magnitudes L x) ∈ magnitudes L x ∧
    ∀ m ∈ magnitudes L x, minOf (magnitudes L x) ≤ m ∧ m ≤ maxOf (magnitudes L x)

/-- 43_transform_engine.md R119: bit `b` of `rev(i, L)` is bit `L - 1 - b` of `i`; it stays below `2^L`, is its own
inverse, and so is a permutation; with the rule's tables and examples. -/
def Obligations.BitReversalIsAnInvolution : Prop :=
  (∀ L i, i < 2 ^ L → bitRev L i < 2 ^ L ∧ bitRev L (bitRev L i) = i ∧
    (∀ b, b < L → (bitRev L i).testBit b = i.testBit (L - 1 - b)) ∧
    bitRev L i = ((List.range L).map fun b => ((i >>> b) &&& 1) <<< (L - 1 - b)).sum) ∧
  (∀ L j, j < 2 ^ L → ∃ i, i < 2 ^ L ∧ bitRev L i = j) ∧
  (List.range 16).map (bitRev 4) = [0, 8, 4, 12, 2, 10, 6, 14, 1, 9, 5, 13, 3, 11, 7, 15] ∧
  (List.range 32).map (bitRev 5) = [0, 16, 8, 24, 4, 20, 12, 28, 2, 18, 10, 26, 6, 22, 14, 30] ++
    [1, 17, 9, 25, 5, 21, 13, 29, 3, 19, 11, 27, 7, 23, 15, 31] ∧
  bitRev 11 1 = 1024 ∧ bitRev 11 3 = 1536 ∧ bitRev 11 2047 = 2047

/-- 43_transform_engine.md section 5 (R125, R126; the choice of pairs and stride is decision D25): in the pass for
`stage = 2^t` every index belongs to exactly one pair `(i, i + stage)` with `i & stage = 0`, and the pair's twiddle
index is `j * a` for `j = i mod stage`, below `N/2`. -/
def Obligations.EveryIndexIsInExactlyOnePair : Prop :=
  ∀ L t : Nat, t < L →
    (∀ j, j < 2 ^ L → ∃ i, (i < 2 ^ L ∧ i &&& 2 ^ t = 0 ∧ (j = i ∨ j = i + 2 ^ t)) ∧
      ∀ i', i' < 2 ^ L → i' &&& 2 ^ t = 0 → (j = i' ∨ j = i' + 2 ^ t) → i' = i) ∧
    (∀ i, i < 2 ^ L → i &&& 2 ^ t = 0 → i + 2 ^ t < 2 ^ L) ∧
    (∀ i, i < 2 ^ L → twiddleIndex (2 ^ L) (2 ^ t) i = (i % 2 ^ t) * 2 ^ (L - 1 - t) ∧
      twiddleIndex (2 ^ L) (2 ^ t) i < 2 ^ (L - 1))

/-- 43_transform_engine.md section 5 (R127, R128): one pass, run pair by pair in place, gives each index the butterfly
of the values BEFORE the pass: the order of the pairs does not matter. The choice of the pairs and of the twiddle index is
the spec's decision D25 (log 22). -/
def Obligations.APassIsAllButterfliesAtOnce : Prop :=
  ∀ (w d : List Cplx) (L t j : Nat), t < L → d.length = 2 ^ L → j < 2 ^ L →
    let z := fun i => d.getD i Cplx.zero
    let prod := fun i => twiddleMul (w.getD (twiddleIndex (2 ^ L) (2 ^ t) i) Cplx.zero) (z (i + 2 ^ t))
    (pass w (2 ^ L) (2 ^ t) d).getD j Cplx.zero =
      if j &&& 2 ^ t = 0 then ⟨fadd (z j).re (prod j).re, fadd (z j).im (prod j).im⟩
      else ⟨fsub (z (j - 2 ^ t)).re (prod (j - 2 ^ t)).re, fsub (z (j - 2 ^ t)).im (prod (j - 2 ^ t)).im⟩

/-! ### The numerics -/

/-- 43_transform_engine.md section 3 (R121): every operation answers a binary64 value in its one form. -/
def Obligations.OperationsAnswerBinary64Values : Prop :=
  ∀ x y : F64, x.canonical = true → y.canonical = true →
    (fadd x y).canonical = true ∧ (fsub x y).canonical = true ∧ (fmul x y).canonical = true ∧
    (fdiv x y).canonical = true ∧ (fsqrt x).canonical = true ∧ ∀ z : Int, (i2f z).canonical = true

/-- 43_transform_engine.md section 3 (R121): `i2f` is exact below `2^53` in magnitude, `f2i` undoes it, and sums,
differences and products of such integers that stay below `2^53` are exact. -/
def Obligations.SmallIntegerArithmeticIsExact : Prop :=
  ∀ a b : Int, a.natAbs < 2 ^ 53 → b.natAbs < 2 ^ 53 →
    (i2f a).toRat = (a : ℚ) ∧ f2i (i2f a) = a ∧
    ((a + b).natAbs < 2 ^ 53 → fadd (i2f a) (i2f b) = i2f (a + b)) ∧
    ((a - b).natAbs < 2 ^ 53 → fsub (i2f a) (i2f b) = i2f (a - b)) ∧
    ((a * b).natAbs < 2 ^ 53 → f2i (fmul (i2f a) (i2f b)) = a * b)

/-- 43_transform_engine.md section 3 (R121): sums, differences and products of finite values are rounded once, to
nearest, ties to even. The numerics are the spec's decision D14 (log 18). -/
def Obligations.SumsAndProductsAreCorrectlyRounded : Prop :=
  ∀ x y : F64, x.isFinite = true → y.isFinite = true →
    (|x.toRat + y.toRat| < overflowBound → IsNearestEven (x.toRat + y.toRat) (fadd x y)) ∧
    (|x.toRat - y.toRat| < overflowBound → IsNearestEven (x.toRat - y.toRat) (fsub x y)) ∧
    (|x.toRat * y.toRat| < overflowBound → IsNearestEven (x.toRat * y.toRat) (fmul x y))

/-- 43_transform_engine.md section 3 (R121): quotients of finite values are rounded once, to nearest, ties to even.
The numerics are the spec's decision D14 (log 18). -/
def Obligations.QuotientsAreCorrectlyRounded : Prop :=
  ∀ x y : F64, x.isFinite = true → y.isFinite = true → x.canonical = true → y.canonical = true → y.toRat ≠ 0 →
    |x.toRat / y.toRat| < overflowBound → IsNearestEven (x.toRat / y.toRat) (fdiv x y)

/-- 43_transform_engine.md section 3 (R121): the root of a finite value that is not negative is rounded once, to nearest:
no binary64 value lies nearer to the real root. The numerics are the spec's decision D14 (log 18). -/
def Obligations.SquareRootsAreCorrectlyRounded : Prop :=
  ∀ x y : F64, x.isFinite = true → x.canonical = true → 0 ≤ x.toRat → y.isFinite = true → y.canonical = true →
    (fsqrt x).isFinite = true ∧ (fsqrt x).canonical = true ∧
    |Real.sqrt (x.toRat : ℝ) - ((fsqrt x).toRat : ℝ)| ≤ |Real.sqrt (x.toRat : ℝ) - (y.toRat : ℝ)|

/-- 43_transform_engine.md section 6 (R134): the integer form of the rescale equals D0's expression evaluated in
binary64 and truncated, for the magnitudes below `2^43` that section 7 promises (Obligations.MagnitudesStayBelowTheBound
states that promise). The numerics are the spec's decision D14 (log 18), the truncation its decision D17 (log 21). -/
def Obligations.IntegerRescaleEqualsTheBinary64Form : Prop :=
  ∀ (s16 : Bool) (lo hi m : Nat), lo ≤ m → m ≤ hi → lo < hi → hi < 2 ^ 43 →
    f2i (fmul (fdiv (i2f (m - lo : Nat)) (i2f (hi - lo : Nat))) (i2f (fullScale s16 : Nat))) =
      ((rescaleOne s16 lo hi m : Nat) : Int)

/-- 43_transform_engine.md section 7 (R138): for every input no infinity and no NaN arises: the arrays after the last
pass and the magnitudes are finite (so the free value of log 19 is never used). The numerics are the spec's decision D14
(log 18). The bound `2^43` of R138 is Obligations.MagnitudesStayBelowTheBound. -/
def Obligations.NoExceptionalValueArises : Prop :=
  ∀ (L : Nat) (x : List Word), 4 ≤ L → L ≤ 11 →
    allFinite (passes (twiddles L) L (loadSamples L x)) = true ∧
    ∀ z ∈ passes (twiddles L) L (loadSamples L x), (magnitude z).isFinite = true

/-- 43_transform_engine.md section 6 (R132): the all-zero input is degenerate: every magnitude is 0 and every output is
the mid-scale constant. -/
def Obligations.AllZeroInputGivesMidScale : Prop :=
  ∀ (L : Nat) (s16 : Bool) (x : List Word), 4 ≤ L → L ≤ 11 → (∀ w ∈ x, w = 0) →
    (∀ m ∈ magnitudes L x, m = 0) ∧ ∀ w ∈ transform L s16 x, w = if s16 then 16 else 8

/-! ### Sessions -/

/-- 42_sample_codec.md R106, R107 and R112: from an empty ingestion, as many words as the buffer takes are all accepted;
in 32-bit mode entry k is word k, in 16-bit mode entries 2k and 2k+1 are its halves; FULL comes exactly with the last
word the buffer takes. The order of the halves is the spec's decision D10 (log 14); a `v` that does not select
CTRL_SAM_IN is the model's own (log 31). -/
def Obligations.IngestingAWholeSession : Prop :=
  ∀ (v : Word) (ds : List Word) (s : State), s.configured = true → s.sampleIndex = 0 → s.full = false →
    ds.length * unitSize s.cfg ≤ nSamples s.cfg →
    ∃ t, loadAll v ds s = .next t ∧ t.sampleIndex = ds.length * unitSize s.cfg ∧
      (t.full = true ↔ ds.length * unitSize s.cfg = nSamples s.cfg) ∧
      (∀ k d, ds[k]? = some d →
        if smode s.cfg then
          t.sampleBuffer.read (2 * k) = BitVec.ofNat 32 (d.toNat % 65536) ∧
          t.sampleBuffer.read (2 * k + 1) = BitVec.ofNat 32 (d.toNat / 65536)
        else t.sampleBuffer.read k = d)

/-- 42_sample_codec.md R109 and R112: from `result_index = 0`, up to `n_samples / 2` drains are all accepted in both
modes; they bring the entries 0, 1, 2, ... in order into the output latch, EMPTY comes exactly with drain
`n_samples / 2`, and one drain more is refused. One entry a drain is the spec's decision D11 (log 15); a `v` that does not
select CTRL_SAM_OUT is the model's own (log 31). -/
def Obligations.DrainingAWholeSession : Prop :=
  ∀ (v : Word) (k : Nat) (s : State), s.configured = true → s.resultIndex = 0 → s.empty = false →
    (k ≤ nSamples s.cfg / 2 →
      ∃ t, drainAll v k s = some ((List.range k).map s.sampleBuffer.read, t) ∧ t.resultIndex = k ∧
        (t.empty = true ↔ k = nSamples s.cfg / 2)) ∧
    (nSamples s.cfg / 2 < k → drainAll v k s = none)

/-! ### The range of the magnitudes -/

/-- 43_transform_engine.md section 7 (R138): for every input every magnitude, before and after its truncation, is below
`2^43`, so the numerator of the rescale is below `2^48`: what the integer form of the rescale rests on. The numerics are
the spec's decision D14 (log 18), the truncation its decision D16 (log 21). -/
def Obligations.MagnitudesStayBelowTheBound : Prop :=
  ∀ (L : Nat) (s16 : Bool) (x : List Word), 4 ≤ L → L ≤ 11 →
    (∀ z ∈ passes (twiddles L) L (loadSamples L x), (magnitude z).toRat < 2 ^ 43 ∧ intMagnitude z < 2 ^ 43) ∧
    ∀ m ∈ magnitudes L x, m < 2 ^ 43 ∧ (m - minOf (magnitudes L x)) * fullScale s16 < 2 ^ 48
end

