-- ==== Sys2Proof/Laws/Binary64.lean ====
section
/-! SUPPORT. Rounding to binary64 said once: what `roundShift`, `roundExp`, `packFin` and `roundF64` answer, for an exact
argument and for one cut off below its rounding bit (43_transform_engine.md R121). -/

namespace Sys2Proof.Machine

/-! ### Integers -/

/-- `roundShift m d` is within half of `m / 2^d`, and even at a tie. -/
theorem roundShift_spec (m d : Nat) :
    2 * m ≤ 2 * (roundShift m d * 2 ^ d) + 2 ^ d ∧ 2 * (roundShift m d * 2 ^ d) ≤ 2 * m + 2 ^ d ∧
    (2 * m = 2 * (roundShift m d * 2 ^ d) + 2 ^ d ∨ 2 * (roundShift m d * 2 ^ d) = 2 * m + 2 ^ d →
      roundShift m d % 2 = 0) := by
  have h := Nat.div_add_mod m (2 ^ d)
  have hlt := Nat.mod_lt m (Nat.two_pow_pos d)
  unfold roundShift
  generalize hq : m / 2 ^ d = q at *
  generalize hr : m % 2 ^ d = r at *
  generalize 2 ^ d = p at *
  simp only [Bool.or_eq_true, decide_eq_true_eq, Bool.and_eq_true, beq_iff_eq]
  have hc : p * q = q * p := Nat.mul_comm p q
  have hs : (q + 1) * p = q * p + p := Nat.succ_mul q p
  split
  · rw [hs]; omega
  · omega

/-- The binary length of a positive number. -/
theorem log2_bounds {m : Nat} (h : m ≠ 0) : 2 ^ Nat.log2 m ≤ m ∧ m < 2 ^ (Nat.log2 m + 1) :=
  ⟨Nat.log2_self_le h, Nat.lt_log2_self⟩

theorem roundExp_spec (m : Nat) (e : Int) :
    minExp ≤ roundExp m e ∧ e + (Nat.log2 m : Int) + 1 ≤ roundExp m e + 53 ∧
    (roundExp m e = minExp ∨ roundExp m e + 53 = e + (Nat.log2 m : Int) + 1) := by
  unfold roundExp
  omega

/-- The root by digits: from a root short of less than `2^k`, the integer root. -/
theorem isqrtFrom_spec (n k r : Nat) (hr : r * r ≤ n) (hn : n < (r + 2 ^ k) * (r + 2 ^ k)) :
    isqrtFrom n k r * isqrtFrom n k r ≤ n ∧ n < (isqrtFrom n k r + 1) * (isqrtFrom n k r + 1) := by
  induction k generalizing r with
  | zero => exact ⟨hr, hn⟩
  | succ k ih =>
    unfold isqrtFrom
    have h2 : r + 2 ^ (k + 1) = r + 2 ^ k + 2 ^ k := by rw [Nat.pow_succ]; omega
    split
    · next h => exact ih _ h (by rw [← h2]; exact hn)
    · next h => exact ih _ hr (by omega)

/-! ### Values -/

/-- The real value of a finite number. -/
theorem toRat_cast (s : Bool) (m : Nat) (e : Int) :
    (((F64.fin s m e).toRat : ℚ) : ℝ) = (if s then -1 else 1) * ((m : ℝ) * (2 : ℝ) ^ e) := by
  cases s <;> simp [F64.toRat]

theorem two_zpow_pos (e : Int) : (0 : ℝ) < (2 : ℝ) ^ e := zpow_pos (by norm_num) e

theorem two_zpow_mono {a b : Int} (h : a ≤ b) : (2 : ℝ) ^ a ≤ (2 : ℝ) ^ b := zpow_le_zpow_right₀ (by norm_num) h

/-- Splitting off a natural power. -/
theorem two_zpow_split {a b : Int} (h : a ≤ b) : (2 : ℝ) ^ b = 2 ^ (b - a).toNat * (2 : ℝ) ^ a := by
  have : b = ((b - a).toNat : Int) + a := by omega
  conv_lhs => rw [this]
  rw [zpow_add₀ (by norm_num), zpow_natCast]

/-- A magnitude of the format. -/
def IsMagnitude (y : ℝ) : Prop :=
  ∃ (n : Nat) (e : Int), (F64.fin false n e).canonical = true ∧ |y| = (n : ℝ) * (2 : ℝ) ^ e

theorem canonical_fin {s : Bool} {m : Nat} {e : Int} :
    (F64.fin s m e).canonical = true ↔ m < 2 ^ 53 ∧ minExp ≤ e ∧ e ≤ maxExp ∧ (2 ^ 52 ≤ m ∨ e = minExp) := by
  simp [F64.canonical, and_assoc]

/-- Every finite value in its one form is a magnitude with a sign. -/
theorem isMagnitude_toRat {y : F64} (hf : y.isFinite = true) (hc : y.canonical = true) : IsMagnitude ((y.toRat : ℚ) : ℝ) := by
  cases y with
  | fin s n e =>
    refine ⟨n, e, by rw [canonical_fin] at hc ⊢; exact hc, ?_⟩
    have : (0 : ℝ) ≤ (n : ℝ) * (2 : ℝ) ^ e := by have := two_zpow_pos e; positivity
    rw [toRat_cast]
    cases s <;> simp [abs_of_nonneg this, -Nat.cast_pow]
  | inf s => simp [F64.isFinite] at hf
  | nan => simp [F64.isFinite] at hf

/-- Below the grid of `2^t`, a magnitude lies under `2^52 * 2^t`; else it is a multiple of `2^t`. -/
theorem magnitude_grid {y : ℝ} (hy : IsMagnitude y) (t : Int) :
    (minExp < t ∧ |y| < 2 ^ 52 * (2 : ℝ) ^ t) ∨ ∃ z : Int, y = z * (2 : ℝ) ^ t := by
  obtain ⟨n, e, hc, hv⟩ := hy
  obtain ⟨hn, he, -, -⟩ := canonical_fin.1 hc
  by_cases h : t ≤ e
  · right
    have hs := two_zpow_split h
    rcases abs_choice y with h' | h'
    · exact ⟨(n * 2 ^ (e - t).toNat : Nat), by rw [← h', hv, hs]; push_cast; ring⟩
    · refine ⟨-(n * 2 ^ (e - t).toNat : Nat), ?_⟩
      have : y = -|y| := by rw [h']; ring
      rw [this, hv, hs]; push_cast; ring
  · left
    refine ⟨by omega, ?_⟩
    rw [hv]
    have h1 : (2 : ℝ) ^ (e + 1) ≤ (2 : ℝ) ^ t := two_zpow_mono (by omega)
    rw [zpow_add_one₀ (by norm_num)] at h1
    have h2 : (n : ℝ) < 2 ^ 53 := by exact_mod_cast hn
    have := two_zpow_pos e
    nlinarith

/-! ### Rounding -/

/-- A significand and an exponent that stand for the real `R`: exactly, or cut off below the rounding bit with an odd
last digit. -/
def Stands (R : ℝ) (m : Nat) (e : Int) : Prop :=
  R = m * (2 : ℝ) ^ e ∨ (m % 2 = 1 ∧ |R - m * (2 : ℝ) ^ e| < (2 : ℝ) ^ e ∧ e + 2 ≤ roundExp m e)

/-- What rounding does to a real number, in units of the last place. -/
theorem round_core {R : ℝ} {m : Nat} {e : Int} (hm : m ≠ 0) (h : Stands R m e) (neg : Bool) :
    ∃ q : Nat, roundF64 neg m e = packFin neg q (roundExp m e) ∧
      |R - q * (2 : ℝ) ^ roundExp m e| ≤ (2 : ℝ) ^ roundExp m e / 2 ∧
      (|R - q * (2 : ℝ) ^ roundExp m e| = (2 : ℝ) ^ roundExp m e / 2 → q % 2 = 0) ∧
      R < 2 ^ 53 * (2 : ℝ) ^ roundExp m e ∧
      (roundExp m e = minExp ∨ 2 ^ 52 * (2 : ℝ) ^ roundExp m e ≤ R) := by
  obtain ⟨hb1, hb2⟩ := log2_bounds hm
  obtain ⟨ht0, ht1, ht2⟩ := roundExp_spec m e
  generalize ht : roundExp m e = t at *
  generalize hl : Nat.log2 m = l at *
  have hu := two_zpow_pos t
  have hv := two_zpow_pos e
  have hlow : t = minExp ∨ 2 ^ 52 * (2 : ℝ) ^ t = 2 ^ l * (2 : ℝ) ^ e := by
    refine ht2.imp id fun h => ?_
    have : (52 : Int) + t = (l : Int) + e := by omega
    rw [← zpow_natCast (2 : ℝ) 52, ← zpow_natCast (2 : ℝ) l, ← zpow_add₀ (by norm_num), ← zpow_add₀ (by norm_num)]
    exact_mod_cast congrArg _ this
  have hhigh : 2 ^ (l + 1) * (2 : ℝ) ^ e ≤ 2 ^ 53 * (2 : ℝ) ^ t := by
    rw [← zpow_natCast (2 : ℝ) 53, ← zpow_natCast (2 : ℝ) (l + 1), ← zpow_add₀ (by norm_num), ← zpow_add₀ (by norm_num)]
    exact two_zpow_mono (by push_cast; omega)
  have hb1' : (2 : ℝ) ^ l ≤ m := by exact_mod_cast hb1
  have hb2' : (m : ℝ) + 1 ≤ 2 ^ (l + 1) := by exact_mod_cast hb2
  by_cases hte : t ≤ e
  · have hR : R = m * (2 : ℝ) ^ e := h.resolve_right fun h => by rw [ht] at h; omega
    refine ⟨m * 2 ^ (e - t).toNat, by simp [roundF64, hm, ht, hte], ?_, ?_, ?_, ?_⟩
    · have : R - ((m * 2 ^ (e - t).toNat : Nat) : ℝ) * (2 : ℝ) ^ t = 0 := by
        rw [hR, two_zpow_split hte]; push_cast; ring
      rw [this, abs_zero]; positivity
    · intro h0
      exfalso
      have : R - ((m * 2 ^ (e - t).toNat : Nat) : ℝ) * (2 : ℝ) ^ t = 0 := by
        rw [hR, two_zpow_split hte]; push_cast; ring
      rw [this, abs_zero] at h0
      linarith
    · rw [hR]; nlinarith
    · exact hlow.imp id fun h => by rw [h, hR]; nlinarith
  · have hd : e ≤ t := by omega
    have hs := two_zpow_split hd
    generalize hdd : (t - e).toNat = d at *
    obtain ⟨r1, r2, r3⟩ := roundShift_spec m d
    refine ⟨roundShift m d, by simp [roundF64, hm, ht, hte, hdd], ?_⟩
    generalize roundShift m d = q at *
    have hp : (1 : ℝ) ≤ 2 ^ d := one_le_pow₀ (by norm_num)
    have r1' : 2 * (m : ℝ) ≤ 2 * (q * 2 ^ d) + 2 ^ d := by exact_mod_cast r1
    have r2' : 2 * ((q : ℝ) * 2 ^ d) ≤ 2 * m + 2 ^ d := by exact_mod_cast r2
    rcases h with hR | ⟨hodd, hR, hd2⟩
    · refine ⟨?_, ?_, by rw [hR]; nlinarith, hlow.imp id fun h => by rw [h, hR]; nlinarith⟩
      · rw [hR, hs, abs_le]
        constructor <;> nlinarith
      · intro h0
        apply r3
        rw [hR, hs] at h0
        have e1 : (m : ℝ) * 2 ^ e - q * (2 ^ d * 2 ^ e) = (m - q * 2 ^ d) * 2 ^ e := by ring
        rw [e1, abs_mul, abs_of_pos hv] at h0
        have h0 : |(m : ℝ) - q * 2 ^ d| = 2 ^ d / 2 := by
          have : |(m : ℝ) - q * 2 ^ d| * 2 ^ e = (2 ^ d / 2) * 2 ^ e := by rw [h0]; ring
          exact mul_right_cancel₀ hv.ne' this
        rcases abs_choice ((m : ℝ) - q * 2 ^ d) with h' | h'
        · left
          have : 2 * (m : ℝ) = 2 * (q * 2 ^ d) + 2 ^ d := by rw [h'] at h0; linarith
          exact_mod_cast this
        · right
          have : 2 * ((q : ℝ) * 2 ^ d) = 2 * m + 2 ^ d := by rw [h'] at h0; linarith
          exact_mod_cast this
    · rw [ht] at hd2
      have hdge : 2 ≤ d := by omega
      obtain ⟨c, rfl⟩ : ∃ c, d = c + 2 := ⟨d - 2, by omega⟩
      have r1n : 2 * (m + 1) ≤ 2 * (q * 2 ^ (c + 2)) + 2 ^ (c + 2) := by
        rw [Nat.pow_add] at r1 ⊢
        have : q * (2 ^ c * 2 ^ 2) = 4 * (q * 2 ^ c) := by ring
        rw [this] at r1 ⊢
        omega
      have r2n : 2 * (q * 2 ^ (c + 2)) + 2 ≤ 2 * m + 2 ^ (c + 2) := by
        rw [Nat.pow_add] at r2 ⊢
        have : q * (2 ^ c * 2 ^ 2) = 4 * (q * 2 ^ c) := by ring
        rw [this] at r2 ⊢
        omega
      have r1r : 2 * ((m : ℝ) + 1) ≤ 2 * (q * 2 ^ (c + 2)) + 2 ^ (c + 2) := by exact_mod_cast r1n
      have r2r : 2 * ((q : ℝ) * 2 ^ (c + 2)) + 2 ≤ 2 * m + 2 ^ (c + 2) := by exact_mod_cast r2n
      obtain ⟨hR1, hR2⟩ := abs_lt.1 hR
      have hstrict : |R - q * (2 : ℝ) ^ t| < (2 : ℝ) ^ t / 2 := by
        rw [hs, abs_lt]
        constructor <;> nlinarith
      refine ⟨hstrict.le, fun h0 => absurd h0 hstrict.ne, by nlinarith, ?_⟩
      rcases ht2 with h0 | h0
      · exact .inl h0
      refine hlow.imp id fun h => ?_
      have hml : 2 ^ l + 1 ≤ m := by
        rcases Nat.lt_or_ge (2 ^ l) m with h' | h'
        · exact h'
        · exfalso
          have hm1 : m = 2 ^ l := le_antisymm h' hb1
          cases l with
          | zero => omega
          | succ l => rw [hm1, Nat.pow_succ] at hodd; omega
      have hml' : (2 : ℝ) ^ l + 1 ≤ m := by exact_mod_cast hml
      rw [h]
      nlinarith

theorem Stands.pos {R : ℝ} {m : Nat} {e : Int} (hm : m ≠ 0) (h : Stands R m e) : 0 < R := by
  have hv := two_zpow_pos e
  have hm' : (1 : ℝ) ≤ m := by exact_mod_cast Nat.one_le_iff_ne_zero.2 hm
  rcases h with h | ⟨-, h, -⟩
  · rw [h]; positivity
  · have := (abs_lt.1 h).1
    nlinarith

/-- An integer is no nearer than one within a half. -/
theorem half_unit_nearest {R u : ℝ} {q z : Int} (hu : 0 < u) (h : |R - q * u| ≤ u / 2) :
    |R - q * u| ≤ |R - z * u| ∧ (|R - q * u| = |R - z * u| → z ≠ q → |R - q * u| = u / 2) := by
  by_cases hz : z = q
  · subst hz; exact ⟨le_refl _, fun _ h => absurd rfl h⟩
  have h1 : u ≤ |(q : ℝ) * u - z * u| := by
    have : (1 : ℝ) ≤ |(q : ℝ) - z| := by
      have : (1 : Int) ≤ |q - z| := Int.one_le_abs (sub_ne_zero.2 (Ne.symm hz))
      exact_mod_cast this
    rw [← sub_mul, abs_mul, abs_of_pos hu]
    nlinarith
  have h2 : |(q : ℝ) * u - z * u| ≤ |R - q * u| + |R - z * u| := by
    have := abs_sub_le ((q : ℝ) * u) R (z * u)
    rwa [abs_sub_comm ((q : ℝ) * u) R] at this
  exact ⟨by linarith, fun h3 _ => le_antisymm h (by linarith)⟩

/-- Rounding answers the nearest value of the format, the even one at a tie, when the argument is in range. -/
theorem roundF64_nearest {R : ℝ} {m : Nat} {e : Int} (hm : m ≠ 0) (h : Stands R m e) (hb : R < ((overflowBound : ℚ) : ℝ))
    (neg : Bool) :
    ∃ (n : Nat) (t : Int), roundF64 neg m e = .fin neg n t ∧ (F64.fin neg n t).canonical = true ∧
      ∀ y, IsMagnitude y → |R - n * (2 : ℝ) ^ t| ≤ |R - y| ∧
        (|R - n * (2 : ℝ) ^ t| = |R - y| → y ≠ n * (2 : ℝ) ^ t → n % 2 = 0) := by
  obtain ⟨q, hq, hhalf, htie, hhigh, hlow⟩ := round_core hm h neg
  have ht0 := (roundExp_spec m e).1
  generalize roundExp m e = t at *
  have hu := two_zpow_pos t
  have hpos := h.pos hm
  have hbound : ((overflowBound : ℚ) : ℝ) = (2 ^ 53 - 1 / 2) * (2 : ℝ) ^ maxExp := by
    simp only [overflowBound, maxExp]; push_cast
    rw [show (971 : Int) = ((970 : Nat) : Int) + 1 from rfl, zpow_add_one₀ (by norm_num), zpow_natCast]
    ring
  have hq53 : q ≤ 2 ^ 53 := by
    have : (q : ℝ) * 2 ^ t < (2 ^ 53 + 1) * 2 ^ t := by have := (abs_le.1 hhalf).1; linarith
    have : (q : ℝ) < 2 ^ 53 + 1 := lt_of_mul_lt_mul_right this hu.le
    have : q < 2 ^ 53 + 1 := by exact_mod_cast this
    omega
  have hq52 : t = minExp ∨ 2 ^ 52 ≤ q := by
    refine hlow.imp id fun h => ?_
    have : (2 ^ 52 - 1 : ℝ) * 2 ^ t < q * 2 ^ t := by have := (abs_le.1 hhalf).2; linarith
    have : (2 ^ 52 - 1 : ℝ) < q := lt_of_mul_lt_mul_right this hu.le
    have : (2 : ℝ) ^ 52 < q + 1 := by linarith
    have : 2 ^ 52 < q + 1 := by exact_mod_cast this
    omega
  have htmax : t ≤ maxExp := by
    by_contra hc
    rcases hlow with h0 | h0
    · rw [h0] at hc; simp [minExp, maxExp] at hc
    · have h1 : (2 : ℝ) ^ (maxExp + 1) ≤ (2 : ℝ) ^ t := two_zpow_mono (by omega)
      rw [zpow_add_one₀ (by norm_num)] at h1
      have := two_zpow_pos maxExp
      rw [hbound] at hb
      nlinarith
  have near : ∀ y, IsMagnitude y → |R - q * (2 : ℝ) ^ t| ≤ |R - y| ∧
      (|R - q * (2 : ℝ) ^ t| = |R - y| → y ≠ q * (2 : ℝ) ^ t → q % 2 = 0) := by
    intro y hy
    rcases magnitude_grid hy t with ⟨h1, h2⟩ | ⟨z, rfl⟩
    · have h3 : 2 ^ 52 * (2 : ℝ) ^ t ≤ R := hlow.resolve_left (by omega)
      have h4 := (half_unit_nearest (q := q) (z := 2 ^ 52) hu (by exact_mod_cast hhalf)).1
      rw [show ((2 ^ 52 : Int) : ℝ) = 2 ^ 52 by norm_cast, Int.cast_natCast,
        abs_of_nonneg (show 0 ≤ R - 2 ^ 52 * (2 : ℝ) ^ t by linarith)] at h4
      have h5 : R - |y| ≤ |R - y| := by
        have := abs_sub_abs_le_abs_sub R y
        rwa [abs_of_pos hpos] at this
      exact ⟨by linarith, fun h6 => by exfalso; linarith⟩
    · obtain ⟨h1, h2⟩ := half_unit_nearest (q := q) (z := z) hu (by exact_mod_cast hhalf)
      push_cast at h1 h2
      exact ⟨h1, fun h3 h4 => htie (h2 h3 fun h5 => h4 (by rw [h5]; push_cast; rfl))⟩
  unfold packFin at hq
  by_cases hq' : q = 2 ^ 53
  · rw [if_pos hq'] at hq
    have hval : (q : ℝ) * (2 : ℝ) ^ t = ((2 ^ 52 : Nat) : ℝ) * (2 : ℝ) ^ (t + 1) := by
      rw [hq', zpow_add_one₀ (by norm_num)]; push_cast; ring
    have ht1 : t + 1 ≤ maxExp := by
      by_contra hc
      have h1 : t = maxExp := by omega
      rw [h1, hq'] at hhalf
      have := (abs_le.1 hhalf).1
      push_cast at this
      rw [hbound] at hb
      have := two_zpow_pos maxExp
      nlinarith
    rw [if_neg (by omega)] at hq
    refine ⟨2 ^ 52, t + 1, hq, canonical_fin.2 ⟨by norm_num, by omega, ht1, .inl (le_refl _)⟩, fun y hy => ?_⟩
    rw [← hval]
    exact ⟨(near y hy).1, fun _ _ => by norm_num⟩
  · rw [if_neg hq', if_neg (by omega)] at hq
    exact ⟨q, t, hq, canonical_fin.2 ⟨by omega, ht0, htmax, hq52.symm⟩, near⟩

theorem IsMagnitude.neg {y : ℝ} (h : IsMagnitude y) : IsMagnitude (-y) := by
  obtain ⟨n, e, hc, hv⟩ := h
  exact ⟨n, e, hc, by rwa [abs_neg]⟩

/-- The same with a sign, for rational arguments. -/
theorem roundF64_isNearestEven {x : ℚ} {m : Nat} {e : Int} (neg : Bool) (hm : m ≠ 0)
    (h : Stands ((if neg then -x else x : ℚ) : ℝ) m e) (hb : |x| < overflowBound) : IsNearestEven x (roundF64 neg m e) := by
  have hR : (if neg then -x else x : ℚ) ≤ |x| := by
    cases neg
    · exact le_abs_self x
    · exact neg_le_abs x
  obtain ⟨n, t, hr, hc, hn⟩ := roundF64_nearest hm h (by exact_mod_cast lt_of_le_of_lt hR hb) neg
  rw [hr]
  refine ⟨rfl, hc, fun y hyf hyc => ?_⟩
  have hy := isMagnitude_toRat hyf hyc
  have hval := toRat_cast neg n t
  have key : ∀ z : ℝ, |((x : ℚ) : ℝ) - z| = |((if neg then -x else x : ℚ) : ℝ) - (if neg then -z else z)| := fun z => by
    cases neg
    · simp
    · simp only [if_true]; push_cast; rw [← abs_neg]; congr 1; ring
  have hy' : IsMagnitude (if neg then -((y.toRat : ℚ) : ℝ) else ((y.toRat : ℚ) : ℝ)) := by
    cases neg
    · exact hy
    · exact hy.neg
  obtain ⟨h1, h2⟩ := hn _ hy'
  have hv : (if neg then -(((F64.fin neg n t).toRat : ℚ) : ℝ) else (((F64.fin neg n t).toRat : ℚ) : ℝ)) = n * (2 : ℝ) ^ t := by
    rw [hval]; cases neg <;> simp
  have k1 := key ((F64.fin neg n t).toRat : ℚ)
  have k2 := key (y.toRat : ℚ)
  rw [hv] at k1
  rw [← k1, ← k2] at h1 h2
  refine ⟨by exact_mod_cast h1, fun h3 h4 => ?_⟩
  have := h2 (by exact_mod_cast h3) fun h5 => h4 ?_
  · simpa [F64.evenSignificand] using this
  · rw [← hv] at h5
    cases neg
    · have : ((y.toRat : ℚ) : ℝ) = (((F64.fin false n t).toRat : ℚ) : ℝ) := by simpa using h5
      exact_mod_cast this
    · have : ((y.toRat : ℚ) : ℝ) = (((F64.fin true n t).toRat : ℚ) : ℝ) := by simpa using h5
      exact_mod_cast this

/-- Rounding changes no value that the format has. -/
theorem roundF64_exact (neg : Bool) {m : Nat} {e : Int} (hm : m < 2 ^ 53) (he : minExp ≤ e) (he' : e ≤ maxExp) :
    (roundF64 neg m e).canonical = true ∧ (roundF64 neg m e).isFinite = true ∧
    ((roundF64 neg m e).toRat : ℚ) = (if neg then -1 else 1) * ((m : ℚ) * (2 : ℚ) ^ e) := by
  by_cases h0 : m = 0
  · subst h0
    cases neg <;> simp [roundF64, F64.zero, F64.canonical, F64.isFinite, F64.toRat, minExp, maxExp]
  have hlog : Nat.log2 m + 1 ≤ 53 := by
    have : 2 ^ Nat.log2 m < 2 ^ 53 := (log2_bounds h0).1.trans_lt hm
    have := (Nat.pow_lt_pow_iff_right (a := 2) (by norm_num)).1 this
    omega
  obtain ⟨ht0, ht1, ht2⟩ := roundExp_spec m e
  have hte : roundExp m e ≤ e := by omega
  have hnum : m * 2 ^ (e - roundExp m e).toNat < 2 ^ 53 := by
    have h1 : m < 2 ^ (Nat.log2 m + 1) := (log2_bounds h0).2
    have h2 : Nat.log2 m + 1 + (e - roundExp m e).toNat ≤ 53 := by omega
    calc m * 2 ^ (e - roundExp m e).toNat < 2 ^ (Nat.log2 m + 1) * 2 ^ (e - roundExp m e).toNat :=
          Nat.mul_lt_mul_of_pos_right h1 (Nat.two_pow_pos _)
      _ = 2 ^ (Nat.log2 m + 1 + (e - roundExp m e).toNat) := (Nat.pow_add _ _ _).symm
      _ ≤ 2 ^ 53 := Nat.pow_le_pow_right (by norm_num) h2
  have hform : roundF64 neg m e = .fin neg (m * 2 ^ (e - roundExp m e).toNat) (roundExp m e) := by
    have h3 : ¬ m * 2 ^ (e - roundExp m e).toNat = 2 ^ 53 := by omega
    have h4 : ¬ roundExp m e > maxExp := by omega
    simp only [roundF64, if_neg h0, if_pos hte, packFin, if_neg h3, if_neg h4]
  rw [hform]
  refine ⟨canonical_fin.2 ⟨hnum, ht0, by omega, ?_⟩, rfl, ?_⟩
  · rcases ht2 with h | h
    · exact .inr h
    · left
      have h5 : Nat.log2 m + (e - roundExp m e).toNat = 52 := by omega
      rw [← h5, Nat.pow_add]
      exact Nat.mul_le_mul_right _ (log2_bounds h0).1
  · have h6 : (2 : ℚ) ^ e = 2 ^ (e - roundExp m e).toNat * (2 : ℚ) ^ roundExp m e := by
      have : e = ((e - roundExp m e).toNat : Int) + roundExp m e := by omega
      conv_lhs => rw [this]
      rw [zpow_add₀ (by norm_num), zpow_natCast]
    rw [h6]
    cases neg <;> simp [F64.toRat] <;> ring

/-- Rounding answers a value of the format in its one form, whatever the argument. -/
theorem roundF64_canonical (neg : Bool) (m : Nat) (e : Int) : (roundF64 neg m e).canonical = true := by
  by_cases hm : m = 0
  · subst hm
    exact canonical_fin.2 ⟨by norm_num, le_refl _, by decide, .inr rfl⟩
  obtain ⟨q, hq, hhalf, -, hhigh, hlow⟩ := round_core hm (.inl rfl) neg
  have ht0 := (roundExp_spec m e).1
  generalize roundExp m e = t at *
  have hu := two_zpow_pos t
  have hq53 : q ≤ 2 ^ 53 := by
    have : (q : ℝ) * 2 ^ t < (2 ^ 53 + 1) * 2 ^ t := by have := (abs_le.1 hhalf).1; linarith
    have : (q : ℝ) < 2 ^ 53 + 1 := lt_of_mul_lt_mul_right this hu.le
    have : q < 2 ^ 53 + 1 := by exact_mod_cast this
    omega
  have hq52 : t = minExp ∨ 2 ^ 52 ≤ q := by
    refine hlow.imp id fun h => ?_
    have : (2 ^ 52 - 1 : ℝ) * 2 ^ t < q * 2 ^ t := by have := (abs_le.1 hhalf).2; linarith
    have : (2 ^ 52 - 1 : ℝ) < q := lt_of_mul_lt_mul_right this hu.le
    have : (2 : ℝ) ^ 52 < q + 1 := by linarith
    have : 2 ^ 52 < q + 1 := by exact_mod_cast this
    omega
  rw [hq, packFin]
  split
  · split
    · rfl
    · exact canonical_fin.2 ⟨by norm_num, by omega, by omega, .inl (le_refl _)⟩
  · split
    · rfl
    · exact canonical_fin.2 ⟨by omega, ht0, by omega, hq52.symm⟩

/-- One form for each value: equal magnitudes have equal significands and exponents. -/
theorem canonical_unique {s s' : Bool} {n n' : Nat} {e e' : Int} (h : (F64.fin s n e).canonical = true)
    (h' : (F64.fin s' n' e').canonical = true) (hv : (n : ℝ) * (2 : ℝ) ^ e = (n' : ℝ) * (2 : ℝ) ^ e') : n = n' ∧ e = e' := by
  wlog hle : e ≤ e' generalizing n n' e e' s s'
  · obtain ⟨a, b⟩ := this h' h hv.symm (by omega)
    exact ⟨a.symm, b.symm⟩
  obtain ⟨h1, h2, h3, h4⟩ := canonical_fin.1 h
  obtain ⟨h1', h2', h3', h4'⟩ := canonical_fin.1 h'
  rw [two_zpow_split hle, ← mul_assoc] at hv
  have hn : (n : ℝ) = n' * 2 ^ (e' - e).toNat := mul_right_cancel₀ (two_zpow_pos e).ne' hv
  have hn : n = n' * 2 ^ (e' - e).toNat := by exact_mod_cast hn
  rcases Nat.eq_zero_or_pos (e' - e).toNat with h0 | h0
  · rw [h0] at hn
    exact ⟨by simpa using hn, by omega⟩
  · exfalso
    obtain ⟨k, hk⟩ : ∃ k, (e' - e).toNat = k + 1 := ⟨(e' - e).toNat - 1, by omega⟩
    have h5 : 2 ^ 52 ≤ n' := h4'.resolve_right (by omega)
    have h6 : n' * 2 ≤ n := by
      rw [hn, hk, Nat.pow_succ]
      calc n' * 2 = n' * (1 * 2) := by omega
        _ ≤ n' * (2 ^ k * 2) := Nat.mul_le_mul_left _ (Nat.mul_le_mul_right _ (Nat.two_pow_pos k))
    omega

/-- A correctly rounded value lies within one unit in the last place of what it rounds, or within the least
positive value of the format. -/
theorem IsNearestEven.error {q : ℚ} {r : F64} (h : IsNearestEven q r) (hb : |q| < 2 ^ 1024) :
    |q - r.toRat| ≤ |q| * (2 : ℚ) ^ (-52 : ℤ) + (2 : ℚ) ^ minExp := by
  have hmin : (0 : ℚ) < (2 : ℚ) ^ minExp := by positivity
  rcases eq_or_ne q 0 with rfl | hq
  · have h0 := (h.2.2 (F64.zero false) rfl (by decide)).1
    have hz : (F64.zero false).toRat = 0 := by simp [F64.zero, F64.toRat]
    rw [hz, sub_self, abs_zero] at h0
    simpa using h0.trans hmin.le
  have hpos := abs_pos.2 hq
  have hlo : (2 : ℚ) ^ Int.log 2 |q| ≤ |q| := by exact_mod_cast Int.zpow_log_le_self (b := 2) one_lt_two hpos
  have hhi : |q| < (2 : ℚ) ^ (Int.log 2 |q| + 1) := by exact_mod_cast Int.lt_zpow_succ_log_self (b := 2) one_lt_two |q|
  generalize Int.log 2 |q| = l at hlo hhi
  have hl : l < 1024 := by
    have : (2 : ℚ) ^ l < 2 ^ (1024 : ℤ) := lt_of_le_of_lt hlo (by exact_mod_cast hb)
    exact (zpow_lt_zpow_iff_right₀ one_lt_two).1 this
  obtain ⟨e, he⟩ : ∃ e, e = max minExp (l - 52) := ⟨_, rfl⟩
  have he0 : minExp ≤ e := by omega
  have he1 : e ≤ maxExp := by simp only [minExp, maxExp] at *; omega
  have hu : (0 : ℚ) < (2 : ℚ) ^ e := by positivity
  have hfl := Nat.floor_le (a := |q| / (2 : ℚ) ^ e) (by positivity)
  have hfu := Nat.lt_floor_add_one (|q| / (2 : ℚ) ^ e)
  have hn53 : |q| / (2 : ℚ) ^ e < 2 ^ 53 := by
    rw [div_lt_iff₀ hu, ← zpow_natCast, ← zpow_add₀ two_ne_zero]
    exact hhi.trans_le (zpow_le_zpow_right₀ one_le_two (by push_cast; omega))
  generalize ⌊|q| / (2 : ℚ) ^ e⌋₊ = n at hfl hfu
  have hn : n < 2 ^ 53 := by exact_mod_cast hfl.trans_lt hn53
  obtain ⟨hc, hf, hv⟩ := roundF64_exact (decide (q < 0)) hn he0 he1
  have hnear := (h.2.2 _ hf hc).1
  rw [hv] at hnear
  have hd : |q - (if decide (q < 0) = true then -1 else 1) * (n * (2 : ℚ) ^ e)| ≤ (2 : ℚ) ^ e := by
    rw [le_div_iff₀ hu] at hfl
    rw [div_lt_iff₀ hu] at hfu
    rw [abs_le]
    by_cases hs : q < 0
    · rw [abs_of_neg hs] at hfl hfu
      simp only [hs, decide_true, if_true]
      constructor <;> linarith
    · rw [abs_of_nonneg (not_lt.1 hs)] at hfl hfu
      simp only [hs, decide_false, Bool.false_eq_true, if_false]
      constructor <;> linarith
  have hue : (2 : ℚ) ^ e ≤ |q| * (2 : ℚ) ^ (-52 : ℤ) + (2 : ℚ) ^ minExp := by
    rcases le_total minExp (l - 52) with hm | hm
    · rw [he, max_eq_right hm, show l - 52 = l + (-52) by ring, zpow_add₀ two_ne_zero]
      have := mul_le_mul_of_nonneg_right hlo (show (0 : ℚ) ≤ (2 : ℚ) ^ (-52 : ℤ) by positivity)
      linarith
    · rw [he, max_eq_left hm]
      have : (0 : ℚ) ≤ |q| * (2 : ℚ) ^ (-52 : ℤ) := by positivity
      linarith
  exact (hnear.trans hd).trans hue

end Sys2Proof.Machine
end

