-- ==== Sys2Proof/Laws/Decode.lean ====
section
/-! SUPPORT. The fields of an operation word, and what decoding can answer. -/

namespace Sys2Proof

/-- Every bit of a packed word. -/
theorem packWord_getLsbD (we : Bool) (off : BitVec 8) (v : Word) (i : Nat) :
    (packWord we off v).getLsbD i =
      if i < 32 then v.getLsbD i
      else if i - 32 < 8 then off.getLsbD (i - 32) else (BitVec.ofBool we).getLsbD (i - 32 - 8) := by
  have h : (packWord we off v).getLsbD i = ((BitVec.ofBool we ++ off) ++ v : BitVec (1 + 8 + 32)).getLsbD i := rfl
  rw [h, BitVec.getLsbD_append, BitVec.getLsbD_append]

/-- `w[40]` of a packed word. -/
theorem packWord_we (we : Bool) (off : BitVec 8) (v : Word) : (packWord we off v).getLsbD 40 = we := by
  rw [packWord_getLsbD]
  cases we <;> rfl

/-- `w[39:32]` of a packed word. -/
theorem packWord_off (we : Bool) (off : BitVec 8) (v : Word) : (packWord we off v).extractLsb' 32 8 = off := by
  refine BitVec.eq_of_getLsbD_eq fun i hi => ?_
  have h : ¬ 32 + i < 32 := by omega
  rw [BitVec.getLsbD_extractLsb', packWord_getLsbD, if_neg h, Nat.add_sub_cancel_left, if_pos hi]
  simp [hi]

/-- `w[31:0]` of a packed word. -/
theorem packWord_data (we : Bool) (off : BitVec 8) (v : Word) : (packWord we off v).extractLsb' 0 32 = v := by
  refine BitVec.eq_of_getLsbD_eq fun i hi => ?_
  rw [BitVec.getLsbD_extractLsb', packWord_getLsbD, Nat.zero_add, if_pos hi]
  simp [hi]

/-- A packed word is the 4-byte operation of its fields. -/
theorem opOfWord_packWord (we : Bool) (off : BitVec 8) (v : Word) :
    opOfWord (packWord we off v) = if we then .write off.toNat 4 v else .read off.toNat 4 := by
  rw [opOfWord, packWord_we, packWord_off, packWord_data]

/-- The word of an instruction is the access it stands for. -/
theorem opOfWord_encode (i : Instr) : opOfWord (encode i) = encodeOp i := by
  cases i <;> simp only [encode, opOfWord_packWord] <;> rfl

/-- A CTRL value selects a command whose data condition it meets (R64, R65). -/
theorem decodeCtrl_wellFormed (v : Word) : (decodeCtrl v).wellFormed = true := by
  unfold decodeCtrl ctrlSam ctrlEn ctrlPrcBit
  split
  · split <;> simp_all [Instr.wellFormed]
  · split <;> simp_all [Instr.wellFormed]

/-- Every CTRL command stands for a write of its value at offset 4. -/
theorem encodeOp_decodeCtrl (v : Word) : encodeOp (decodeCtrl v) = .write 0x04 4 v := by
  unfold decodeCtrl
  split
  · split <;> rfl
  · split <;> rfl

/-- What a read can decode to. -/
theorem decodeRead_cases (off : Nat) :
    (decodeRead off = .invalid .rdUnmapped ∧ mappedOffset off = false) ∨
    (mappedOffset off = true ∧ ∃ i, decodeRead off = .instr i ∧ i.wellFormed = true ∧ encodeOp i = .read off 4) := by
  unfold decodeRead mappedOffset
  split
  · next h => subst h; exact .inr ⟨rfl, _, rfl, rfl, rfl⟩
  split
  · next h => subst h; exact .inr ⟨rfl, _, rfl, rfl, rfl⟩
  split
  · next h => subst h; exact .inr ⟨rfl, _, rfl, rfl, rfl⟩
  split
  · next h => subst h; exact .inr ⟨rfl, _, rfl, rfl, rfl⟩
  split
  · next h => subst h; exact .inr ⟨rfl, _, rfl, rfl, rfl⟩
  split
  · next h => subst h; exact .inr ⟨rfl, _, rfl, rfl, rfl⟩
  · exact .inl ⟨rfl, by simp_all⟩

/-- What a write can decode to. -/
theorem decodeWrite_cases (off : Nat) (v : Word) :
    (decodeWrite off v = .invalid .wrUnmapped ∧ mappedOffset off = false) ∨
    (mappedOffset off = true ∧
      ∃ i, decodeWrite off v = .instr i ∧ i.wellFormed = true ∧ encodeOp i = .write off 4 v) := by
  unfold decodeWrite mappedOffset
  split
  · next h => subst h; exact .inr ⟨rfl, _, rfl, rfl, rfl⟩
  split
  · next h => subst h; exact .inr ⟨rfl, _, rfl, decodeCtrl_wellFormed v, encodeOp_decodeCtrl v⟩
  split
  · next h => subst h; exact .inr ⟨rfl, _, rfl, rfl, rfl⟩
  split
  · next h => subst h; exact .inr ⟨rfl, _, rfl, rfl, rfl⟩
  split
  · next h => subst h; exact .inr ⟨rfl, _, rfl, rfl, rfl⟩
  split
  · next h => subst h; exact .inr ⟨rfl, _, rfl, rfl, rfl⟩
  · exact .inl ⟨rfl, by simp_all⟩

end Sys2Proof
end

