-- ==== Sys2Proof/Laws/Memory.lean ====
section
/-! SUPPORT. The laws of the sample buffer: a read after a write, and the canonical form that every operation keeps. -/

namespace Sys2Proof.Machine

theorem lookup_insert_same (i : Nat) (v : Word) (cs : List (Nat × Word)) :
    lookupCell i (insertCell i v cs) = some v := by
  induction cs with
  | nil => simp [insertCell, lookupCell]
  | cons c rest ih =>
    obtain ⟨j, w⟩ := c
    simp only [insertCell]
    split
    · simp [lookupCell]
    · split
      · simp [lookupCell]
      · simp [lookupCell, *]

theorem lookup_insert_other {i k : Nat} (h : k ≠ i) (v : Word) (cs : List (Nat × Word)) :
    lookupCell k (insertCell i v cs) = lookupCell k cs := by
  induction cs with
  | nil => simp [insertCell, lookupCell, h]
  | cons c rest ih =>
    obtain ⟨j, w⟩ := c
    simp only [insertCell]
    split
    · simp [lookupCell, h]
    · split
      · next hij => subst hij; simp [lookupCell, h]
      · simp [lookupCell, ih]

@[simp] theorem Memory.write_epoch (b : Memory) (i : Nat) (v : Word) : (b.write i v).epoch = b.epoch := rfl

@[simp] theorem Memory.read_write_same (b : Memory) (i : Nat) (v : Word) : (b.write i v).read i = v := by
  simp [Memory.read, Memory.write, lookup_insert_same]

theorem Memory.read_write_other (b : Memory) {i k : Nat} (h : k ≠ i) (v : Word) :
    (b.write i v).read k = b.read k := by
  simp [Memory.read, Memory.write, Memory.unlisted, lookup_insert_other h]

theorem cellsWf_mono {lo lo' : Nat} (h : lo ≤ lo') {cs : List (Nat × Word)} (hw : cellsWf lo' cs = true) :
    cellsWf lo cs = true := by
  cases cs with
  | nil => rfl
  | cons c rest =>
    simp only [cellsWf, Bool.and_eq_true, decide_eq_true_eq] at hw ⊢
    exact ⟨⟨by omega, hw.1.2⟩, hw.2⟩

theorem cellsWf_insert {lo i : Nat} (hlo : lo ≤ i) (hi : i < Config.maxSamples) (v : Word)
    (cs : List (Nat × Word)) (hw : cellsWf lo cs = true) : cellsWf lo (insertCell i v cs) = true := by
  induction cs generalizing lo with
  | nil => simp [insertCell, cellsWf, hlo, hi]
  | cons c rest ih =>
    obtain ⟨j, w⟩ := c
    simp only [cellsWf, Bool.and_eq_true, decide_eq_true_eq] at hw
    obtain ⟨⟨hj, hj'⟩, hr⟩ := hw
    simp only [insertCell]
    split
    · next h => simp [cellsWf, hlo, hi, hj', hr, h]
    · split
      · next h => subst h; simp [cellsWf, hlo, hi, hr]
      · have : j + 1 ≤ i := by omega
        simp [cellsWf, hj, hj', ih this hr]

/-- Writing an entry inside the buffer keeps the canonical form. -/
theorem Memory.wf_write {b : Memory} {i : Nat} (hi : i < Config.maxSamples) (v : Word) (hw : b.wf = true) :
    (b.write i v).wf = true :=
  cellsWf_insert (Nat.zero_le i) hi v b.cells hw

@[simp] theorem Memory.wf_afterReset (b : Memory) : b.afterReset.wf = true := rfl

@[simp] theorem Memory.writeMany_epoch (vs : List Word) (b : Memory) (base : Nat) :
    (b.writeMany base vs).epoch = b.epoch := by
  induction vs generalizing b base with
  | nil => rfl
  | cons v vs ih => simp [Memory.writeMany, ih]

/-- Writing entries inside the buffer keeps the canonical form. -/
theorem Memory.wf_writeMany (vs : List Word) {b : Memory} {base : Nat} (h : base + vs.length ≤ Config.maxSamples)
    (hw : b.wf = true) : (b.writeMany base vs).wf = true := by
  induction vs generalizing b base with
  | nil => exact hw
  | cons v vs ih =>
    simp only [List.length_cons] at h
    exact ih (by omega) (Memory.wf_write (by omega) v hw)

/-- Entries outside the written range keep their value. -/
theorem Memory.read_writeMany_outside (vs : List Word) (b : Memory) {base k : Nat}
    (h : k < base ∨ base + vs.length ≤ k) : (b.writeMany base vs).read k = b.read k := by
  induction vs generalizing b base with
  | nil => rfl
  | cons v vs ih =>
    simp only [List.length_cons] at h
    rw [Memory.writeMany, ih _ (by omega), Memory.read_write_other _ (by omega)]

/-- Each entry of the written range holds its new value. -/
theorem Memory.read_writeMany_inside (vs : List Word) (b : Memory) (base k : Nat) (h : k < vs.length) :
    (b.writeMany base vs).read (base + k) = vs[k] := by
  induction vs generalizing b base k with
  | nil => simp at h
  | cons v vs ih =>
    cases k with
    | zero => rw [Memory.writeMany, Memory.read_writeMany_outside _ _ (by omega)]; simp
    | succ k =>
      have h' : k < vs.length := by simpa using h
      rw [Memory.writeMany, show base + (k + 1) = (base + 1) + k by omega, ih _ _ _ h']
      rfl

@[simp] theorem Memory.firstEntries_length (b : Memory) (n : Nat) : (b.firstEntries n).length = n := by
  simp [Memory.firstEntries]

/-- `firstEntries` depends on nothing but the entries below `n`. -/
theorem Memory.firstEntries_congr {a b : Memory} {n : Nat} (h : ∀ i, i < n → a.read i = b.read i) :
    a.firstEntries n = b.firstEntries n := by
  refine List.map_congr_left fun i hi => h i ?_
  simpa using hi

end Sys2Proof.Machine
end

