-- ==== Sys2Proof/Laws/Operands.lean ====
section
/-! SUPPORT. The operand forms and register formats in plain arithmetic. -/

namespace Sys2Proof.Machine

/-- A read of CTRL is its two bits, zero-extended (40_register_ops.md R71). -/
theorem ctrlReadValue_eq (c : BitVec 2) : ctrlReadValue c = BitVec.ofNat 32 c.toNat := by revert c; decide

/-- A read of STATUS is its five bits, zero-extended (30_encoding.md R59). -/
theorem statusReadValue_eq (st : BitVec 5) : statusReadValue st = BitVec.ofNat 32 st.toNat := by revert st; decide

/-- A second STATUS read finds nothing more to clear. -/
theorem statusAfterRead_idem (st : BitVec 5) : statusAfterRead (statusAfterRead st) = statusAfterRead st := by
  revert st; decide

theorem and_65535 (n : Nat) : n &&& 65535 = n % 65536 := Nat.and_two_pow_sub_one_eq_mod n 16

/-- The low half of a latch value (30_encoding.md R63). -/
theorem lowHalf_eq (d : Word) : lowHalf d = BitVec.ofNat 32 (d.toNat % 65536) := by
  apply BitVec.eq_of_toNat_eq
  rw [lowHalf, BitVec.toNat_and, BitVec.toNat_ofNat]
  show d.toNat &&& 65535 = _
  rw [and_65535]
  omega

/-- The high half of a latch value (30_encoding.md R63). -/
theorem highHalf_eq (d : Word) : highHalf d = BitVec.ofNat 32 (d.toNat / 65536) := by
  have := d.isLt
  apply BitVec.eq_of_toNat_eq
  rw [highHalf, BitVec.toNat_and, BitVec.toNat_ofNat, BitVec.toNat_ushiftRight, Nat.shiftRight_eq_div_pow]
  show d.toNat / 65536 &&& 65535 = _
  rw [and_65535]
  omega

/-- The selector is bits 3:1 of CFG0 (30_encoding.md R62). -/
theorem selector_eq (cfg : Word) : selector cfg = cfg.toNat / 2 % 8 := by
  have h : selector cfg = (cfg.toNat &&& 14) / 2 := by
    simp [selector, nsamplesMask, nsamplesShift, Nat.shiftRight_eq_div_pow]
  have h' : (cfg.toNat &&& 14) / 2 = cfg.toNat / 2 &&& 7 := by
    have := Nat.shiftRight_and_distrib (a := cfg.toNat) (b := 14) (i := 1)
    simpa [Nat.shiftRight_eq_div_pow] using this
  rw [h, h', show (7 : Nat) = 2 ^ 3 - 1 from rfl, Nat.and_two_pow_sub_one_eq_mod]

/-- The response to an invalid access, the two modes in one expression (40_register_ops.md R80). -/
theorem invalidResponse_eq (mode : AddrMode) (isRead : Bool) :
    invalidResponse mode isRead =
      if mode = .strict then .err .invalidOffset else if isRead then .okData 0 else .ok := by
  cases mode <;> rfl

/-- The response to an invalid access is `OK`, `OK(0)` or `InvalidOffset`. -/
theorem invalidResponse_kinds (mode : AddrMode) (isRead : Bool) :
    invalidResponse mode isRead ≠ .err .notConfigured ∧ invalidResponse mode isRead ≠ .err .overCapacity ∧
    invalidResponse mode isRead ≠ .err .unsupportedSampleCount := by
  cases mode <;> cases isRead <;> decide

end Sys2Proof.Machine
end

