-- ==== Sys2Proof/Laws/PerInstr.lean ====
section
/-! SUPPORT. Statements about every instruction, one lemma per constructor. -/

namespace Sys2Proof.Laws.EncodeMatchesRow

/-- A well-formed instruction's word matches the row of its mnemonic in the opcode table (30_encoding.md R65). -/
def Statement (i : Instr) : Prop :=
  i.wellFormed = true → ∃ r ∈ opcodeTable, r.mnemonic = i.mnemonic ∧ r.matchesWord (encode i) = true

/-- The condition a word meets to match a row: bit by bit under the mask. -/
theorem matches_of_bits {r : OpcodeRow} {w : OpWord}
    (h : ∀ i : Fin 41, r.mask.getLsbD i = true → w.getLsbD i = r.pattern.getLsbD i)
    (h' : ∀ i : Fin 41, r.mask.getLsbD i = false → r.pattern.getLsbD i = false) : r.matchesWord w = true := by
  rw [OpcodeRow.matchesWord, beq_iff_eq]
  refine BitVec.eq_of_getLsbD_eq fun i hi => ?_
  rw [BitVec.getLsbD_and]
  cases hm : r.mask.getLsbD i
  · simp [h' ⟨i, hi⟩ hm]
  · simp [h ⟨i, hi⟩ hm]

/-- A word with free data matches a row whose mask covers direction and offset. -/
theorem matches_offset {r : OpcodeRow} {we : Bool} {off : BitVec 8} (v : Word)
    (hm : r.mask = packWord true 0xFF 0) (hp : r.pattern = packWord we off 0) :
    r.matchesWord (packWord we off v) = true := by
  refine matches_of_bits (fun i h => ?_) (fun i h => ?_)
  · rw [hm, packWord_getLsbD] at h
    rw [hp, packWord_getLsbD, packWord_getLsbD]
    split at h
    · simp at h
    · next hi => rw [if_neg hi, if_neg hi]
  · rw [hm, packWord_getLsbD] at h
    rw [hp, packWord_getLsbD]
    split at h
    · next hi => simp [hi]
    · next hi =>
      rw [if_neg hi]
      have := i.isLt
      split at h
      · next h8 =>
        exfalso
        have h255 : ∀ k : Fin 8, (0xFF : BitVec 8).getLsbD k = true := by decide
        have := h255 ⟨i - 32, h8⟩
        simp_all
      · next h8 =>
        have h40 : (i : Nat) - 32 - 8 = 0 := by omega
        rw [h40] at h
        exact absurd h (by decide)

/-- A word of a CTRL write matches a row whose mask also covers the data bits of `dm`. -/
theorem matches_ctrl {r : OpcodeRow} {v dm dp : Word} (hm : r.mask = packWord true 0xFF dm)
    (hp : r.pattern = packWord true 0x04 dp) (h : v &&& dm = dp) : r.matchesWord (packWord true 0x04 v) = true := by
  have hbit : ∀ i, (v.getLsbD i && dm.getLsbD i) = dp.getLsbD i := fun i => by
    rw [← BitVec.getLsbD_and, h]
  refine matches_of_bits (fun i hi => ?_) (fun i hi => ?_)
  · rw [hm, packWord_getLsbD] at hi
    rw [hp, packWord_getLsbD, packWord_getLsbD]
    split at hi
    · next h32 => rw [if_pos h32, if_pos h32, ← hbit, hi, Bool.and_true]
    · next h32 => rw [if_neg h32, if_neg h32]
  · rw [hm, packWord_getLsbD] at hi
    rw [hp, packWord_getLsbD]
    split at hi
    · next h32 => rw [if_pos h32, ← hbit, hi, Bool.and_false]
    · next h32 =>
      rw [if_neg h32]
      have := i.isLt
      split at hi
      · next h8 =>
        exfalso
        have h255 : ∀ k : Fin 8, (0xFF : BitVec 8).getLsbD k = true := by decide
        have := h255 ⟨i - 32, h8⟩
        simp_all
      · next h8 =>
        have h40 : (i : Nat) - 32 - 8 = 0 := by omega
        rw [h40] at hi
        exact absurd hi (by decide)

theorem rdDevid : Statement .rdDevid := fun _ =>
  ⟨⟨"RD_DEVID", 0x00000000000, 0x1FF00000000⟩, by decide, rfl, matches_offset 0 (by decide) (by decide)⟩
theorem rdCtrl : Statement .rdCtrl := fun _ =>
  ⟨⟨"RD_CTRL", 0x00400000000, 0x1FF00000000⟩, by decide, rfl, matches_offset 0 (by decide) (by decide)⟩
theorem rdCfg0 : Statement .rdCfg0 := fun _ =>
  ⟨⟨"RD_CFG0", 0x00800000000, 0x1FF00000000⟩, by decide, rfl, matches_offset 0 (by decide) (by decide)⟩
theorem rdDatain : Statement .rdDatain := fun _ =>
  ⟨⟨"RD_DATAIN", 0x00C00000000, 0x1FF00000000⟩, by decide, rfl, matches_offset 0 (by decide) (by decide)⟩
theorem rdDataout : Statement .rdDataout := fun _ =>
  ⟨⟨"RD_DATAOUT", 0x01000000000, 0x1FF00000000⟩, by decide, rfl, matches_offset 0 (by decide) (by decide)⟩
theorem rdStatus : Statement .rdStatus := fun _ =>
  ⟨⟨"RD_STATUS", 0x01400000000, 0x1FF00000000⟩, by decide, rfl, matches_offset 0 (by decide) (by decide)⟩
theorem wrDevid (v : Word) : Statement (.wrDevid v) := fun _ =>
  ⟨⟨"WR_DEVID", 0x10000000000, 0x1FF00000000⟩, by decide, rfl, matches_offset v (by decide) (by decide)⟩
theorem wrCfg0 (v : Word) : Statement (.wrCfg0 v) := fun _ =>
  ⟨⟨"WR_CFG0", 0x10800000000, 0x1FF00000000⟩, by decide, rfl, matches_offset v (by decide) (by decide)⟩
theorem wrDatain (v : Word) : Statement (.wrDatain v) := fun _ =>
  ⟨⟨"WR_DATAIN", 0x10C00000000, 0x1FF00000000⟩, by decide, rfl, matches_offset v (by decide) (by decide)⟩
theorem wrDataout (v : Word) : Statement (.wrDataout v) := fun _ =>
  ⟨⟨"WR_DATAOUT", 0x11000000000, 0x1FF00000000⟩, by decide, rfl, matches_offset v (by decide) (by decide)⟩
theorem wrStatus (v : Word) : Statement (.wrStatus v) := fun _ =>
  ⟨⟨"WR_STATUS", 0x11400000000, 0x1FF00000000⟩, by decide, rfl, matches_offset v (by decide) (by decide)⟩

/-- The two data bits a CTRL row looks at, as a mask. -/
theorem and_mask_of_bits {v dm dp : Word} (h : ∀ i : Fin 32, (v.getLsbD i && dm.getLsbD i) = dp.getLsbD i) :
    v &&& dm = dp :=
  BitVec.eq_of_getLsbD_eq fun i hi => by rw [BitVec.getLsbD_and]; exact h ⟨i, hi⟩

theorem bits_0_2 {v : Word} {a b : Bool} (h₀ : v.getLsbD 0 = a) (h₂ : v.getLsbD 2 = b) (dp : Word)
    (hp : ∀ i : Fin 32, dp.getLsbD i = if i = 0 then a else if i = 2 then b else false) : v &&& 0x5 = dp := by
  refine and_mask_of_bits fun i => ?_
  have hm : ∀ i : Fin 32, (0x5 : Word).getLsbD i = if i = 0 then true else if i = 2 then true else false := by decide
  rw [hp i, hm i]
  by_cases h0 : i = 0
  · subst h0; simpa using h₀
  · by_cases h2 : i = 2
    · subst h2; simpa using h₂
    · simp [h0, h2]

theorem bits_2_3 {v : Word} {a b : Bool} (h₂ : v.getLsbD 2 = a) (h₃ : v.getLsbD 3 = b) (dp : Word)
    (hp : ∀ i : Fin 32, dp.getLsbD i = if i = 2 then a else if i = 3 then b else false) : v &&& 0xC = dp := by
  refine and_mask_of_bits fun i => ?_
  have hm : ∀ i : Fin 32, (0xC : Word).getLsbD i = if i = 2 then true else if i = 3 then true else false := by decide
  rw [hp i, hm i]
  by_cases h2 : i = 2
  · subst h2; simpa using h₂
  · by_cases h3 : i = 3
    · subst h3; simpa using h₃
    · simp [h2, h3]

theorem ctrlSamIn (v : Word) : Statement (.ctrlSamIn v) := fun h => by
  have h' : v.getLsbD 2 = true ∧ v.getLsbD 0 = true := by simpa [Instr.wellFormed] using h
  exact ⟨⟨"CTRL_SAM_IN", 0x10400000005, 0x1FF00000005⟩, by decide, rfl,
    matches_ctrl (dm := 0x5) (dp := 0x5) (by decide) (by decide) (bits_0_2 h'.2 h'.1 _ (by decide))⟩
theorem ctrlSamOut (v : Word) : Statement (.ctrlSamOut v) := fun h => by
  have h' : v.getLsbD 2 = true ∧ v.getLsbD 0 = false := by simpa [Instr.wellFormed] using h
  exact ⟨⟨"CTRL_SAM_OUT", 0x10400000004, 0x1FF00000005⟩, by decide, rfl,
    matches_ctrl (dm := 0x5) (dp := 0x4) (by decide) (by decide) (bits_0_2 h'.2 h'.1 _ (by decide))⟩
theorem ctrlPrc (v : Word) : Statement (.ctrlPrc v) := fun h => by
  have h' : v.getLsbD 2 = false ∧ v.getLsbD 3 = true := by simpa [Instr.wellFormed] using h
  exact ⟨⟨"CTRL_PRC", 0x10400000008, 0x1FF0000000C⟩, by decide, rfl,
    matches_ctrl (dm := 0xC) (dp := 0x8) (by decide) (by decide) (bits_2_3 h'.1 h'.2 _ (by decide))⟩
theorem ctrlSet (v : Word) : Statement (.ctrlSet v) := fun h => by
  have h' : v.getLsbD 2 = false ∧ v.getLsbD 3 = false := by simpa [Instr.wellFormed] using h
  exact ⟨⟨"CTRL_SET", 0x10400000000, 0x1FF0000000C⟩, by decide, rfl,
    matches_ctrl (dm := 0xC) (dp := 0x0) (by decide) (by decide) (bits_2_3 h'.1 h'.2 _ (by decide))⟩

end Sys2Proof.Laws.EncodeMatchesRow
end

