-- ==== Sys2Proof/Laws/State.lean ====
section
/-! SUPPORT. One lemma per field and shared update of State, and what the named accessors see of an update, so that
later proofs unfold no record update. -/

namespace Sys2Proof.Machine

/-! ### `storeCtrl` -/

@[simp] theorem storeCtrl_id (en ien : Bool) (s : State) : (storeCtrl en ien s).id = s.id := rfl
@[simp] theorem storeCtrl_ctrl (en ien : Bool) (s : State) : (storeCtrl en ien s).ctrl = packCtrl en ien := rfl
@[simp] theorem storeCtrl_cfg (en ien : Bool) (s : State) : (storeCtrl en ien s).cfg = s.cfg := rfl
@[simp] theorem storeCtrl_configured (en ien : Bool) (s : State) : (storeCtrl en ien s).configured = s.configured := rfl
@[simp] theorem storeCtrl_datainLatch (en ien : Bool) (s : State) : (storeCtrl en ien s).datainLatch = s.datainLatch := rfl
@[simp] theorem storeCtrl_dataoutLatch (en ien : Bool) (s : State) :
    (storeCtrl en ien s).dataoutLatch = s.dataoutLatch := rfl
@[simp] theorem storeCtrl_status (en ien : Bool) (s : State) : (storeCtrl en ien s).status = s.status := rfl
@[simp] theorem storeCtrl_sampleBuffer (en ien : Bool) (s : State) :
    (storeCtrl en ien s).sampleBuffer = s.sampleBuffer := rfl
@[simp] theorem storeCtrl_sampleIndex (en ien : Bool) (s : State) : (storeCtrl en ien s).sampleIndex = s.sampleIndex := rfl
@[simp] theorem storeCtrl_resultIndex (en ien : Bool) (s : State) : (storeCtrl en ien s).resultIndex = s.resultIndex := rfl
@[simp] theorem storeCtrl_irqPending (en ien : Bool) (s : State) : (storeCtrl en ien s).irqPending = s.irqPending := rfl
@[simp] theorem storeCtrl_pending (en ien : Bool) (s : State) : (storeCtrl en ien s).pending = s.pending := rfl
@[simp] theorem storeCtrl_response (en ien : Bool) (s : State) : (storeCtrl en ien s).response = s.response := rfl

theorem packCtrl_en (en ien : Bool) : (packCtrl en ien).getLsbD 0 = en := by revert en ien; decide
theorem packCtrl_ien (en ien : Bool) : (packCtrl en ien).getLsbD 1 = ien := by revert en ien; decide

@[simp] theorem storeCtrl_en (en ien : Bool) (s : State) : (storeCtrl en ien s).en = en := packCtrl_en en ien
@[simp] theorem storeCtrl_ien (en ien : Bool) (s : State) : (storeCtrl en ien s).ien = ien := packCtrl_ien en ien

/-! ### `event` -/

@[simp] theorem event_id (m : BitVec 5) (s : State) : (event m s).id = s.id := rfl
@[simp] theorem event_ctrl (m : BitVec 5) (s : State) : (event m s).ctrl = s.ctrl := rfl
@[simp] theorem event_cfg (m : BitVec 5) (s : State) : (event m s).cfg = s.cfg := rfl
@[simp] theorem event_configured (m : BitVec 5) (s : State) : (event m s).configured = s.configured := rfl
@[simp] theorem event_datainLatch (m : BitVec 5) (s : State) : (event m s).datainLatch = s.datainLatch := rfl
@[simp] theorem event_dataoutLatch (m : BitVec 5) (s : State) : (event m s).dataoutLatch = s.dataoutLatch := rfl
@[simp] theorem event_status (m : BitVec 5) (s : State) : (event m s).status = s.status ||| m := rfl
@[simp] theorem event_sampleBuffer (m : BitVec 5) (s : State) : (event m s).sampleBuffer = s.sampleBuffer := rfl
@[simp] theorem event_sampleIndex (m : BitVec 5) (s : State) : (event m s).sampleIndex = s.sampleIndex := rfl
@[simp] theorem event_resultIndex (m : BitVec 5) (s : State) : (event m s).resultIndex = s.resultIndex := rfl
@[simp] theorem event_irqPending (m : BitVec 5) (s : State) :
    (event m s).irqPending = (s.irqPending || raisesIrq s.ien m) := rfl
@[simp] theorem event_pending (m : BitVec 5) (s : State) : (event m s).pending = s.pending := rfl
@[simp] theorem event_response (m : BitVec 5) (s : State) : (event m s).response = s.response := rfl
@[simp] theorem event_en (m : BitVec 5) (s : State) : (event m s).en = s.en := rfl
@[simp] theorem event_ien (m : BitVec 5) (s : State) : (event m s).ien = s.ien := rfl

/-! ### `eventIf` -/

/-- Whatever an event leaves alone, a conditional event leaves alone. -/
theorem eventIf_keeps {α : Type} (f : State → α) {c : Bool} {m : BitVec 5} {s : State} (h : f (event m s) = f s) :
    f (eventIf c m s) = f s := by
  cases c
  · rfl
  · exact h

@[simp] theorem eventIf_id (c : Bool) (m : BitVec 5) (s : State) : (eventIf c m s).id = s.id := eventIf_keeps State.id rfl
@[simp] theorem eventIf_ctrl (c : Bool) (m : BitVec 5) (s : State) : (eventIf c m s).ctrl = s.ctrl :=
  eventIf_keeps State.ctrl rfl
@[simp] theorem eventIf_cfg (c : Bool) (m : BitVec 5) (s : State) : (eventIf c m s).cfg = s.cfg :=
  eventIf_keeps State.cfg rfl
@[simp] theorem eventIf_configured (c : Bool) (m : BitVec 5) (s : State) :
    (eventIf c m s).configured = s.configured := eventIf_keeps State.configured rfl
@[simp] theorem eventIf_datainLatch (c : Bool) (m : BitVec 5) (s : State) :
    (eventIf c m s).datainLatch = s.datainLatch := eventIf_keeps State.datainLatch rfl
@[simp] theorem eventIf_dataoutLatch (c : Bool) (m : BitVec 5) (s : State) :
    (eventIf c m s).dataoutLatch = s.dataoutLatch := eventIf_keeps State.dataoutLatch rfl
@[simp] theorem eventIf_sampleBuffer (c : Bool) (m : BitVec 5) (s : State) :
    (eventIf c m s).sampleBuffer = s.sampleBuffer := eventIf_keeps State.sampleBuffer rfl
@[simp] theorem eventIf_sampleIndex (c : Bool) (m : BitVec 5) (s : State) :
    (eventIf c m s).sampleIndex = s.sampleIndex := eventIf_keeps State.sampleIndex rfl
@[simp] theorem eventIf_resultIndex (c : Bool) (m : BitVec 5) (s : State) :
    (eventIf c m s).resultIndex = s.resultIndex := eventIf_keeps State.resultIndex rfl
@[simp] theorem eventIf_pending (c : Bool) (m : BitVec 5) (s : State) : (eventIf c m s).pending = s.pending :=
  eventIf_keeps State.pending rfl
@[simp] theorem eventIf_response (c : Bool) (m : BitVec 5) (s : State) : (eventIf c m s).response = s.response :=
  eventIf_keeps State.response rfl
@[simp] theorem eventIf_en (c : Bool) (m : BitVec 5) (s : State) : (eventIf c m s).en = s.en :=
  eventIf_keeps State.en rfl
@[simp] theorem eventIf_ien (c : Bool) (m : BitVec 5) (s : State) : (eventIf c m s).ien = s.ien :=
  eventIf_keeps State.ien rfl
@[simp] theorem eventIf_status (c : Bool) (m : BitVec 5) (s : State) :
    (eventIf c m s).status = if c then s.status ||| m else s.status := by cases c <;> rfl
@[simp] theorem eventIf_irqPending (c : Bool) (m : BitVec 5) (s : State) :
    (eventIf c m s).irqPending = (s.irqPending || (c && raisesIrq s.ien m)) := by
  cases c <;> simp [eventIf]

/-! ### `resetPass` -/

@[simp] theorem resetPass_id (en : Bool) (s : State) : (resetPass en s).id = s.id := rfl
@[simp] theorem resetPass_ctrl (en : Bool) (s : State) : (resetPass en s).ctrl = s.ctrl := rfl
@[simp] theorem resetPass_cfg (en : Bool) (s : State) : (resetPass en s).cfg = s.cfg := rfl
@[simp] theorem resetPass_configured (en : Bool) (s : State) : (resetPass en s).configured = s.configured := rfl
@[simp] theorem resetPass_datainLatch (en : Bool) (s : State) : (resetPass en s).datainLatch = s.datainLatch := rfl
@[simp] theorem resetPass_dataoutLatch (en : Bool) (s : State) : (resetPass en s).dataoutLatch = s.dataoutLatch := rfl
@[simp] theorem resetPass_status (en : Bool) (s : State) : (resetPass en s).status = statusAfterPass en s.status := rfl
@[simp] theorem resetPass_sampleBuffer (en : Bool) (s : State) : (resetPass en s).sampleBuffer = s.sampleBuffer := rfl
@[simp] theorem resetPass_sampleIndex (en : Bool) (s : State) :
    (resetPass en s).sampleIndex = if en then s.sampleIndex else 0 := rfl
@[simp] theorem resetPass_resultIndex (en : Bool) (s : State) :
    (resetPass en s).resultIndex = if en then 0 else s.resultIndex := rfl
@[simp] theorem resetPass_irqPending (en : Bool) (s : State) : (resetPass en s).irqPending = s.irqPending := rfl
@[simp] theorem resetPass_pending (en : Bool) (s : State) : (resetPass en s).pending = s.pending := rfl
@[simp] theorem resetPass_response (en : Bool) (s : State) : (resetPass en s).response = s.response := rfl
@[simp] theorem resetPass_en (en : Bool) (s : State) : (resetPass en s).en = s.en := rfl
@[simp] theorem resetPass_ien (en : Bool) (s : State) : (resetPass en s).ien = s.ien := rfl

/-! ### The triggers: what each leaves alone and what it writes -/

@[simp] theorem ingest_id (s : State) : (ingest s).id = s.id := by simp [ingest, ingestStore]
@[simp] theorem ingest_ctrl (s : State) : (ingest s).ctrl = s.ctrl := by simp [ingest, ingestStore]
@[simp] theorem ingest_cfg (s : State) : (ingest s).cfg = s.cfg := by simp [ingest, ingestStore]
@[simp] theorem ingest_configured (s : State) : (ingest s).configured = s.configured := by simp [ingest, ingestStore]
@[simp] theorem ingest_datainLatch (s : State) : (ingest s).datainLatch = s.datainLatch := by simp [ingest, ingestStore]
@[simp] theorem ingest_dataoutLatch (s : State) : (ingest s).dataoutLatch = s.dataoutLatch := by
  simp [ingest, ingestStore]
@[simp] theorem ingest_resultIndex (s : State) : (ingest s).resultIndex = s.resultIndex := by simp [ingest, ingestStore]
@[simp] theorem ingest_pending (s : State) : (ingest s).pending = s.pending := by simp [ingest, ingestStore]
@[simp] theorem ingest_en (s : State) : (ingest s).en = s.en := by simp [ingest]; rfl
@[simp] theorem ingest_ien (s : State) : (ingest s).ien = s.ien := by simp [ingest]; rfl
@[simp] theorem ingest_sampleIndex (s : State) : (ingest s).sampleIndex = s.sampleIndex + unitSize s.cfg := by
  simp [ingest, ingestStore]
@[simp] theorem ingest_sampleBuffer (s : State) :
    (ingest s).sampleBuffer = ingestBuffer s.cfg s.datainLatch s.sampleBuffer s.sampleIndex := by
  simp [ingest, ingestStore]
@[simp] theorem ingest_status (s : State) :
    (ingest s).status = if s.sampleIndex + unitSize s.cfg = nSamples s.cfg then s.status ||| maskSCPLT ||| maskFULL
      else s.status ||| maskSCPLT := by
  simp [ingest, ingestStore]

@[simp] theorem drain_id (s : State) : (drain s).id = s.id := by simp [drain, drainStore]
@[simp] theorem drain_ctrl (s : State) : (drain s).ctrl = s.ctrl := by simp [drain, drainStore]
@[simp] theorem drain_cfg (s : State) : (drain s).cfg = s.cfg := by simp [drain, drainStore]
@[simp] theorem drain_configured (s : State) : (drain s).configured = s.configured := by simp [drain, drainStore]
@[simp] theorem drain_datainLatch (s : State) : (drain s).datainLatch = s.datainLatch := by simp [drain, drainStore]
@[simp] theorem drain_dataoutLatch (s : State) : (drain s).dataoutLatch = s.sampleBuffer.read s.resultIndex := by
  simp [drain, drainStore]
@[simp] theorem drain_sampleBuffer (s : State) : (drain s).sampleBuffer = s.sampleBuffer := by simp [drain, drainStore]
@[simp] theorem drain_sampleIndex (s : State) : (drain s).sampleIndex = s.sampleIndex := by simp [drain, drainStore]
@[simp] theorem drain_pending (s : State) : (drain s).pending = s.pending := by simp [drain, drainStore]
@[simp] theorem drain_en (s : State) : (drain s).en = s.en := by simp [drain]; rfl
@[simp] theorem drain_ien (s : State) : (drain s).ien = s.ien := by simp [drain]; rfl
@[simp] theorem drain_resultIndex (s : State) : (drain s).resultIndex = s.resultIndex + 1 := by simp [drain, drainStore]
@[simp] theorem drain_status (s : State) :
    (drain s).status = if s.resultIndex + 1 = nSamples s.cfg / 2 then s.status ||| maskSCPLT ||| maskEMPTY
      else s.status ||| maskSCPLT := by
  simp [drain, drainStore]

@[simp] theorem process_id (s : State) : (process s).id = s.id := rfl
@[simp] theorem process_ctrl (s : State) : (process s).ctrl = s.ctrl := rfl
@[simp] theorem process_cfg (s : State) : (process s).cfg = s.cfg := rfl
@[simp] theorem process_configured (s : State) : (process s).configured = s.configured := rfl
@[simp] theorem process_datainLatch (s : State) : (process s).datainLatch = s.datainLatch := rfl
@[simp] theorem process_dataoutLatch (s : State) : (process s).dataoutLatch = s.dataoutLatch := rfl
@[simp] theorem process_status (s : State) : (process s).status = s.status ||| maskPCPLT := rfl
@[simp] theorem process_sampleBuffer (s : State) :
    (process s).sampleBuffer = transformBuffer s.cfg s.sampleBuffer := rfl
@[simp] theorem process_sampleIndex (s : State) : (process s).sampleIndex = s.sampleIndex := rfl
@[simp] theorem process_resultIndex (s : State) : (process s).resultIndex = s.resultIndex := rfl
@[simp] theorem process_pending (s : State) : (process s).pending = s.pending := rfl
@[simp] theorem process_en (s : State) : (process s).en = s.en := rfl
@[simp] theorem process_ien (s : State) : (process s).ien = s.ien := rfl

theorem raisesIrq_scplt (ien : Bool) : raisesIrq ien maskSCPLT = ien := by cases ien <;> decide
theorem raisesIrq_pcplt (ien : Bool) : raisesIrq ien maskPCPLT = ien := by cases ien <;> decide
theorem raisesIrq_full (ien : Bool) : raisesIrq ien maskFULL = ien := by cases ien <;> decide
theorem raisesIrq_empty (ien : Bool) : raisesIrq ien maskEMPTY = ien := by cases ien <;> decide

/-- One command raises the one line once, whether it sets one event bit or two (60_exceptions.md R154). -/
@[simp] theorem ingest_irqPending (s : State) : (ingest s).irqPending = (s.irqPending || s.ien) := by
  have h : (ingestStore s).ien = s.ien := rfl
  have h' : (ingestStore s).irqPending = s.irqPending := rfl
  simp only [ingest, eventIf_irqPending, event_irqPending, event_ien, h, h', raisesIrq_scplt, raisesIrq_full]
  cases s.irqPending <;> cases s.ien <;> simp

@[simp] theorem drain_irqPending (s : State) : (drain s).irqPending = (s.irqPending || s.ien) := by
  have h : (drainStore s).ien = s.ien := rfl
  have h' : (drainStore s).irqPending = s.irqPending := rfl
  simp only [drain, eventIf_irqPending, event_irqPending, event_ien, h, h', raisesIrq_scplt, raisesIrq_empty]
  cases s.irqPending <;> cases s.ien <;> simp

@[simp] theorem process_irqPending (s : State) : (process s).irqPending = (s.irqPending || s.ien) := by
  have h : ∀ t : State, (event maskPCPLT t).irqPending = (t.irqPending || t.ien) := fun t => by
    simp [raisesIrq_pcplt]
  exact h _

/-! ### The bits of STATUS after each update -/

theorem statusAfterPass_bits (en : Bool) (st : BitVec 5) :
    (statusAfterPass en st).getLsbD 0 = (!en || st.getLsbD 0) ∧ (statusAfterPass en st).getLsbD 1 = st.getLsbD 1 ∧
    (statusAfterPass en st).getLsbD 2 = st.getLsbD 2 ∧ (statusAfterPass en st).getLsbD 3 = (en && st.getLsbD 3) ∧
    (statusAfterPass en st).getLsbD 4 = (!en && st.getLsbD 4) := by
  revert st; cases en <;> decide

theorem statusAfterRead_bits (st : BitVec 5) :
    (statusAfterRead st).getLsbD 0 = false ∧ (statusAfterRead st).getLsbD 1 = false ∧
    (statusAfterRead st).getLsbD 2 = false ∧ (statusAfterRead st).getLsbD 3 = st.getLsbD 3 ∧
    (statusAfterRead st).getLsbD 4 = st.getLsbD 4 := by
  revert st; decide

@[simp] theorem resetPass_ready (en : Bool) (s : State) : (resetPass en s).ready = (!en || s.ready) :=
  (statusAfterPass_bits en s.status).1
@[simp] theorem resetPass_scplt (en : Bool) (s : State) : (resetPass en s).scplt = s.scplt :=
  (statusAfterPass_bits en s.status).2.1
@[simp] theorem resetPass_pcplt (en : Bool) (s : State) : (resetPass en s).pcplt = s.pcplt :=
  (statusAfterPass_bits en s.status).2.2.1
@[simp] theorem resetPass_full (en : Bool) (s : State) : (resetPass en s).full = (en && s.full) :=
  (statusAfterPass_bits en s.status).2.2.2.1
@[simp] theorem resetPass_empty (en : Bool) (s : State) : (resetPass en s).empty = (!en && s.empty) :=
  (statusAfterPass_bits en s.status).2.2.2.2

@[simp] theorem storeCtrl_ready (en ien : Bool) (s : State) : (storeCtrl en ien s).ready = s.ready := rfl
@[simp] theorem storeCtrl_scplt (en ien : Bool) (s : State) : (storeCtrl en ien s).scplt = s.scplt := rfl
@[simp] theorem storeCtrl_pcplt (en ien : Bool) (s : State) : (storeCtrl en ien s).pcplt = s.pcplt := rfl
@[simp] theorem storeCtrl_full (en ien : Bool) (s : State) : (storeCtrl en ien s).full = s.full := rfl
@[simp] theorem storeCtrl_empty (en ien : Bool) (s : State) : (storeCtrl en ien s).empty = s.empty := rfl

/-- What the SCPLT event adds to the bits of STATUS. -/
theorem or_scplt_bits (st : BitVec 5) :
    (st ||| maskSCPLT).getLsbD 0 = st.getLsbD 0 ∧ (st ||| maskSCPLT).getLsbD 1 = true ∧
    (st ||| maskSCPLT).getLsbD 2 = st.getLsbD 2 ∧ (st ||| maskSCPLT).getLsbD 3 = st.getLsbD 3 ∧
    (st ||| maskSCPLT).getLsbD 4 = st.getLsbD 4 := by
  revert st; decide

theorem or_scplt_full_bits (st : BitVec 5) :
    (st ||| maskSCPLT ||| maskFULL).getLsbD 0 = st.getLsbD 0 ∧ (st ||| maskSCPLT ||| maskFULL).getLsbD 1 = true ∧
    (st ||| maskSCPLT ||| maskFULL).getLsbD 2 = st.getLsbD 2 ∧ (st ||| maskSCPLT ||| maskFULL).getLsbD 3 = true ∧
    (st ||| maskSCPLT ||| maskFULL).getLsbD 4 = st.getLsbD 4 := by
  revert st; decide

theorem or_scplt_empty_bits (st : BitVec 5) :
    (st ||| maskSCPLT ||| maskEMPTY).getLsbD 0 = st.getLsbD 0 ∧ (st ||| maskSCPLT ||| maskEMPTY).getLsbD 1 = true ∧
    (st ||| maskSCPLT ||| maskEMPTY).getLsbD 2 = st.getLsbD 2 ∧
    (st ||| maskSCPLT ||| maskEMPTY).getLsbD 3 = st.getLsbD 3 ∧ (st ||| maskSCPLT ||| maskEMPTY).getLsbD 4 = true := by
  revert st; decide

theorem or_pcplt_bits (st : BitVec 5) :
    (st ||| maskPCPLT).getLsbD 0 = st.getLsbD 0 ∧ (st ||| maskPCPLT).getLsbD 1 = st.getLsbD 1 ∧
    (st ||| maskPCPLT).getLsbD 2 = true ∧ (st ||| maskPCPLT).getLsbD 3 = st.getLsbD 3 ∧
    (st ||| maskPCPLT).getLsbD 4 = st.getLsbD 4 := by
  revert st; decide

/-- The bits of STATUS after an ingestion (R91). -/
theorem ingest_bits (s : State) :
    (ingest s).ready = s.ready ∧ (ingest s).scplt = true ∧ (ingest s).pcplt = s.pcplt ∧
    (ingest s).full = (s.full || s.sampleIndex + unitSize s.cfg == nSamples s.cfg) ∧
    (ingest s).empty = s.empty := by
  unfold State.ready State.scplt State.pcplt State.full State.empty
  rw [ingest_status]
  split
  · next h => obtain ⟨a, b, c, d, e⟩ := or_scplt_full_bits s.status; simp only [a, b, c, d, e]; simp [h]
  · next h => obtain ⟨a, b, c, d, e⟩ := or_scplt_bits s.status; simp only [a, b, c, d, e]; simp [h]

@[simp] theorem ingest_ready (s : State) : (ingest s).ready = s.ready := (ingest_bits s).1
@[simp] theorem ingest_scplt (s : State) : (ingest s).scplt = true := (ingest_bits s).2.1
@[simp] theorem ingest_pcplt (s : State) : (ingest s).pcplt = s.pcplt := (ingest_bits s).2.2.1
@[simp] theorem ingest_full (s : State) :
    (ingest s).full = (s.full || s.sampleIndex + unitSize s.cfg == nSamples s.cfg) := (ingest_bits s).2.2.2.1
@[simp] theorem ingest_empty (s : State) : (ingest s).empty = s.empty := (ingest_bits s).2.2.2.2

/-- The bits of STATUS after a drain (R92). -/
theorem drain_bits (s : State) :
    (drain s).ready = s.ready ∧ (drain s).scplt = true ∧ (drain s).pcplt = s.pcplt ∧ (drain s).full = s.full ∧
    (drain s).empty = (s.empty || s.resultIndex + 1 == nSamples s.cfg / 2) := by
  unfold State.ready State.scplt State.pcplt State.full State.empty
  rw [drain_status]
  split
  · next h => obtain ⟨a, b, c, d, e⟩ := or_scplt_empty_bits s.status; simp only [a, b, c, d, e]; simp [h]
  · next h => obtain ⟨a, b, c, d, e⟩ := or_scplt_bits s.status; simp only [a, b, c, d, e]; simp [h]

@[simp] theorem drain_ready (s : State) : (drain s).ready = s.ready := (drain_bits s).1
@[simp] theorem drain_scplt (s : State) : (drain s).scplt = true := (drain_bits s).2.1
@[simp] theorem drain_pcplt (s : State) : (drain s).pcplt = s.pcplt := (drain_bits s).2.2.1
@[simp] theorem drain_full (s : State) : (drain s).full = s.full := (drain_bits s).2.2.2.1
@[simp] theorem drain_empty (s : State) :
    (drain s).empty = (s.empty || s.resultIndex + 1 == nSamples s.cfg / 2) := (drain_bits s).2.2.2.2

@[simp] theorem process_ready (s : State) : (process s).ready = s.ready := (or_pcplt_bits s.status).1
@[simp] theorem process_scplt (s : State) : (process s).scplt = s.scplt := (or_pcplt_bits s.status).2.1
@[simp] theorem process_pcplt (s : State) : (process s).pcplt = true := (or_pcplt_bits s.status).2.2.1
@[simp] theorem process_full (s : State) : (process s).full = s.full := (or_pcplt_bits s.status).2.2.2.1
@[simp] theorem process_empty (s : State) : (process s).empty = s.empty := (or_pcplt_bits s.status).2.2.2.2

/-! ### `complete` -/

@[simp] theorem complete_id (r : Response) (s : State) : (complete r s).id = s.id := rfl
@[simp] theorem complete_ctrl (r : Response) (s : State) : (complete r s).ctrl = s.ctrl := rfl
@[simp] theorem complete_cfg (r : Response) (s : State) : (complete r s).cfg = s.cfg := rfl
@[simp] theorem complete_configured (r : Response) (s : State) : (complete r s).configured = s.configured := rfl
@[simp] theorem complete_datainLatch (r : Response) (s : State) : (complete r s).datainLatch = s.datainLatch := rfl
@[simp] theorem complete_dataoutLatch (r : Response) (s : State) : (complete r s).dataoutLatch = s.dataoutLatch := rfl
@[simp] theorem complete_status (r : Response) (s : State) : (complete r s).status = s.status := rfl
@[simp] theorem complete_sampleBuffer (r : Response) (s : State) : (complete r s).sampleBuffer = s.sampleBuffer := rfl
@[simp] theorem complete_sampleIndex (r : Response) (s : State) : (complete r s).sampleIndex = s.sampleIndex := rfl
@[simp] theorem complete_resultIndex (r : Response) (s : State) : (complete r s).resultIndex = s.resultIndex := rfl
@[simp] theorem complete_irqPending (r : Response) (s : State) : (complete r s).irqPending = s.irqPending := rfl
@[simp] theorem complete_pending (r : Response) (s : State) : (complete r s).pending = s.pending := rfl
@[simp] theorem complete_en (r : Response) (s : State) : (complete r s).en = s.en := rfl
@[simp] theorem complete_ien (r : Response) (s : State) : (complete r s).ien = s.ien := rfl
@[simp] theorem complete_irq (r : Response) (s : State) : (complete r s).irq = s.irq := rfl
@[simp] theorem complete_ready (r : Response) (s : State) : (complete r s).ready = s.ready := rfl
@[simp] theorem complete_scplt (r : Response) (s : State) : (complete r s).scplt = s.scplt := rfl
@[simp] theorem complete_pcplt (r : Response) (s : State) : (complete r s).pcplt = s.pcplt := rfl
@[simp] theorem complete_full (r : Response) (s : State) : (complete r s).full = s.full := rfl
@[simp] theorem complete_empty (r : Response) (s : State) : (complete r s).empty = s.empty := rfl
@[simp] theorem complete_response (r : Response) (s : State) : (complete r s).response = r := rfl

end Sys2Proof.Machine
end

