-- ==== Sys2Proof/Laws/Step.lean ====
section
/-! SUPPORT. What one operation can do, said once: an inversion lemma for each shared operation and for a step. -/

namespace Sys2Proof.Machine

theorem respond_next {r : Response} {s t : State} : respond r s = .next t ↔ t = complete r s := by
  constructor
  · intro h; cases h; rfl
  · rintro rfl; rfl

theorem acceptCtrl_next {en ien : Bool} {f : State → State} {s t : State} :
    acceptCtrl en ien f s = .next t ↔ t = complete .ok (resetPass en (f (storeCtrl en ien s))) :=
  respond_next

/-- Everything CTRL_SAM_IN can do. -/
theorem execCtrlSamIn_cases {v : Word} {s t : State} (h : execCtrlSamIn v s = .next t) :
    (s.configured = false ∧ t = complete (.err .notConfigured) s) ∨
    (s.configured = true ∧ nSamples s.cfg < s.sampleIndex + unitSize s.cfg ∧
      t = complete (.err .overCapacity) s) ∨
    (s.configured = true ∧ s.sampleIndex + unitSize s.cfg ≤ nSamples s.cfg ∧
      t = complete .ok (resetPass true (ingest (storeCtrl true (ctrlIen v) s)))) := by
  unfold execCtrlSamIn raise at h
  split at h
  · next hc => exact .inl ⟨by simpa using hc, respond_next.1 h⟩
  · next hc =>
    split at h
    · next ho => exact .inr (.inl ⟨by simpa using hc, by simpa [ingestOverCapacity] using ho, respond_next.1 h⟩)
    · next ho => exact .inr (.inr ⟨by simpa using hc, by simpa [ingestOverCapacity] using ho, acceptCtrl_next.1 h⟩)

/-- Everything CTRL_SAM_OUT can do. -/
theorem execCtrlSamOut_cases {v : Word} {s t : State} (h : execCtrlSamOut v s = .next t) :
    (s.configured = false ∧ t = complete (.err .notConfigured) s) ∨
    (s.configured = true ∧ nSamples s.cfg / 2 ≤ s.resultIndex ∧ t = complete (.err .overCapacity) s) ∨
    (s.configured = true ∧ s.resultIndex < nSamples s.cfg / 2 ∧
      t = complete .ok (resetPass false (drain (storeCtrl false (ctrlIen v) s)))) := by
  unfold execCtrlSamOut raise at h
  split at h
  · next hc => exact .inl ⟨by simpa using hc, respond_next.1 h⟩
  · next hc =>
    split at h
    · next ho => exact .inr (.inl ⟨by simpa using hc, by simpa [drainOverCapacity] using ho, respond_next.1 h⟩)
    · next ho => exact .inr (.inr ⟨by simpa using hc, by simpa [drainOverCapacity] using ho, acceptCtrl_next.1 h⟩)

/-- Everything CTRL_PRC can do. -/
theorem execCtrlPrc_cases {v : Word} {s t : State} (h : execCtrlPrc v s = .next t) :
    (s.configured = false ∧ t = complete (.err .notConfigured) s) ∨
    (s.configured = true ∧
      t = complete .ok (resetPass (ctrlEn v) (process (storeCtrl (ctrlEn v) (ctrlIen v) s)))) := by
  unfold execCtrlPrc raise at h
  split at h
  · next hc => exact .inl ⟨by simpa using hc, respond_next.1 h⟩
  · next hc => exact .inr ⟨by simpa using hc, acceptCtrl_next.1 h⟩

/-- CTRL_SET does one thing. -/
theorem execCtrlSet_next {v : Word} {s t : State} :
    execCtrlSet v s = .next t ↔
      t = complete .ok (resetPass (ctrlEn v) (storeCtrl (ctrlEn v) (ctrlIen v) s)) :=
  acceptCtrl_next

/-- A step with an operation issued answers it. -/
theorem step_of_pending {s : State} {op : Op} {rest : List Op} (h : s.pending = op :: rest) :
    step s = answer op { s with pending := rest } := by
  simp [step, h]

/-- A step with nothing issued waits. -/
theorem step_of_empty {s : State} (h : s.pending = []) : step s = .next s := by
  simp [step, h, waitForHost]

theorem answer_of_instr {op : Op} {i : Instr} (h : decode op = .instr i) (s : State) : answer op s = exec i s := by
  simp [answer, h]

theorem answer_of_invalid {op : Op} {a : InvalidAccess} (h : decode op = .invalid a) (s : State) :
    answer op s = .next (complete (invalidResponse Config.addrMode a.isRead) s) := by
  simp only [answer, h]; rfl

/-- Everything an instruction can do to a state, as one of five shapes. -/
theorem exec_cases {i : Instr} {s t : State} (h : exec i s = .next t) :
    (∃ r, t = complete r s) ∨
    (i = .rdStatus ∧ t = { s with
      status := statusAfterRead s.status, irqPending := false, response := .okData (statusReadValue s.status) }) ∨
    (∃ v, i = .wrCfg0 v ∧ t = { s with cfg := v, configured := true, response := .ok }) ∨
    (∃ v, i = .wrDatain v ∧ t = { s with datainLatch := v, response := .ok }) ∨
    (∃ v, i = .ctrlSet v ∧
      t = complete .ok (resetPass (ctrlEn v) (storeCtrl (ctrlEn v) (ctrlIen v) s))) ∨
    (∃ v, i = .ctrlSamIn v ∧ s.configured = true ∧ s.sampleIndex + unitSize s.cfg ≤ nSamples s.cfg ∧
      t = complete .ok (resetPass true (ingest (storeCtrl true (ctrlIen v) s)))) ∨
    (∃ v, i = .ctrlSamOut v ∧ s.configured = true ∧ s.resultIndex < nSamples s.cfg / 2 ∧
      t = complete .ok (resetPass false (drain (storeCtrl false (ctrlIen v) s)))) ∨
    (∃ v, i = .ctrlPrc v ∧ s.configured = true ∧
      t = complete .ok (resetPass (ctrlEn v) (process (storeCtrl (ctrlEn v) (ctrlIen v) s)))) := by
  cases i with
  | rdStatus => exact .inr (.inl ⟨rfl, respond_next.1 h⟩)
  | wrCfg0 v => exact .inr (.inr (.inl ⟨v, rfl, respond_next.1 h⟩))
  | wrDatain v => exact .inr (.inr (.inr (.inl ⟨v, rfl, respond_next.1 h⟩)))
  | ctrlSet v => exact .inr (.inr (.inr (.inr (.inl ⟨v, rfl, execCtrlSet_next.1 h⟩))))
  | ctrlSamIn v =>
    obtain ⟨-, rfl⟩ | ⟨-, -, rfl⟩ | ⟨hc, ho, rfl⟩ := execCtrlSamIn_cases h
    · exact .inl ⟨_, rfl⟩
    · exact .inl ⟨_, rfl⟩
    · exact .inr (.inr (.inr (.inr (.inr (.inl ⟨v, rfl, hc, ho, rfl⟩)))))
  | ctrlSamOut v =>
    obtain ⟨-, rfl⟩ | ⟨-, -, rfl⟩ | ⟨hc, ho, rfl⟩ := execCtrlSamOut_cases h
    · exact .inl ⟨_, rfl⟩
    · exact .inl ⟨_, rfl⟩
    · exact .inr (.inr (.inr (.inr (.inr (.inr (.inl ⟨v, rfl, hc, ho, rfl⟩))))))
  | ctrlPrc v =>
    obtain ⟨-, rfl⟩ | ⟨hc, rfl⟩ := execCtrlPrc_cases h
    · exact .inl ⟨_, rfl⟩
    · exact .inr (.inr (.inr (.inr (.inr (.inr (.inr ⟨v, rfl, hc, rfl⟩))))))
  | rdDevid => exact .inl ⟨_, respond_next.1 h⟩
  | rdCtrl => exact .inl ⟨_, respond_next.1 h⟩
  | rdCfg0 => exact .inl ⟨_, respond_next.1 h⟩
  | rdDatain => exact .inl ⟨_, respond_next.1 h⟩
  | rdDataout => exact .inl ⟨_, respond_next.1 h⟩
  | wrDevid v => exact .inl ⟨_, respond_next.1 h⟩
  | wrDataout v => exact .inl ⟨_, respond_next.1 h⟩
  | wrStatus v => exact .inl ⟨_, respond_next.1 h⟩

/-- No instruction stops the machine. -/
theorem exec_answers (i : Instr) (s : State) : ∃ t, exec i s = .next t := by
  cases i with
  | ctrlSamIn v => simp only [exec, execCtrlSamIn]; split <;> [skip; split] <;> exact ⟨_, rfl⟩
  | ctrlSamOut v => simp only [exec, execCtrlSamOut]; split <;> [skip; split] <;> exact ⟨_, rfl⟩
  | ctrlPrc v => simp only [exec, execCtrlPrc]; split <;> exact ⟨_, rfl⟩
  | rdDevid => exact ⟨_, rfl⟩
  | rdCtrl => exact ⟨_, rfl⟩
  | rdCfg0 => exact ⟨_, rfl⟩
  | rdDatain => exact ⟨_, rfl⟩
  | rdDataout => exact ⟨_, rfl⟩
  | rdStatus => exact ⟨_, rfl⟩
  | wrDevid v => exact ⟨_, rfl⟩
  | ctrlSet v => exact ⟨_, rfl⟩
  | wrCfg0 v => exact ⟨_, rfl⟩
  | wrDatain v => exact ⟨_, rfl⟩
  | wrDataout v => exact ⟨_, rfl⟩
  | wrStatus v => exact ⟨_, rfl⟩

/-- Every CTRL write decodes to a command of its value. -/
theorem decode_ctrlWrite (v : Word) : decode (.write 0x04 4 v) = .instr (decodeCtrl v) := by
  simp [decode, wellShaped, decodeWrite]

/-- Everything a CTRL write can do: two refusals and four commands (41_ctrl_commands.md R85). -/
theorem ctrlWrite_cases {v : Word} {s t : State} (h : exec (decodeCtrl v) s = .next t) :
    ((ctrlSam v = true ∨ ctrlPrcBit v = true) ∧ s.configured = false ∧ t = complete (.err .notConfigured) s) ∨
    (ctrlSam v = true ∧ s.configured = true ∧
      (ctrlEn v = true ∧ nSamples s.cfg < s.sampleIndex + unitSize s.cfg ∨
        ctrlEn v = false ∧ nSamples s.cfg / 2 ≤ s.resultIndex) ∧ t = complete (.err .overCapacity) s) ∨
    (ctrlSam v = true ∧ s.configured = true ∧ ctrlEn v = true ∧ s.sampleIndex + unitSize s.cfg ≤ nSamples s.cfg ∧
      t = complete .ok (resetPass true (ingest (storeCtrl true (ctrlIen v) s)))) ∨
    (ctrlSam v = true ∧ s.configured = true ∧ ctrlEn v = false ∧ s.resultIndex < nSamples s.cfg / 2 ∧
      t = complete .ok (resetPass false (drain (storeCtrl false (ctrlIen v) s)))) ∨
    (ctrlSam v = false ∧ ctrlPrcBit v = true ∧ s.configured = true ∧
      t = complete .ok (resetPass (ctrlEn v) (process (storeCtrl (ctrlEn v) (ctrlIen v) s)))) ∨
    (ctrlSam v = false ∧ ctrlPrcBit v = false ∧
      t = complete .ok (resetPass (ctrlEn v) (storeCtrl (ctrlEn v) (ctrlIen v) s))) := by
  unfold decodeCtrl at h
  split at h
  · next h2 =>
    split at h
    · next h0 =>
      obtain ⟨hc, rfl⟩ | ⟨hc, ho, rfl⟩ | ⟨hc, ho, rfl⟩ := execCtrlSamIn_cases h
      · exact .inl ⟨.inl h2, hc, rfl⟩
      · exact .inr (.inl ⟨h2, hc, .inl ⟨h0, ho⟩, rfl⟩)
      · exact .inr (.inr (.inl ⟨h2, hc, h0, ho, rfl⟩))
    · next h0 =>
      have h0 : ctrlEn v = false := by simpa using h0
      obtain ⟨hc, rfl⟩ | ⟨hc, ho, rfl⟩ | ⟨hc, ho, rfl⟩ := execCtrlSamOut_cases h
      · exact .inl ⟨.inl h2, hc, rfl⟩
      · exact .inr (.inl ⟨h2, hc, .inr ⟨h0, ho⟩, rfl⟩)
      · exact .inr (.inr (.inr (.inl ⟨h2, hc, h0, ho, rfl⟩)))
  · next h2 =>
    have h2 : ctrlSam v = false := by simpa using h2
    split at h
    · next h3 =>
      obtain ⟨hc, rfl⟩ | ⟨hc, rfl⟩ := execCtrlPrc_cases h
      · exact .inl ⟨.inr h3, hc, rfl⟩
      · exact .inr (.inr (.inr (.inr (.inl ⟨h2, h3, hc, rfl⟩))))
    · next h3 =>
      exact .inr (.inr (.inr (.inr (.inr ⟨h2, by simpa using h3, execCtrlSet_next.1 h⟩))))

/-- Everything one operation can do to a state. -/
theorem answer_cases {op : Op} {s t : State} (h : answer op s = .next t) :
    (op = .reset ∧ t = { State.reset with sampleBuffer := s.sampleBuffer.afterReset, pending := s.pending }) ∨
    (∃ v, op = .write 0x04 4 v ∧ exec (decodeCtrl v) s = .next t) ∨
    (op = .read 0x14 4 ∧ exec .rdStatus s = .next t) ∨
    (op ≠ .reset ∧ (∀ v, op ≠ .write 0x04 4 v) ∧ op ≠ .read 0x14 4 ∧
      ((∃ v, op = .write 0x08 4 v ∧ t = complete .ok { s with cfg := v, configured := true }) ∨
       (∃ v, op = .write 0x0C 4 v ∧ t = complete .ok { s with datainLatch := v }) ∨
       (∃ r, t = complete r s ∧ r ≠ .err .notConfigured ∧ r ≠ .err .overCapacity ∧
         r ≠ .err .unsupportedSampleCount))) := by
  cases op with
  | reset => left; cases h; exact ⟨rfl, rfl⟩
  | read off size =>
    by_cases h14 : off = 0x14 ∧ size = 4
    · obtain ⟨rfl, rfl⟩ := h14
      right; right; left; exact ⟨rfl, h⟩
    · right; right; right
      refine ⟨by simp, by simp, by simpa using h14, ?_⟩
      right; right
      have h0 := invalidResponse_kinds Config.addrMode
      simp only [answer, decode] at h
      by_cases hw : wellShaped off size = true
      · rw [if_pos hw] at h
        have hs : size = 4 := by simp [wellShaped] at hw; exact hw.1
        subst hs
        unfold decodeRead at h
        split_ifs at h <;> simp only [exec, execRdDevid, execRdCtrl, execRdCfg0, execRdDatain, execRdDataout, rejectAccess, invalidAccess, respond_next] at h
        · exact ⟨_, h, by simp⟩
        · exact ⟨_, h, by simp⟩
        · exact ⟨_, h, by simp⟩
        · exact ⟨_, h, h0 _⟩
        · exact ⟨_, h, by simp⟩
        · simp_all
        · exact ⟨_, h, h0 _⟩
      · rw [if_neg hw] at h
        simp only [rejectAccess, invalidAccess, respond_next] at h
        exact ⟨_, h, h0 _⟩
  | write off size v =>
    by_cases h14 : off = 4 ∧ size = 4
    · obtain ⟨rfl, rfl⟩ := h14
      right; left; exact ⟨v, rfl, by rwa [answer_of_instr (decode_ctrlWrite v)] at h⟩
    · right; right; right
      refine ⟨by simp, by simpa using h14, by simp, ?_⟩
      have h0 := invalidResponse_kinds Config.addrMode
      simp only [answer, decode] at h
      by_cases hw : wellShaped off size = true
      · rw [if_pos hw] at h
        have hs : size = 4 := by simp [wellShaped] at hw; exact hw.1
        subst hs
        unfold decodeWrite at h
        split_ifs at h <;> simp only [exec, execWrDevid, execWrDataout, execWrStatus, execWrCfg0, execWrDatain, rejectAccess, invalidAccess, respond_next] at h
        · exact .inr (.inr ⟨_, h, h0 _⟩)
        · simp_all
        · left; exact ⟨v, by simp_all, h⟩
        · right; left; exact ⟨v, by simp_all, h⟩
        · exact .inr (.inr ⟨_, h, h0 _⟩)
        · exact .inr (.inr ⟨_, h, h0 _⟩)
        · exact .inr (.inr ⟨_, h, h0 _⟩)
      · rw [if_neg hw] at h
        simp only [rejectAccess, invalidAccess, respond_next] at h
        exact .inr (.inr ⟨_, h, h0 _⟩)

end Sys2Proof.Machine
end

