-- ==== Sys2Proof/Laws/Transform.lean ====
section
/-! SUPPORT. Sizes of the transform's sequences, the bounds of `n_samples`, the extremes and the rescale. -/

namespace Sys2Proof.Machine

/-! ### `n_samples` -/

theorem selector_lt (cfg : Word) : selector cfg < 8 := by
  rw [selector_eq]
  exact Nat.mod_lt _ (by norm_num)

theorem log2Samples_bounds (cfg : Word) : 4 ≤ log2Samples cfg ∧ log2Samples cfg ≤ 11 := by
  have := selector_lt cfg
  unfold log2Samples
  omega

theorem nSamples_bounds (cfg : Word) : 16 ≤ nSamples cfg ∧ nSamples cfg ≤ 2048 := by
  obtain ⟨h₁, h₂⟩ := log2Samples_bounds cfg
  exact ⟨Nat.pow_le_pow_right (n := 2) (by omega) h₁, Nat.pow_le_pow_right (n := 2) (by omega) h₂⟩

theorem unitSize_bounds (cfg : Word) : 1 ≤ unitSize cfg ∧ unitSize cfg ≤ 2 := by
  unfold unitSize; split <;> omega

/-! ### Sizes -/

@[simp] theorem loadSamples_length (L : Nat) (x : List Word) : (loadSamples L x).length = 2 ^ L := by
  simp [loadSamples]

@[simp] theorem butterfly_length (w : List Cplx) (N stage : Nat) (d : List Cplx) (i : Nat) :
    (butterfly w N stage d i).length = d.length := by
  simp [butterfly]

theorem foldl_keeps_length {α β : Type} (f : List α → β → List α) (hf : ∀ d i, (f d i).length = d.length)
    (is : List β) (d : List α) : (is.foldl f d).length = d.length := by
  induction is generalizing d with
  | nil => rfl
  | cons i is ih => rw [List.foldl_cons, ih, hf]

@[simp] theorem pass_length (w : List Cplx) (N stage : Nat) (d : List Cplx) : (pass w N stage d).length = d.length := by
  refine foldl_keeps_length _ (fun d i => ?_) _ _
  split <;> simp

@[simp] theorem passes_length (w : List Cplx) (L : Nat) (d : List Cplx) : (passes w L d).length = d.length :=
  foldl_keeps_length _ (fun d t => pass_length w (2 ^ L) (2 ^ t) d) _ _

@[simp] theorem magnitudes_length (L : Nat) (x : List Word) : (magnitudes L x).length = 2 ^ L := by
  simp [magnitudes]

@[simp] theorem rescale_length (s16 : Bool) (ms : List Nat) : (rescale s16 ms).length = ms.length := by
  simp [rescale]

@[simp] theorem transform_length (L : Nat) (s16 : Bool) (x : List Word) : (transform L s16 x).length = 2 ^ L := by
  simp [transform]

@[simp] theorem twiddlesFrom_length (w1 : Cplx) (n : Nat) (w : Cplx) : (twiddlesFrom w1 n w).length = n := by
  induction n generalizing w with
  | zero => rfl
  | succ n ih => simp [twiddlesFrom, ih]

/-- The table has `N/2` entries (R122). -/
theorem twiddles_length (L : Nat) : (twiddles L).length = 2 ^ (L - 1) := by
  have := Nat.two_pow_pos (L - 1)
  simp only [twiddles, List.length_cons, twiddlesFrom_length]
  omega

/-! ### Extremes -/

theorem foldl_min_le (ms : List Nat) (a : Nat) : ms.foldl min a ≤ a ∧ ∀ m ∈ ms, ms.foldl min a ≤ m := by
  induction ms generalizing a with
  | nil => simp
  | cons m ms ih =>
    obtain ⟨h₁, h₂⟩ := ih (min a m)
    simp only [List.foldl_cons, List.mem_cons, forall_eq_or_imp]
    exact ⟨by omega, by omega, h₂⟩

theorem foldl_min_mem (ms : List Nat) (a : Nat) : ms.foldl min a = a ∨ ms.foldl min a ∈ ms := by
  induction ms generalizing a with
  | nil => simp
  | cons m ms ih =>
    rw [List.foldl_cons]
    rcases ih (min a m) with h | h
    · by_cases ham : a ≤ m
      · left; rw [h]; omega
      · right; rw [h]; simp; omega
    · right; simp [h]

theorem foldl_max_ge (ms : List Nat) (a : Nat) : a ≤ ms.foldl max a ∧ ∀ m ∈ ms, m ≤ ms.foldl max a := by
  induction ms generalizing a with
  | nil => simp
  | cons m ms ih =>
    obtain ⟨h₁, h₂⟩ := ih (max a m)
    simp only [List.foldl_cons, List.mem_cons, forall_eq_or_imp]
    exact ⟨by omega, by omega, h₂⟩

theorem foldl_max_mem (ms : List Nat) (a : Nat) : ms.foldl max a = a ∨ ms.foldl max a ∈ ms := by
  induction ms generalizing a with
  | nil => simp
  | cons m ms ih =>
    rw [List.foldl_cons]
    rcases ih (max a m) with h | h
    · by_cases ham : m ≤ a
      · left; rw [h]; omega
      · right; rw [h]; simp; omega
    · right; simp [h]

/-! ### The rescale -/

theorem fullScale_pos (s16 : Bool) : 0 < fullScale s16 := by cases s16 <;> decide

theorem fullScale_le (s16 : Bool) : fullScale s16 ≤ 32 := by cases s16 <;> decide

/-- The rescaled value of a magnitude that is not above the greatest. -/
theorem rescaleOne_le (s16 : Bool) {lo hi m : Nat} (h : m ≤ hi) : rescaleOne s16 lo hi m ≤ fullScale s16 := by
  unfold rescaleOne
  split
  · omega
  · exact Nat.div_le_of_le_mul (Nat.mul_le_mul_right _ (by omega))

@[simp] theorem rescaleOne_lo (s16 : Bool) {lo hi : Nat} (h : lo ≠ hi) : rescaleOne s16 lo hi lo = 0 := by
  simp [rescaleOne, h]

theorem rescaleOne_hi (s16 : Bool) {lo hi : Nat} (h : lo < hi) : rescaleOne s16 lo hi hi = fullScale s16 := by
  rw [rescaleOne, if_neg (by omega)]
  exact Nat.mul_div_cancel_left _ (by omega)

/-! ### The buffer after the transform -/

/-- Entries at and beyond `n_samples` keep their value. -/
theorem transformBuffer_read_outside (cfg : Word) (b : Memory) {k : Nat} (h : nSamples cfg ≤ k) :
    (transformBuffer cfg b).read k = b.read k :=
  Memory.read_writeMany_outside _ _ (.inr (by simpa [nSamples] using h))

/-- Entry `k` below `n_samples` holds the transform's output. -/
theorem transformBuffer_read_inside (cfg : Word) (b : Memory) {k : Nat} (h : k < nSamples cfg) :
    (transformBuffer cfg b).read k =
      (transform (log2Samples cfg) (smode cfg) (b.firstEntries (nSamples cfg)))[k]'(by simpa [nSamples] using h) := by
  have := Memory.read_writeMany_inside (transform (log2Samples cfg) (smode cfg) (b.firstEntries (nSamples cfg))) b 0 k
    (by simpa [nSamples] using h)
  simpa [transformBuffer] using this

theorem transformBuffer_wf (cfg : Word) {b : Memory} (h : b.wf = true) : (transformBuffer cfg b).wf = true :=
  Memory.wf_writeMany _ (by simpa [Config.maxSamples, nSamples] using (nSamples_bounds cfg).2) h

/-- An ingestion that passes the capacity check stays inside the buffer. -/
theorem ingestBuffer_wf (cfg d : Word) {b : Memory} {si : Nat} (hc : si + unitSize cfg ≤ nSamples cfg)
    (h : b.wf = true) : (ingestBuffer cfg d b si).wf = true := by
  have hn := (nSamples_bounds cfg).2
  have hm : Config.maxSamples = 2048 := rfl
  unfold ingestBuffer unitSize at *
  split
  · simp_all; exact Memory.wf_write (by omega) _ (Memory.wf_write (by omega) _ h)
  · simp_all; exact Memory.wf_write (by omega) _ h

@[simp] theorem ingestBuffer_epoch (cfg d : Word) (b : Memory) (si : Nat) : (ingestBuffer cfg d b si).epoch = b.epoch := by
  unfold ingestBuffer; split <;> rfl

@[simp] theorem transformBuffer_epoch (cfg : Word) (b : Memory) : (transformBuffer cfg b).epoch = b.epoch :=
  Memory.writeMany_epoch _ _ _

/-- Entries outside the ingested unit keep their value. -/
theorem ingestBuffer_read_outside (cfg d : Word) (b : Memory) {si k : Nat} (h : k < si ∨ si + unitSize cfg ≤ k) :
    (ingestBuffer cfg d b si).read k = b.read k := by
  unfold ingestBuffer unitSize at *
  split
  · simp_all; rw [Memory.read_write_other _ (by omega), Memory.read_write_other _ (by omega)]
  · simp_all; rw [Memory.read_write_other _ (by omega)]

end Sys2Proof.Machine
end

