-- ==== Sys2Proof/Tests/Slice0.lean ====
section
/-! SUPPORT. The model's own tests. Expected values come from 95_test_vectors.md and from the encodings of
30_encoding.md; a test named `T-..` in its comment is that vector. Then a witness for the hypotheses of each statement
of Obligations.lean that has some. -/

namespace Sys2Proof.Tests

open Sys2Proof.Machine

set_option maxRecDepth 20000
set_option exponentiation.threshold 2000

/-! ### Helpers -/

/-- Whether an outcome is a next state with a property. -/
def gives (o : Host.Outcome State Fault Refusal) (p : State → Bool) : Bool :=
  match o with
  | .next t => p t
  | .fault _ => false
  | .refused _ => false

/-- A configured device in 32-bit mode with 16 samples; `0xDEADBEEF` stands in for `DEVID_VALUE`. -/
def dev : State :=
  { State.reset with id := 0xDEADBEEF, configured := true, status := 0, response := .okData 0x99 }

/-- One step on the operation word `w`. -/
def run (w : Nat) (s : State) (p : State → Bool) : Bool := gives (step (s.withFetchWord 41 w)) p

/-- The buffer entries from 0 on. -/
def listed (vs : List Word) : Memory := (⟨0, []⟩ : Memory).writeMany 0 vs

/-! ### WellFormed: an ill-formed term for each check -/

theorem test_samIn_needs_sam : (Instr.ctrlSamIn 0x1).wellFormed = false := by decide
theorem test_samIn_needs_en : (Instr.ctrlSamIn 0x4).wellFormed = false := by decide
theorem test_samOut_needs_sam : (Instr.ctrlSamOut 0x8).wellFormed = false := by decide
theorem test_samOut_needs_no_en : (Instr.ctrlSamOut 0x5).wellFormed = false := by decide
theorem test_prc_needs_prc : (Instr.ctrlPrc 0x3).wellFormed = false := by decide
theorem test_prc_needs_no_sam : (Instr.ctrlPrc 0xC).wellFormed = false := by decide
theorem test_set_needs_no_sam : (Instr.ctrlSet 0x4).wellFormed = false := by decide
theorem test_set_needs_no_prc : (Instr.ctrlSet 0x8).wellFormed = false := by decide
theorem test_legal_needs_size_4 : (Op.read 0x14 1).legal = false ∧ (Op.write 0x04 2 1).legal = false := by decide
theorem test_legal_needs_mapped : (Op.read 0x18 4).legal = false ∧ (Op.write 0x06 4 1).legal = false := by decide

/-! ### Decoding words written out from 30_encoding.md: write bit 40, offset bits 39:32, data bits 31:0 -/

theorem test_decode_reads :
    decodeTableWord 41 0b0_00000000_00000000000000000000000000000000 = some .rdDevid ∧
    decodeTableWord 41 0b0_00000100_00000000000000000000000000000000 = some .rdCtrl ∧
    decodeTableWord 41 0b0_00001000_00000000000000000000000000000000 = some .rdCfg0 ∧
    decodeTableWord 41 0b0_00001100_00000000000000000000000000000000 = some .rdDatain ∧
    decodeTableWord 41 0b0_00010000_00000000000000000000000000000000 = some .rdDataout ∧
    decodeTableWord 41 0b0_00010100_00000000000000000000000000000000 = some .rdStatus := by decide

theorem test_decode_writes :
    decodeTableWord 41 0b1_00000000_00000000000000000000000000000001 = some (.wrDevid 1) ∧
    decodeTableWord 41 0b1_00001000_00000000000000000000000000000111 = some (.wrCfg0 7) ∧
    decodeTableWord 41 0b1_00001100_00010010001101000101011001111000 = some (.wrDatain 0x12345678) ∧
    decodeTableWord 41 0b1_00010000_00000000000000000000000000000111 = some (.wrDataout 7) ∧
    decodeTableWord 41 0b1_00010100_00000000000000000000000000000000 = some (.wrStatus 0) := by decide

theorem test_decode_ctrl :
    decodeTableWord 41 0b1_00000100_00000000000000000000000000000101 = some (.ctrlSamIn 5) ∧
    decodeTableWord 41 0b1_00000100_00000000000000000000000000001101 = some (.ctrlSamIn 0xD) ∧
    decodeTableWord 41 0b1_00000100_00000000000000000000000000001100 = some (.ctrlSamOut 0xC) ∧
    decodeTableWord 41 0b1_00000100_00000000000000000000000000001001 = some (.ctrlPrc 9) ∧
    decodeTableWord 41 0b1_00000100_11111111111111111111111111110001 = some (.ctrlSet 0xFFFFFFF1) := by decide

/-- The data field of a read is ignored; an unmapped, misaligned or overlong word is no instruction. -/
theorem test_decode_edges :
    decodeTableWord 41 0x014FFFFFFFF = some .rdStatus ∧ decodeTableWord 41 0x01800000000 = none ∧
    decodeTableWord 41 0x00600000000 = none ∧ decodeTableWord 41 0x11800000001 = none ∧
    decodeTableWord 48 0x201400000000 = none ∧ decodeTableWord 48 0x010400000005 = some (.ctrlSamIn 5) := by decide

theorem test_decode_bad_access :
    decode (.write 0x04 2 1) = .invalid .badWrite ∧ decode (.read 0x14 1) = .invalid .badRead ∧
    decode (.read 0x06 4) = .invalid .badRead ∧ decode (.read 0xFC 4) = .invalid .rdUnmapped ∧
    decode (.write 0x18 4 1) = .invalid .wrUnmapped := by decide

/-! ### Reads -/

/-- T-RD-7 (P3 step 2) -/
theorem test_rdDevid : run 0x00000000000 dev (fun t => t.response == .okData 0xDEADBEEF) = true := by decide

/-- T-RD-4 -/
theorem test_rdCtrl : run 0x00400000000 { dev with ctrl := 3 } (fun t => t.response == .okData 3 && t.ctrl == 3) = true := by
  decide

/-- T-RD-5 -/
theorem test_rdCfg0 :
    run 0x00800000000 { dev with cfg := 0xABCD000F }
      (fun t => t.response == .okData 0xABCD000F && nSamples t.cfg == 2048 && smode t.cfg) = true := by decide

/-- T-RD-6 -/
theorem test_rdDataout :
    run 0x01000000000 { dev with dataoutLatch := 0x20, resultIndex := 3 }
      (fun t => t.response == .okData 0x20 && t.resultIndex == 3) = true := by decide

/-- T-RD-1 -/
theorem test_rdStatus_clears :
    run 0x01400000000 { dev with ctrl := 3, sampleIndex := 16, status := 0x0F, irqPending := true }
      (fun t => t.response == .okData 0x0F && t.status == 0x08 && !t.irqPending && t.ctrl == 3 && t.sampleIndex == 16) =
      true := by decide

/-- T-RD-3 -/
theorem test_rdStatus_keeps_empty :
    run 0x01400000000 { dev with ctrl := 2, status := 0x17, irqPending := true }
      (fun t => t.response == .okData 0x17 && t.status == 0x10 && !t.irq) = true := by decide

/-! ### Invalid accesses -/

/-- T-RD-9, T-WR-6, T-WR-8, T-E-1: strict mode -/
theorem test_invalid_strict :
    invalidResponse .strict true = .err .invalidOffset ∧ invalidResponse .strict false = .err .invalidOffset := by decide

/-- T-RD-10, T-WR-7, T-WR-9: permissive mode -/
theorem test_invalid_permissive : invalidResponse .permissive true = .okData 0 ∧ invalidResponse .permissive false = .ok := by
  decide

/-- The codes of 60_exceptions.md section 1 -/
theorem test_codes :
    Response.code .ok = 0 ∧ Response.code (.okData 7) = 0 ∧ ErrKind.invalidOffset.code = 1 ∧
    ErrKind.notConfigured.code = 2 ∧ ErrKind.overCapacity.code = 3 ∧ ErrKind.unsupportedSampleCount.code = 4 := by decide

/-- T-RD-9, T-RD-10: the latch is not readable and stays -/
theorem test_rdDatain : run 0x00C00000000 { dev with datainLatch := 0x55 } (fun t => t.datainLatch == 0x55) = true := by decide

/-- T-WR-6, T-WR-7: in particular a STATUS write clears nothing -/
theorem test_wrStatus :
    run 0x11400000000 { dev with status := 0x1F, irqPending := true } (fun t => t.status == 0x1F && t.irq) = true := by decide

theorem test_wrDevid : run 0x10000000001 dev (fun t => t.id == 0xDEADBEEF) = true := by decide

theorem test_wrDataout : run 0x11000000007 { dev with dataoutLatch := 5 } (fun t => t.dataoutLatch == 5) = true := by decide

/-! ### Plain writes -/

/-- T-WR-3 -/
theorem test_wrCfg0_stores_all_bits :
    run 0x108FFFFFFF0 State.reset
      (fun t => t.response == .ok && t.cfg == 0xFFFFFFF0 && nSamples t.cfg == 16 && !smode t.cfg && t.configured) = true := by
  decide

/-- T-WR-4 -/
theorem test_wrCfg0_keeps_the_session :
    run 0x10800000006 { dev with ctrl := 1, sampleIndex := 5, status := 0x02 }
      (fun t => nSamples t.cfg == 128 && t.sampleIndex == 5 && t.status == 0x02 && t.ctrl == 1) = true := by decide

/-- T-WR-5 -/
theorem test_wrDatain :
    run 0x10C12345678 dev (fun t => t.datainLatch == 0x12345678 && t.sampleBuffer == dev.sampleBuffer && t.status == 0) =
      true := by decide

/-- The selector table of 95_test_vectors.md section 2.2 -/
theorem test_selector_table :
    (List.range 8).map (fun sel => nSamples (BitVec.ofNat 32 (sel * 2))) = [16, 32, 64, 128, 256, 512, 1024, 2048] := by decide

/-! ### CTRL commands -/

/-- T-C-1 -/
theorem test_ctrlSet_disable :
    run 0x10400000000 { dev with ctrl := 1, sampleIndex := 5, status := 0x02 }
      (fun t => t.ctrl == 0 && t.sampleIndex == 0 && t.status == 0x03) = true := by decide

/-- T-C-2 -/
theorem test_ctrlSet_enable :
    run 0x10400000001 { dev with resultIndex := 8, status := 0x10 }
      (fun t => t.ctrl == 1 && t.resultIndex == 0 && t.status == 0x00) = true := by decide

/-- T-C-4, with the interrupt of T-I-5 (IEN in the same value) -/
theorem test_ctrlSamIn_last_sample :
    run 0x10400000007 { dev with ctrl := 3, sampleIndex := 15, datainLatch := 0xFFFFFE81 }
      (fun t => t.sampleBuffer.read 15 == 0xFFFFFE81 && t.sampleIndex == 16 && t.status == 0x0A && t.irq && t.ctrl == 3) =
      true := by decide

/-- T-SC-3: low half first, zero-extended -/
theorem test_ctrlSamIn_halfwords :
    run 0x10400000005 { dev with cfg := 1, ctrl := 1, sampleIndex := 4, datainLatch := 0xFFFF8000 }
      (fun t => t.sampleBuffer.read 4 == 0x8000 && t.sampleBuffer.read 5 == 0xFFFF && t.sampleIndex == 6 && !t.irq) = true := by
  decide

/-- T-C-12: SAM wins over PRC, as a drain -/
theorem test_ctrlSamOut_first_result :
    run 0x1040000000C { dev with ctrl := 1, sampleIndex := 3, sampleBuffer := listed [7, 8, 9] }
      (fun t => t.ctrl == 0 && t.dataoutLatch == 7 && t.resultIndex == 1 && t.sampleIndex == 0 && t.status == 0x03 &&
        t.sampleBuffer == listed [7, 8, 9]) = true := by decide

/-- T-I-6 -/
theorem test_ctrlSamOut_last_result :
    run 0x10400000006 { dev with ctrl := 2, resultIndex := 7, sampleBuffer := listed [0, 1, 2, 3, 4, 5, 6, 7] }
      (fun t => t.dataoutLatch == 7 && t.resultIndex == 8 && t.status == 0x13 && t.irq) = true := by decide

/-- T-C-16, the state but for the buffer's contents -/
theorem test_ctrlPrc_disable :
    run 0x10400000008 { dev with ctrl := 1, sampleIndex := 16, status := 0x08 }
      (fun t => t.ctrl == 0 && t.sampleIndex == 0 && t.status == 0x05 && t.response == .ok) = true := by decide

/-- T-C-22, the state but for the buffer's contents; IEN as in P4 step 12 -/
theorem test_ctrlPrc_early :
    run 0x1040000000B { dev with ctrl := 3, sampleIndex := 2 }
      (fun t => t.status == 0x04 && t.sampleIndex == 2 && t.irq) = true := by decide

/-- T-E-2, T-E-3: a refused command stores nothing -/
theorem test_refused_commands :
    run 0x10400000005 State.reset (fun t => t.response == .err .notConfigured && t.ctrl == 0) = true ∧
    run 0x10400000008 State.reset (fun t => t.response == .err .notConfigured && t.status == 0x01) = true ∧
    run 0x10400000007 { dev with ctrl := 1, sampleIndex := 16 }
      (fun t => t.response == .err .overCapacity && t.ctrl == 1) = true ∧
    run 0x10400000005 { dev with cfg := 1, ctrl := 1, sampleIndex := 15 }
      (fun t => t.response == .err .overCapacity && t.sampleIndex == 15) = true ∧
    run 0x10400000004 { dev with resultIndex := 8, status := 0x10, dataoutLatch := 3 }
      (fun t => t.response == .err .overCapacity && t.dataoutLatch == 3) = true := by decide

/-- T-RS-1: the hard reset -/
theorem test_hardReset :
    gives (step { dev with pending := [.reset], ctrl := 3, cfg := 1, sampleIndex := 6, irqPending := true })
      (fun t => t.ctrl == 0 && t.cfg == 0 && !t.configured && t.status == 0x01 && t.sampleIndex == 0 && !t.irq &&
        t.sampleBuffer == ⟨1, []⟩) = true := by decide

/-! ### The transform (vectors of 95_test_vectors.md section 2.5) -/

/-- T-XF-6, the magnitudes -/
theorem test_magnitudes_of_a_ramp :
    magnitudes 4 [0, 100, 200, 300, 400, 500, 600, 700, 800, 900, 1000, 1100, 1200, 1300, 1400, 1500] =
      [12000, 4100, 2090, 1439, 1131, 962, 865, 815, 800, 815, 865, 962, 1131, 1439, 2090, 4100] := by decide

/-- T-XF-6, the outputs in both modes -/
theorem test_rescale_of_a_ramp :
    rescale true [12000, 4100, 2090, 1439, 1131, 962, 865, 815, 800, 815, 865, 962, 1131, 1439, 2090, 4100] =
      [32, 9, 3, 1, 0, 0, 0, 0, 0, 0, 0, 0, 0, 1, 3, 9] ∧
    rescale false [12000, 4100, 2090, 1439, 1131, 962, 865, 815, 800, 815, 865, 962, 1131, 1439, 2090, 4100] =
      [16, 4, 1, 0, 0, 0, 0, 0, 0, 0, 0, 0, 0, 0, 1, 4] := by decide

/-- T-XF-3: a constant input is not degenerate -/
theorem test_transform_of_a_constant :
    transform 4 false (List.replicate 16 0xFFFFFFFB) = 16 :: List.replicate 15 0 := by decide

/-- T-XF-5 (a): an impulse at index 1 -/
theorem test_magnitudes_of_an_impulse :
    magnitudes 4 (0 :: 1 :: List.replicate 14 0) = [1, 1, 1, 0, 1, 1, 1, 1, 1, 1, 1, 0, 1, 1, 1, 1] := by decide

/-- The arrays of T-XF-1 before the first pass -/
theorem test_loadSamples_of_a_sinusoid :
    (loadSamples 4 [0, 383, 707, 924, 1000, 924, 707, 383, 0, 0xFFFFFE81, 0xFFFFFD3D, 0xFFFFFC64, 0xFFFFFC18, 0xFFFFFC64,
      0xFFFFFD3D, 0xFFFFFE81]).map (fun z => f2i z.re) =
      [0, 0, 1000, -1000, 707, -707, 707, -707, 383, -383, 924, -924, 924, -924, 383, -383] := by decide

/-- Single operations on 64-bit patterns: 0.1 + 0.2, 1 - 0.9, 1/3, sqrt 2, (-1) * 0, the least subnormal halved, overflow -/
theorem test_binary64 :
    (fadd (.ofBits 0x3FB999999999999A) (.ofBits 0x3FC999999999999A)).toBits = 0x3FD3333333333334 ∧
    (fsub (.ofBits 0x3FF0000000000000) (.ofBits 0x3FECCCCCCCCCCCCD)).toBits = 0x3FB9999999999998 ∧
    (fdiv (i2f 1) (i2f 3)).toBits = 0x3FD5555555555555 ∧ (fsqrt (i2f 2)).toBits = 0x3FF6A09E667F3BCD ∧
    (fmul (i2f (-1)) (i2f 0)).toBits = 0x8000000000000000 ∧
    (fdiv (.ofBits 0x0000000000000001) (i2f 2)).toBits = 0x0000000000000000 ∧
    (fadd (.ofBits 0x7FEFFFFFFFFFFFFF) (.ofBits 0x7FEFFFFFFFFFFFFF)).toBits = 0x7FF0000000000000 ∧
    f2i (.ofBits 0xC00E666666666666) = -3 := by decide

/-! ### Witnesses: a state and operands that meet the hypotheses of each statement, at the bounds of each clause -/

/-- The invariant but for `id`, as a check. -/
def invCheck (s : State) : Bool :=
  s.sampleBuffer.wf && decide (s.sampleIndex ≤ 2048) && decide (s.resultIndex ≤ 1024) && (!s.full || s.en) &&
  (!s.empty || !s.en) && (!s.en || s.resultIndex == 0) && (s.en || s.sampleIndex == 0) &&
  (s.configured || (s.cfg == 0 && s.sampleIndex == 0 && s.resultIndex == 0))

theorem inv_of_check {s : State} (hid : s.id = Config.devidValue) (h : invCheck s = true) : s.Inv := by
  simp only [invCheck, Bool.and_eq_true, Bool.or_eq_true, Bool.not_eq_true', decide_eq_true_eq, beq_iff_eq] at h
  obtain ⟨⟨⟨⟨⟨⟨⟨hw, hs⟩, hr⟩, hf⟩, he⟩, hen⟩, hdis⟩, hc⟩ := h
  exact ⟨hid, hw, hs, hr, fun x => hf.resolve_left (by simp [x]), fun x => he.resolve_left (by simp [x]),
    fun x => hen.resolve_left (by simp [x]), fun x => hdis.resolve_left (by simp [x]),
    fun x => by have := hc.resolve_left (by simp [x]); exact ⟨this.1.1, this.1.2, this.2⟩⟩

/-- A configured device that satisfies the invariant. -/
def real : State := { State.reset with configured := true }

theorem witness_DecodingAnEncodedInstructionGivesItBack :
    (Instr.ctrlPrc 0xFFFFFFFB).wellFormed = true ∧ (Instr.ctrlSamOut 4).wellFormed = true := by decide

theorem witness_OpcodeTableIsExactlyTheDecoder :
    (⟨"CTRL_PRC", 0x10400000008, 0x1FF0000000C⟩ : OpcodeRow) ∈ opcodeTable := by decide

theorem witness_LegalAccessesAreExactlyTheInstructions :
    Op.read 0x14 4 ≠ .reset ∧ (Op.read 0x14 4).legal = true ∧ (Op.write 0x00 4 1).legal = true ∧
    (Op.read 0x18 4).legal = false ∧ (Op.write 0x14 5 1).legal = false := by decide

theorem witness_CtrlValueSelectsTheCommand :
    ((0xD : Word).getLsbD 2 = true ∧ (0xD : Word).getLsbD 0 = true) ∧
    ((0xC : Word).getLsbD 2 = true ∧ (0xC : Word).getLsbD 0 = false) ∧
    ((0x9 : Word).getLsbD 2 = false ∧ (0x9 : Word).getLsbD 3 = true) ∧
    ((0xFFFFFFF3 : Word).getLsbD 2 = false ∧ (0xFFFFFFF3 : Word).getLsbD 3 = false) := by decide

theorem witness_StepAnswersTheOldestOperation :
    (∃ s : State, s.pending = [.read 0x14 4] ∧ decode (.read 0x14 4) = .instr .rdStatus) ∧
    (∃ s : State, s.pending = [.reset, .read 0 4]) ∧
    (∃ s : State, s.pending = [.read 0x18 4] ∧ decode (.read 0x18 4) = .invalid .rdUnmapped) ∧
    (∃ s : State, s.pending = []) :=
  ⟨⟨{ dev with pending := [.read 0x14 4] }, rfl, by decide⟩, ⟨{ dev with pending := [.reset, .read 0 4] }, rfl⟩,
    ⟨{ dev with pending := [.read 0x18 4] }, rfl, by decide⟩, ⟨dev, rfl⟩⟩

theorem witness_ResetOperationRestoresEveryElement : ∃ s : State, s.pending = [.reset] ∧ s.configured = true :=
  ⟨{ dev with pending := [.reset] }, rfl, rfl⟩

theorem witness_EveryStepKeepsTheInvariant : ∃ s t : State, s.Inv ∧ step s = .next t ∧ t.sampleIndex = 16 :=
  ⟨{ real with ctrl := 1, sampleIndex := 15, pending := [.write 4 4 5] }, _, inv_of_check rfl (by decide), rfl, by decide⟩

theorem witness_ReachableStatesSatisfyTheInvariant : ∃ s, Reachable s ∧ s.configured = true :=
  ⟨_, .step _ _ (.issue _ (.write 8 4 0xE) .reset) rfl, rfl⟩

theorem witness_CursorBoundsAreKeptButForCfg0Writes :
    ∃ s t : State, s.pending = [.write 4 4 5] ∧ (∀ v, (.write 4 4 5 : Op) ≠ .write 0x08 4 v) ∧
      s.sampleIndex ≤ nSamples s.cfg ∧ s.resultIndex ≤ nSamples s.cfg / 2 ∧ step s = .next t ∧
      t.sampleIndex = nSamples t.cfg :=
  ⟨{ dev with ctrl := 1, sampleIndex := 15, pending := [.write 4 4 5] }, _, rfl, by simp, by decide, by decide, rfl,
    by decide⟩

theorem witness_StatusReadAnswersThenClears : ∃ s t : State, s.status = 0x1F ∧ exec .rdStatus s = .next t :=
  ⟨{ dev with status := 0x1F }, _, rfl, rfl⟩

theorem witness_Cfg0WriteSetsModeAndLength : ∃ t, exec (.wrCfg0 0xFFFFFFFF) State.reset = .next t := ⟨_, rfl⟩

theorem witness_InvalidAccessesChangeNothing :
    (∃ s : State, s.pending = [.read 0x0C 4] ∧ (4 ≠ 4 ∨ 0x0C ∉ [0x00, 0x04, 0x08, 0x10, 0x14])) ∧
    (∃ s : State, s.pending = [.read 0x14 3] ∧ (3 ≠ 4 ∨ 0x14 ∉ [0x00, 0x04, 0x08, 0x10, 0x14])) ∧
    (∃ s : State, s.pending = [.write 0x00 4 1] ∧ (4 ≠ 4 ∨ 0x00 ∉ [0x04, 0x08, 0x0C])) ∧
    (∃ s : State, s.pending = [.write 0x18 4 1] ∧ (4 ≠ 4 ∨ 0x18 ∉ [0x04, 0x08, 0x0C])) :=
  ⟨⟨{ dev with pending := [.read 0x0C 4] }, rfl, by decide⟩, ⟨{ dev with pending := [.read 0x14 3] }, rfl, by decide⟩,
    ⟨{ dev with pending := [.write 0x00 4 1] }, rfl, by decide⟩,
    ⟨{ dev with pending := [.write 0x18 4 1] }, rfl, by decide⟩⟩

theorem witness_CtrlSetStoresAndRunsTheResetPass :
    (3 : Word).getLsbD 0 = true ∧ (0xFFFFFFF2 : Word).getLsbD 0 = false := by decide

theorem witness_IngestionIn32BitMode :
    ∃ s : State, s.configured = true ∧ s.cfg.getLsbD 0 = false ∧ s.sampleIndex + 1 = nSamples s.cfg :=
  ⟨{ dev with sampleIndex := 15 }, by decide⟩

theorem witness_IngestionIn16BitMode :
    ∃ s : State, s.configured = true ∧ s.cfg.getLsbD 0 = true ∧ s.sampleIndex + 2 = nSamples s.cfg :=
  ⟨{ dev with cfg := 0xF, sampleIndex := 2046 }, by decide⟩

theorem witness_DrainCopiesOneEntry :
    ∃ s : State, s.configured = true ∧ s.resultIndex + 1 = nSamples s.cfg / 2 := ⟨{ dev with resultIndex := 7 }, by decide⟩

theorem witness_ProcessTransformsTheBuffer : ∃ s : State, s.configured = true ∧ s.ctrl = 0 := ⟨dev, rfl, rfl⟩

theorem witness_CtrlWritesFollowTheAlgorithm : ∃ s : State, s.pending = [.write 0x04 4 0xD] :=
  ⟨{ dev with pending := [.write 0x04 4 0xD] }, rfl⟩

theorem witness_OnlyFourBitsOfACtrlValueAreRead :
    ∀ b, b < 4 → (0x00000005 : Word).getLsbD b = (0xFFFFFFF5 : Word).getLsbD b := by decide

theorem witness_SamWinsOverPrc :
    ∃ (v : Word) (s t : State) (a : Nat), v.getLsbD 2 = true ∧ v.getLsbD 3 = true ∧ answer (.write 0x04 4 v) s = .next t ∧
      t.response = .ok ∧
      ¬ (v.getLsbD 0 = true ∧ s.sampleIndex ≤ a ∧ a < s.sampleIndex + unitSize s.cfg) :=
  ⟨0xD, { dev with ctrl := 1, sampleIndex := 3 }, _, 4, by decide, by decide, rfl, rfl, by decide⟩

theorem witness_TriggersOfAnUnconfiguredDeviceAreRefused : State.reset.configured = false := rfl

theorem witness_OverCapacityIsRefused :
    (∃ s : State, s.configured = true ∧ nSamples s.cfg < s.sampleIndex + (if s.cfg.getLsbD 0 then 2 else 1) ∧
      s.sampleIndex = 16) ∧
    (∃ s : State, s.configured = true ∧ nSamples s.cfg < s.sampleIndex + (if s.cfg.getLsbD 0 then 2 else 1) ∧
      s.sampleIndex = 15) ∧
    (∃ s : State, s.configured = true ∧ nSamples s.cfg / 2 = s.resultIndex) :=
  ⟨⟨{ dev with sampleIndex := 16 }, by decide⟩, ⟨{ dev with cfg := 1, sampleIndex := 15 }, by decide⟩,
    ⟨{ dev with resultIndex := 8 }, by decide⟩⟩

theorem witness_AnErrorResponseChangesNothing :
    ∃ s t : State, s.pending = [.write 4 4 7] ∧ step s = .next t ∧ t.response = .err .overCapacity :=
  ⟨{ dev with ctrl := 1, sampleIndex := 16, pending := [.write 4 4 7] }, _, rfl, rfl, by decide⟩

/-- Each of the three responses is given, `OverCapacity` to an ingestion and to a drain. -/
theorem witness_WhichCtrlWritesAreRefused :
    (∃ s t : State, answer (.write 4 4 8) s = .next t ∧ t.response = .err .notConfigured) ∧
    (∃ s t : State, answer (.write 4 4 5) s = .next t ∧ t.response = .err .overCapacity) ∧
    (∃ s t : State, answer (.write 4 4 4) s = .next t ∧ t.response = .err .overCapacity) ∧
    (∃ s t : State, answer (.write 4 4 0) s = .next t ∧ t.response = .ok) :=
  ⟨⟨State.reset, _, rfl, by decide⟩, ⟨{ dev with sampleIndex := 16 }, _, rfl, by decide⟩,
    ⟨{ dev with resultIndex := 8 }, _, rfl, by decide⟩, ⟨dev, _, rfl, by decide⟩⟩

theorem witness_UnsupportedSampleCountIsNeverRaised :
    ∃ s t : State, s.pending = [.write 8 4 0xFFFFFFFF] ∧ step s = .next t ∧ nSamples t.cfg = 2048 :=
  ⟨{ dev with pending := [.write 8 4 0xFFFFFFFF] }, _, rfl, rfl, by decide⟩

/-- READY set by a reset, by a CTRL write without EN, kept by another operation, cleared by a STATUS read. -/
theorem witness_ReadyIsSetAndClearedOnlyAsStated :
    (∃ s t : State, s.pending = [.reset] ∧ step s = .next t ∧ s.ready = false ∧ t.ready = true) ∧
    (∃ s t : State, s.pending = [.write 4 4 0] ∧ step s = .next t ∧ s.ready = false ∧ t.ready = true) ∧
    (∃ s t : State, s.pending = [.write 4 4 1] ∧ step s = .next t ∧ s.ready = true ∧ t.ready = true) ∧
    (∃ s t : State, s.pending = [.read 0x14 4] ∧ step s = .next t ∧ s.ready = true ∧ t.ready = false) :=
  ⟨⟨{ dev with pending := [.reset] }, _, rfl, rfl, by decide, by decide⟩,
    ⟨{ dev with pending := [.write 4 4 0] }, _, rfl, rfl, by decide, by decide⟩,
    ⟨{ dev with pending := [.write 4 4 1], status := 1 }, _, rfl, rfl, by decide, by decide⟩,
    ⟨{ dev with pending := [.read 0x14 4], status := 1 }, _, rfl, rfl, by decide, by decide⟩⟩

theorem witness_EdgeBitsAreSetAndClearedOnlyAsStated :
    (∃ s t : State, s.pending = [.write 4 4 7] ∧ step s = .next t ∧ t.response = .ok ∧ s.scplt = false ∧ t.scplt = true) ∧
    (∃ s t : State, s.pending = [.write 4 4 0xA] ∧ step s = .next t ∧ t.response = .ok ∧ s.pcplt = false ∧ t.pcplt = true) ∧
    (∃ s t : State, s.pending = [.read 0x14 4] ∧ step s = .next t ∧ s.scplt = true ∧ t.scplt = false) ∧
    (∃ s t : State, s.pending = [.reset] ∧ step s = .next t ∧ s.pcplt = true ∧ t.pcplt = false) :=
  ⟨⟨{ dev with pending := [.write 4 4 7] }, _, rfl, rfl, by decide, by decide, by decide⟩,
    ⟨{ dev with pending := [.write 4 4 0xA] }, _, rfl, rfl, by decide, by decide, by decide⟩,
    ⟨{ dev with pending := [.read 0x14 4], status := 0x1F }, _, rfl, rfl, by decide, by decide⟩,
    ⟨{ dev with pending := [.reset], status := 0x1F }, _, rfl, rfl, by decide, by decide⟩⟩

theorem witness_StickyBitsAreSetAndClearedOnlyAsStated :
    (∃ s t : State, s.pending = [.write 4 4 5] ∧ step s = .next t ∧ s.full = false ∧ t.full = true) ∧
    (∃ s t : State, s.pending = [.write 4 4 4] ∧ step s = .next t ∧ s.empty = false ∧ t.empty = true) ∧
    (∃ s t : State, s.pending = [.write 4 4 0] ∧ step s = .next t ∧ s.full = true ∧ t.full = false) ∧
    (∃ s t : State, s.pending = [.write 4 4 1] ∧ step s = .next t ∧ s.empty = true ∧ t.empty = false) ∧
    (∃ s t : State, s.pending = [.read 0x14 4] ∧ step s = .next t ∧ t.full = true ∧ t.empty = true) :=
  ⟨⟨{ dev with pending := [.write 4 4 5], sampleIndex := 15 }, _, rfl, rfl, by decide, by decide⟩,
    ⟨{ dev with pending := [.write 4 4 4], resultIndex := 7 }, _, rfl, rfl, by decide, by decide⟩,
    ⟨{ dev with pending := [.write 4 4 0], status := 8 }, _, rfl, rfl, by decide, by decide⟩,
    ⟨{ dev with pending := [.write 4 4 1], status := 16 }, _, rfl, rfl, by decide, by decide⟩,
    ⟨{ dev with pending := [.read 0x14 4], status := 24 }, _, rfl, rfl, by decide, by decide⟩⟩

theorem witness_InterruptRisesAndFallsOnlyAsStated :
    (∃ s t : State, s.pending = [.write 4 4 6] ∧ step s = .next t ∧ s.irq = false ∧ t.irq = true) ∧
    (∃ s t : State, s.pending = [.read 0x14 4] ∧ step s = .next t ∧ s.irq = true ∧ t.irq = false) ∧
    (∃ s t : State, s.pending = [] ∧ step s = .next t ∧ t.irq = true) :=
  ⟨⟨{ dev with pending := [.write 4 4 6] }, _, rfl, rfl, by decide, by decide⟩,
    ⟨{ dev with pending := [.read 0x14 4], irqPending := true }, _, rfl, rfl, by decide, by decide⟩,
    ⟨{ dev with irqPending := true }, _, rfl, rfl, by decide⟩⟩

theorem witness_TheTwoCursorsNeverAdvanceTogether :
    (∃ s t : State, step s = .next t ∧ s.sampleIndex < t.sampleIndex) ∧
    (∃ s t : State, step s = .next t ∧ s.resultIndex < t.resultIndex) :=
  ⟨⟨{ dev with pending := [.write 4 4 5] }, _, rfl, by decide⟩, ⟨{ dev with pending := [.write 4 4 4] }, _, rfl, by decide⟩⟩

/-- One state that satisfies the invariant for each clause. -/
theorem witness_ProtocolTransitions :
    (real.Inv ∧ real.en = false ∧ real.configured = true ∧ real.isDraining = true ∧
      real.resultIndex + 1 < nSamples real.cfg / 2) ∧
    (∃ s : State, s.Inv ∧ s.isIngesting = true ∧ s.configured = true ∧ s.sampleIndex + unitSize s.cfg < nSamples s.cfg) ∧
    (∃ s : State, s.Inv ∧ s.isIngesting = true ∧ s.configured = true ∧ s.sampleIndex + unitSize s.cfg = nSamples s.cfg) ∧
    (∃ s : State, s.Inv ∧ s.isReadyToProcess = true ∧ s.configured = true ∧ s.en = true) ∧
    (∃ s : State, s.Inv ∧ s.isIngesting = true ∧ ∃ t, exec (.ctrlPrc 9) s = .next t ∧ t.response = .ok ∧ t.en = true) ∧
    (∃ t : State, exec (.ctrlPrc 9) real = .next t ∧ t.response = .ok ∧ t.en = true) ∧
    (∃ s : State, s.Inv ∧ s.isDraining = true ∧ s.configured = true ∧ s.resultIndex + 1 = nSamples s.cfg / 2) ∧
    (∃ s : State, s.Inv ∧ s.isDrained = true ∧ s.configured = true) ∧
    (∃ t : State, exec (.ctrlSet 1) real = .next t) ∧ (∃ t : State, exec (.ctrlSamIn 5) real = .next t) ∧
    (∃ t : State, exec (.ctrlSamOut 4) real = .next t) ∧ (∃ t : State, exec (.ctrlPrc 8) real = .next t) :=
  ⟨⟨inv_of_check rfl (by decide), by decide⟩,
    ⟨{ real with ctrl := 1, sampleIndex := 3 }, inv_of_check rfl (by decide), by decide⟩,
    ⟨{ real with ctrl := 1, sampleIndex := 15 }, inv_of_check rfl (by decide), by decide⟩,
    ⟨{ real with ctrl := 1, sampleIndex := 16 }, inv_of_check rfl (by decide), by decide⟩,
    ⟨{ real with ctrl := 1, sampleIndex := 3 }, inv_of_check rfl (by decide), by decide, _, rfl, rfl, rfl⟩,
    ⟨_, rfl, rfl, rfl⟩,
    ⟨{ real with resultIndex := 7 }, inv_of_check rfl (by decide), by decide⟩,
    ⟨{ real with resultIndex := 8 }, inv_of_check rfl (by decide), by decide⟩, ⟨_, rfl⟩, ⟨_, rfl⟩, ⟨_, rfl⟩, ⟨_, rfl⟩⟩

/-- An instruction that meets every premise of the frame, and one that stores to the buffer. -/
theorem witness_RegistersChangeOnlyByTheirWriters :
    ∃ (i : Instr) (s t : State), exec i s = .next t ∧ (∀ v, i ≠ .wrCfg0 v) ∧ (∀ v, i ≠ .wrDatain v) ∧
      (∀ v, i ≠ .ctrlSamOut v) ∧ isCtrlCommand i = false ∧ i ≠ .rdStatus :=
  ⟨.rdCtrl, dev, _, rfl, by simp, by simp, by simp, rfl, by simp⟩

theorem witness_BufferChangesOnlyWhereStored :
    ∃ (s t : State), exec (.ctrlSamIn 5) s = .next t ∧ t.response = .ok ∧ storesEntry (.ctrlSamIn 5) s 0 = false ∧
      storesEntry (.ctrlSamIn 5) s 1 = true ∧ storesEntry (.ctrlSamIn 5) s 2 = false ∧
      storesEntry (.ctrlPrc 8) s 15 = true ∧ storesEntry (.ctrlPrc 8) s 16 = false :=
  ⟨{ dev with ctrl := 1, sampleIndex := 1 }, _, rfl, by decide⟩

theorem witness_TransformIsWrittenBackInPlace :
    ∃ s t u : State, s.configured = true ∧ exec (.ctrlPrc 9) s = .next t ∧ exec (.ctrlPrc 8) t = .next u ∧
      15 < nSamples s.cfg ∧ nSamples s.cfg ≤ 16 :=
  ⟨dev, _, _, rfl, rfl, rfl, by decide, by decide⟩

theorem witness_TransformReadsNothingElse :
    ∃ s s' t t' : State, s.configured = true ∧ s'.configured = true ∧
      (∀ b, b < 4 → s.cfg.getLsbD b = s'.cfg.getLsbD b) ∧
      (∀ k, k < nSamples s.cfg → s.sampleBuffer.read k = s'.sampleBuffer.read k) ∧
      exec (.ctrlPrc 8) s = .next t ∧ exec (.ctrlPrc 9) s' = .next t' ∧ s.cfg ≠ s'.cfg :=
  have ⟨t, ht⟩ := exec_answers (.ctrlPrc 8) dev
  have ⟨t', ht'⟩ := exec_answers (.ctrlPrc 9) { dev with cfg := 0xFFFFFFF0, sampleIndex := 3 }
  ⟨dev, { dev with cfg := 0xFFFFFFF0, sampleIndex := 3 }, t, t', rfl, rfl, by decide, fun _ _ => rfl, ht, ht', by decide⟩

theorem witness_OutputsLieInTheScaledRange :
    minOf (magnitudes 4 (0 :: 1 :: List.replicate 14 0)) ≠ maxOf (magnitudes 4 (0 :: 1 :: List.replicate 14 0)) ∧
    minOf (magnitudes 0 []) = maxOf (magnitudes 0 []) := by
  rw [test_magnitudes_of_an_impulse]
  decide

theorem witness_ExtremesAreTakenOverAllMagnitudes : 0 ∈ magnitudes 4 (0 :: 1 :: List.replicate 14 0) := by
  rw [test_magnitudes_of_an_impulse]
  decide

theorem witness_BitReversalIsAnInvolution : 2047 < 2 ^ 11 ∧ 10 < 11 := by decide

theorem witness_EveryIndexIsInExactlyOnePair :
    10 < 11 ∧ 2047 < 2 ^ 11 ∧ 1023 < 2 ^ 11 ∧ 1023 &&& 2 ^ 10 = 0 := by decide

theorem witness_APassIsAllButterfliesAtOnce : 3 < 4 ∧ (loadSamples 4 []).length = 2 ^ 4 ∧ 15 < 2 ^ 4 := by decide

theorem witness_OperationsAnswerBinary64Values :
    (F64.ofBits 0x0000000000000001).canonical = true ∧ (F64.ofBits 0x7FEFFFFFFFFFFFFF).canonical = true := by decide

theorem witness_SmallIntegerArithmeticIsExact :
    (2 ^ 53 - 1 : Int).natAbs < 2 ^ 53 ∧ (-1 : Int).natAbs < 2 ^ 53 ∧ ((2 ^ 53 - 1) + (-1) : Int).natAbs < 2 ^ 53 ∧
    ((-1) - (-(2 ^ 53 - 1)) : Int).natAbs < 2 ^ 53 ∧ ((2 ^ 53 - 1) * (-1) : Int).natAbs < 2 ^ 53 := by decide

theorem toRat_one : F64.one.toRat = 1 := by norm_num [F64.one, F64.toRat]

theorem one_below_overflowBound : (1 : ℚ) < overflowBound := by norm_num [overflowBound]

theorem witness_SumsAndProductsAreCorrectlyRounded :
    F64.one.isFinite = true ∧ (F64.zero true).isFinite = true ∧ |F64.one.toRat + (F64.zero true).toRat| < overflowBound ∧
    |F64.one.toRat - (F64.zero true).toRat| < overflowBound ∧ |F64.one.toRat * (F64.zero true).toRat| < overflowBound := by
  have h : (F64.zero true).toRat = 0 := by simp [F64.zero, F64.toRat]
  have := one_below_overflowBound
  rw [toRat_one, h]
  exact ⟨rfl, rfl, by simpa using this, by simpa using this, by simpa using lt_trans one_pos this⟩

theorem witness_QuotientsAreCorrectlyRounded :
    F64.one.isFinite = true ∧ F64.one.canonical = true ∧ F64.one.toRat ≠ 0 ∧
    |F64.one.toRat / F64.one.toRat| < overflowBound := by
  rw [toRat_one]
  exact ⟨rfl, by decide, one_ne_zero, by simpa using one_below_overflowBound⟩

theorem witness_SquareRootsAreCorrectlyRounded :
    F64.one.isFinite = true ∧ F64.one.canonical = true ∧ 0 ≤ F64.one.toRat ∧ (F64.zero true).isFinite = true ∧
    (F64.zero true).canonical = true := by
  rw [toRat_one]
  exact ⟨rfl, by decide, zero_le_one, rfl, by decide⟩

theorem witness_IntegerRescaleEqualsTheBinary64Form :
    0 ≤ 2 ^ 43 - 1 ∧ (2 ^ 43 - 1 : Nat) ≤ 2 ^ 43 - 1 ∧ 0 < 2 ^ 43 - 1 ∧ (2 ^ 43 - 1 : Nat) < 2 ^ 43 := by decide

theorem witness_NoExceptionalValueArises : 4 ≤ 11 ∧ 11 ≤ 11 := by decide

theorem witness_MagnitudesStayBelowTheBound : 4 ≤ 11 ∧ 11 ≤ 11 := by decide

theorem witness_AllZeroInputGivesMidScale : 4 ≤ 4 ∧ 4 ≤ 11 ∧ ∀ w ∈ List.replicate 16 (0 : Word), w = 0 :=
  ⟨by decide, by decide, fun _ h => List.eq_of_mem_replicate h⟩

theorem witness_IngestingAWholeSession :
    (∃ (s : State) (ds : List Word), s.configured = true ∧ s.sampleIndex = 0 ∧ s.full = false ∧
      ds.length * unitSize s.cfg = nSamples s.cfg ∧ smode s.cfg = true) ∧
    (∃ (s : State) (ds : List Word), s.configured = true ∧ s.sampleIndex = 0 ∧ s.full = false ∧
      ds.length * unitSize s.cfg = nSamples s.cfg ∧ smode s.cfg = false) :=
  ⟨⟨{ dev with cfg := 1 }, List.replicate 8 3, by decide⟩, ⟨dev, List.replicate 16 3, by decide⟩⟩

theorem witness_DrainingAWholeSession :
    ∃ s : State, s.configured = true ∧ s.resultIndex = 0 ∧ s.empty = false ∧ 8 ≤ nSamples s.cfg / 2 ∧
      nSamples s.cfg / 2 < 9 := ⟨dev, by decide⟩

end Sys2Proof.Tests
end

section
/-! What a CTRL value says: the command it selects, and which of its bits a CTRL write reads (30_encoding.md R61, R64). -/

namespace Sys2Proof.Machine

/-! ### The selection, one equation for each row of R64 -/

theorem decodeCtrl_of_sam_en {v : Word} (hsam : ctrlSam v = true) (hen : ctrlEn v = true) :
    decodeCtrl v = .ctrlSamIn v := by
  simp [decodeCtrl, hsam, hen]

theorem decodeCtrl_of_sam_not_en {v : Word} (hsam : ctrlSam v = true) (hen : ctrlEn v = false) :
    decodeCtrl v = .ctrlSamOut v := by
  simp [decodeCtrl, hsam, hen]

theorem decodeCtrl_of_prc {v : Word} (hsam : ctrlSam v = false) (hprc : ctrlPrcBit v = true) :
    decodeCtrl v = .ctrlPrc v := by
  simp [decodeCtrl, hsam, hprc]

theorem decodeCtrl_of_neither {v : Word} (hsam : ctrlSam v = false) (hprc : ctrlPrcBit v = false) :
    decodeCtrl v = .ctrlSet v := by
  simp [decodeCtrl, hsam, hprc]

/-- Settles O4: each clause is the row of R64 with that name. -/
theorem ctrlValueSelectsTheCommand : Obligations.CtrlValueSelectsTheCommand := by
  intro v
  rw [decode_ctrlWrite]
  refine ⟨fun hsam hen => ?_, fun hsam hen => ?_, fun hsam hprc => ?_, fun hsam hprc => ?_⟩
  · rw [decodeCtrl_of_sam_en hsam hen]
  · rw [decodeCtrl_of_sam_not_en hsam hen]
  · rw [decodeCtrl_of_prc hsam hprc]
  · rw [decodeCtrl_of_neither hsam hprc]

/-! ### What each command reads of its value -/

theorem execCtrlSamIn_congr {v v' : Word} (hien : ctrlIen v = ctrlIen v') (s : State) :
    execCtrlSamIn v s = execCtrlSamIn v' s := by
  simp only [execCtrlSamIn, hien]

theorem execCtrlSamOut_congr {v v' : Word} (hien : ctrlIen v = ctrlIen v') (s : State) :
    execCtrlSamOut v s = execCtrlSamOut v' s := by
  simp only [execCtrlSamOut, hien]

theorem execCtrlPrc_congr {v v' : Word} (hen : ctrlEn v = ctrlEn v') (hien : ctrlIen v = ctrlIen v') (s : State) :
    execCtrlPrc v s = execCtrlPrc v' s := by
  simp only [execCtrlPrc, hen, hien]

theorem execCtrlSet_congr {v v' : Word} (hen : ctrlEn v = ctrlEn v') (hien : ctrlIen v = ctrlIen v') (s : State) :
    execCtrlSet v s = execCtrlSet v' s := by
  simp only [execCtrlSet, hen, hien]

/-- Two values with the same four fields select the same command, and that command reads no more than EN and IEN. -/
theorem exec_decodeCtrl_congr {v v' : Word} (hen : ctrlEn v = ctrlEn v') (hien : ctrlIen v = ctrlIen v')
    (hsam : ctrlSam v = ctrlSam v') (hprc : ctrlPrcBit v = ctrlPrcBit v') (s : State) :
    exec (decodeCtrl v) s = exec (decodeCtrl v') s := by
  cases hs : ctrlSam v with
  | true =>
    cases he : ctrlEn v with
    | true =>
      rw [decodeCtrl_of_sam_en hs he, decodeCtrl_of_sam_en (hsam ▸ hs) (hen ▸ he)]
      exact execCtrlSamIn_congr hien s
    | false =>
      rw [decodeCtrl_of_sam_not_en hs he, decodeCtrl_of_sam_not_en (hsam ▸ hs) (hen ▸ he)]
      exact execCtrlSamOut_congr hien s
  | false =>
    cases hp : ctrlPrcBit v with
    | true =>
      rw [decodeCtrl_of_prc hs hp, decodeCtrl_of_prc (hsam ▸ hs) (hprc ▸ hp)]
      exact execCtrlPrc_congr hen hien s
    | false =>
      rw [decodeCtrl_of_neither hs hp, decodeCtrl_of_neither (hsam ▸ hs) (hprc ▸ hp)]
      exact execCtrlSet_congr hen hien s

theorem answer_ctrlWrite (v : Word) (s : State) : answer (.write 0x04 4 v) s = exec (decodeCtrl v) s :=
  answer_of_instr (decode_ctrlWrite v) s

/-- Settles O26: the four fields are the four bits by definition, and a CTRL write reads only the fields. -/
theorem onlyFourBitsOfACtrlValueAreRead : Obligations.OnlyFourBitsOfACtrlValueAreRead := by
  intro v v' s
  refine ⟨⟨rfl, rfl, rfl, rfl⟩, fun hbits => ?_⟩
  have hen : ctrlEn v = ctrlEn v' := hbits 0 (by decide)
  have hien : ctrlIen v = ctrlIen v' := hbits 1 (by decide)
  have hsam : ctrlSam v = ctrlSam v' := hbits 2 (by decide)
  have hprc : ctrlPrcBit v = ctrlPrcBit v' := hbits 3 (by decide)
  rw [answer_ctrlWrite, answer_ctrlWrite]
  exact exec_decodeCtrl_congr hen hien hsam hprc s

end Sys2Proof.Machine
end

section
/-! Bit reversal, bit by bit (43_transform_engine.md R119). -/

namespace Sys2Proof.Machine

theorem bitRev_lt (L i : Nat) : bitRev L i < 2 ^ L := by
  induction L generalizing i with
  | zero => simp [bitRev]
  | succ L ih =>
    have hrest := ih (i / 2)
    have hlow : i % 2 * 2 ^ L ≤ 1 * 2 ^ L := Nat.mul_le_mul_right _ (by omega)
    rw [bitRev, Nat.pow_succ]
    omega

/-- The lowest bit of `i` comes out on top; below it stands the reversal of the other bits. -/
theorem testBit_bitRev_succ (L i b : Nat) :
    (bitRev (L + 1) i).testBit b = if b < L then (bitRev L (i / 2)).testBit b else (i % 2).testBit (b - L) := by
  rw [bitRev, Nat.mul_comm, Nat.testBit_two_pow_mul_add _ (bitRev_lt L _)]

theorem testBit_bitRev {L b : Nat} (hb : b < L) (i : Nat) : (bitRev L i).testBit b = i.testBit (L - 1 - b) := by
  induction L generalizing i with
  | zero => omega
  | succ L ih =>
    rw [testBit_bitRev_succ]
    split
    · next hlt =>
      rw [ih hlt, ← Nat.testBit_succ]
      congr 1
      omega
    · next hge =>
      obtain rfl : b = L := by omega
      simp

theorem bitRev_bitRev {L i : Nat} (hi : i < 2 ^ L) : bitRev L (bitRev L i) = i := by
  refine Nat.eq_of_testBit_eq fun b => ?_
  by_cases hb : b < L
  · rw [testBit_bitRev hb, testBit_bitRev (by omega)]
    congr 1
    omega
  · have hpow : 2 ^ L ≤ 2 ^ b := Nat.pow_le_pow_right (by omega) (by omega)
    rw [Nat.testBit_lt_two_pow ((bitRev_lt L _).trans_le hpow), Nat.testBit_lt_two_pow (hi.trans_le hpow)]

/-- The sum of R119: the summand `b = 0` is the first one, and the others are those of `i / 2`. -/
theorem bitRev_eq_sum (L i : Nat) :
    bitRev L i = ((List.range L).map fun b => ((i >>> b) &&& 1) <<< (L - 1 - b)).sum := by
  induction L generalizing i with
  | zero => rfl
  | succ L ih =>
    have hshift (b : Nat) : (i / 2) >>> b = i >>> (b + 1) := by
      rw [← Nat.shiftRight_one, ← Nat.shiftRight_add, Nat.add_comm]
    have hplace (b : Nat) : L - 1 - b = L - (b + 1) := by omega
    rw [bitRev, ih, List.range_succ_eq_map]
    simp [Function.comp_def, hshift, hplace, Nat.shiftLeft_eq]

/-- Settles O47: the general clauses from the bits of `bitRev`, the tables by evaluation. -/
theorem bitReversalIsAnInvolution : Obligations.BitReversalIsAnInvolution := by
  refine ⟨fun L i hi => ?_, fun L j hj => ?_, by decide, by decide, by decide, by decide, by decide⟩
  · exact ⟨bitRev_lt L i, bitRev_bitRev hi, fun b hb => testBit_bitRev hb i, bitRev_eq_sum L i⟩
  · exact ⟨bitRev L j, bitRev_lt L j, bitRev_bitRev hj⟩

end Sys2Proof.Machine
end

section
/-! The extremes of a list of magnitudes, and the range of the transform's outputs (43_transform_engine.md R131 to
R133). -/

namespace Sys2Proof.Machine

theorem minOf_mem {ms : List Nat} (h : ms ≠ []) : minOf ms ∈ ms := by
  cases ms with
  | nil => exact absurd rfl h
  | cons m ms => exact List.mem_cons.2 (foldl_min_mem ms m)

theorem minOf_le {ms : List Nat} {m : Nat} (h : m ∈ ms) : minOf ms ≤ m := by
  cases ms with
  | nil => cases h
  | cons a ms =>
    obtain ⟨hhead, htail⟩ := foldl_min_le ms a
    rcases List.mem_cons.1 h with rfl | hm
    · exact hhead
    · exact htail m hm

theorem le_maxOf {ms : List Nat} {m : Nat} (h : m ∈ ms) : m ≤ maxOf ms := (foldl_max_ge ms 0).2 m h

/-- The fold's start value 0 is the greatest entry only where some entry is 0. -/
theorem maxOf_mem {ms : List Nat} (h : ms ≠ []) : maxOf ms ∈ ms := by
  rcases foldl_max_mem ms 0 with hzero | hmem
  · obtain ⟨m, hm⟩ := List.exists_mem_of_ne_nil ms h
    have hle : m ≤ maxOf ms := le_maxOf hm
    have hmax : maxOf ms = 0 := hzero
    obtain rfl : m = 0 := by omega
    rwa [hmax]
  · exact hmem

theorem magnitudes_ne_nil (L : Nat) (x : List Word) : magnitudes L x ≠ [] := by
  rw [← List.length_pos_iff, magnitudes_length]
  exact Nat.two_pow_pos L

/-- Settles O46: the two folds are the extremes of any list with an entry, and there are `2^L` magnitudes. -/
theorem extremesAreTakenOverAllMagnitudes : Obligations.ExtremesAreTakenOverAllMagnitudes := by
  intro L x
  have hne := magnitudes_ne_nil L x
  exact ⟨magnitudes_length L x, minOf_mem hne, maxOf_mem hne, fun m hm => ⟨minOf_le hm, le_maxOf hm⟩⟩

theorem rescale_le {s16 : Bool} {ms : List Nat} {r : Nat} (h : r ∈ rescale s16 ms) : r ≤ fullScale s16 := by
  obtain ⟨m, hm, rfl⟩ := List.mem_map.1 h
  exact rescaleOne_le s16 (le_maxOf hm)

theorem transform_toNat_le {L : Nat} {s16 : Bool} {x : List Word} {w : Word} (h : w ∈ transform L s16 x) :
    w.toNat ≤ fullScale s16 := by
  obtain ⟨r, hr, rfl⟩ := List.mem_map.1 h
  rw [BitVec.toNat_ofNat]
  exact (Nat.mod_le _ _).trans (rescale_le hr)

end Sys2Proof.Machine
end

section
/-! Where the transform's outputs stand, and what CTRL_PRC does to the buffer (43_transform_engine.md R135, R140). -/

namespace Sys2Proof.Machine

theorem transform_getElem?_eq_transformBuffer_read (cfg : Word) (b : Memory) {k : Nat} (h : k < nSamples cfg) :
    (transform (log2Samples cfg) (smode cfg) (b.firstEntries (nSamples cfg)))[k]? =
      some ((transformBuffer cfg b).read k) := by
  rw [transformBuffer_read_inside cfg b h, List.getElem?_eq_getElem]

/-- The first `n_samples` entries are the outputs, so they are what a second transform reads. -/
theorem transformBuffer_firstEntries (cfg : Word) (b : Memory) :
    (transformBuffer cfg b).firstEntries (nSamples cfg) =
      transform (log2Samples cfg) (smode cfg) (b.firstEntries (nSamples cfg)) := by
  refine List.ext_getElem (by simp [nSamples]) fun k hk _ => ?_
  have hk' : k < nSamples cfg := by simpa using hk
  rw [← transformBuffer_read_inside cfg b hk']
  simp [Memory.firstEntries]

theorem transformBuffer_read_lt (cfg : Word) (b : Memory) {k : Nat} (h : k < nSamples cfg) :
    ((transformBuffer cfg b).read k).toNat < 64 := by
  have hmem := List.mem_of_getElem? (transform_getElem?_eq_transformBuffer_read cfg b h)
  have hle := transform_toNat_le hmem
  have hscale := fullScale_le (smode cfg)
  omega

/-- A CTRL_PRC of a configured device keeps `cfg` and transforms the buffer. -/
theorem exec_ctrlPrc_configured {v : Word} {s t : State} (hc : s.configured = true)
    (h : exec (.ctrlPrc v) s = .next t) :
    t.configured = true ∧ t.cfg = s.cfg ∧ t.sampleBuffer = transformBuffer s.cfg s.sampleBuffer := by
  obtain ⟨hc', -⟩ | ⟨-, rfl⟩ := execCtrlPrc_cases h
  · rw [hc] at hc'; cases hc'
  · simp [hc]

/-- Settles O43: both commands store what `transformBuffer` gives, the second one from the outputs of the first. -/
theorem transformIsWrittenBackInPlace : Obligations.TransformIsWrittenBackInPlace := by
  intro v v' s t u hc hst htu
  obtain ⟨htc, htcfg, htbuf⟩ := exec_ctrlPrc_configured hc hst
  obtain ⟨-, -, hubuf⟩ := exec_ctrlPrc_configured htc htu
  rw [htcfg] at hubuf
  refine ⟨fun k hk => ⟨?_, ?_⟩, fun k hk => ?_, fun k hk => ?_, rfl⟩
  · rw [htbuf]; exact transform_getElem?_eq_transformBuffer_read s.cfg s.sampleBuffer hk
  · rw [htbuf]; exact transformBuffer_read_lt s.cfg s.sampleBuffer hk
  · rw [htbuf]; exact transformBuffer_read_outside s.cfg s.sampleBuffer hk
  · rw [hubuf, ← transformBuffer_firstEntries, ← htbuf]
    exact transform_getElem?_eq_transformBuffer_read s.cfg t.sampleBuffer hk

end Sys2Proof.Machine
end

section
/-! The legal lengths, and that no operation raises `UnsupportedSampleCount` (30_encoding.md R62, 60_exceptions.md
R147). -/

namespace Sys2Proof.Machine

/-! ### The lengths that CFG0 selects -/

/-- Each of the eight selectors gives its length. -/
theorem nSamples_mem_legal (cfg : Word) : nSamples cfg ∈ [16, 32, 64, 128, 256, 512, 1024, 2048] := by
  have hlegal : ∀ k < 8, 2 ^ (k + 4) ∈ [16, 32, 64, 128, 256, 512, 1024, 2048] := by decide
  exact hlegal (selector cfg) (selector_lt cfg)

/-- The selector masks its word already. -/
theorem selector_and_nsamplesMask (cfg : Word) : selector (cfg &&& nsamplesMask) = selector cfg := by
  rw [selector, BitVec.and_assoc, BitVec.and_self, ← selector]

theorem nSamples_and_nsamplesMask (cfg : Word) : nSamples (cfg &&& nsamplesMask) = nSamples cfg := by
  rw [nSamples, log2Samples, selector_and_nsamplesMask, ← log2Samples, ← nSamples]

/-! ### The responses -/

/-- A CTRL write answers `NotConfigured`, `OverCapacity` or `OK`. -/
theorem ctrlWrite_response {v : Word} {s t : State} (h : exec (decodeCtrl v) s = .next t) :
    t.response = .err .notConfigured ∨ t.response = .err .overCapacity ∨ t.response = .ok := by
  obtain ⟨-, -, rfl⟩ | ⟨-, -, -, rfl⟩ | ⟨-, -, -, -, rfl⟩ | ⟨-, -, -, -, rfl⟩ | ⟨-, -, -, rfl⟩ | ⟨-, -, rfl⟩ :=
    ctrlWrite_cases h
  · exact .inl rfl
  · exact .inr (.inl rfl)
  all_goals exact .inr (.inr rfl)

theorem answer_response_ne_unsupportedSampleCount {op : Op} {s t : State} (h : answer op s = .next t) :
    t.response ≠ .err .unsupportedSampleCount := by
  obtain ⟨-, rfl⟩ | ⟨v, -, hctrl⟩ | ⟨-, hstatus⟩ | ⟨-, -, -, ⟨v, -, rfl⟩ | ⟨v, -, rfl⟩ | ⟨r, rfl, -, -, hr⟩⟩ :=
    answer_cases h
  case inl => simp [State.reset]
  case inr.inl => obtain hr | hr | hr := ctrlWrite_response hctrl <;> simp [hr]
  case inr.inr.inl => obtain rfl := respond_next.1 hstatus; simp
  case inr.inr.inr.inl => simp
  case inr.inr.inr.inr.inl => simp
  case inr.inr.inr.inr.inr => simpa using hr

/-- Settles O34: a step answers its operation, and no answer raises the kind; CFG0 selects one of eight lengths by its
masked bits; its write is accepted in every state. -/
theorem unsupportedSampleCountIsNeverRaised : Obligations.UnsupportedSampleCountIsNeverRaised := by
  refine ⟨fun s t op rest hpending hstep => ?_, fun v => ⟨nSamples_mem_legal v, ?_⟩, fun v s => ⟨_, rfl, rfl⟩⟩
  · rw [step_of_pending hpending] at hstep
    exact answer_response_ne_unsupportedSampleCount hstep
  · exact (nSamples_and_nsamplesMask v).symm

end Sys2Proof.Machine
end

section
/-! What decodes to what: the legal accesses are the instructions, and every other access is rejected by its direction
(30_encoding.md sections 1 and 5, 40_register_ops.md R69). -/

namespace Sys2Proof

/-- A mapped offset is aligned. -/
theorem mod_four_of_mappedOffset {off : Nat} (h : mappedOffset off = true) : off % 4 = 0 := by
  simp only [mappedOffset, Bool.or_eq_true, beq_iff_eq] at h
  omega

theorem decode_read_four {off : Nat} (h : off % 4 = 0) : decode (.read off 4) = decodeRead off := by
  simp [decode, wellShaped, h]

theorem decode_write_four {off : Nat} (v : Word) (h : off % 4 = 0) : decode (.write off 4 v) = decodeWrite off v := by
  simp [decode, wellShaped, h]

/-- A legal access decodes to a well-formed instruction that stands for it. -/
theorem decode_of_legal {op : Op} (hne : op ≠ .reset) (h : op.legal = true) :
    ∃ i, decode op = .instr i ∧ i.wellFormed = true ∧ encodeOp i = op := by
  cases op with
  | reset => exact absurd rfl hne
  | read off size =>
    obtain ⟨rfl, hoff⟩ : size = 4 ∧ mappedOffset off = true := by simpa [Op.legal] using h
    rw [decode_read_four (mod_four_of_mappedOffset hoff)]
    obtain ⟨-, hunmapped⟩ | ⟨-, hinstr⟩ := decodeRead_cases off
    · simp [hoff] at hunmapped
    · exact hinstr
  | write off size v =>
    obtain ⟨rfl, hoff⟩ : size = 4 ∧ mappedOffset off = true := by simpa [Op.legal] using h
    rw [decode_write_four v (mod_four_of_mappedOffset hoff)]
    obtain ⟨-, hunmapped⟩ | ⟨-, hinstr⟩ := decodeWrite_cases off v
    · simp [hoff] at hunmapped
    · exact hinstr

theorem decode_read_of_not_legal {off size : Nat} (h : (Op.read off size).legal = false) :
    ∃ a, decode (.read off size) = .invalid a ∧ a.isRead = true := by
  by_cases hshape : wellShaped off size = true
  · obtain ⟨rfl, halign⟩ : size = 4 ∧ off % 4 = 0 := by simpa [wellShaped] using hshape
    rw [decode_read_four halign]
    obtain ⟨hunmapped, -⟩ | ⟨hoff, -⟩ := decodeRead_cases off
    · exact ⟨_, hunmapped, rfl⟩
    · simp [Op.legal, hoff] at h
  · exact ⟨.badRead, by simp [decode, hshape], rfl⟩

theorem decode_write_of_not_legal {off size : Nat} {v : Word} (h : (Op.write off size v).legal = false) :
    ∃ a, decode (.write off size v) = .invalid a ∧ a.isRead = false := by
  by_cases hshape : wellShaped off size = true
  · obtain ⟨rfl, halign⟩ : size = 4 ∧ off % 4 = 0 := by simpa [wellShaped] using hshape
    rw [decode_write_four v halign]
    obtain ⟨hunmapped, -⟩ | ⟨hoff, -⟩ := decodeWrite_cases off v
    · exact ⟨_, hunmapped, rfl⟩
    · simp [Op.legal, hoff] at h
  · exact ⟨.badWrite, by simp [decode, hshape], rfl⟩

/-- Settles O3: by the direction of the access. -/
theorem legalAccessesAreExactlyTheInstructions : Obligations.LegalAccessesAreExactlyTheInstructions := by
  refine fun op hne => ⟨decode_of_legal hne, fun h => ?_⟩
  cases op with
  | reset => exact absurd rfl hne
  | read off size => exact (decode_read_of_not_legal h).imp fun _ ha => ha.1
  | write off size v => exact (decode_write_of_not_legal h).imp fun _ ha => ha.1

/-- A command is the one its value selects when the value meets the command's data condition (R64, R65). -/
theorem decodeCtrl_eq_of_wellFormed {v : Word} {i : Instr} (hw : i.wellFormed = true)
    (hi : i = .ctrlSamIn v ∨ i = .ctrlSamOut v ∨ i = .ctrlPrc v ∨ i = .ctrlSet v) : decodeCtrl v = i := by
  rcases hi with rfl | rfl | rfl | rfl <;> simp_all [Instr.wellFormed, decodeCtrl, ctrlSam, ctrlEn, ctrlPrcBit]

theorem decode_encodeOp {i : Instr} (hw : i.wellFormed = true) : decode (encodeOp i) = .instr i := by
  cases i with
  | ctrlSamIn v => rw [encodeOp, Machine.decode_ctrlWrite, decodeCtrl_eq_of_wellFormed hw (by simp)]
  | ctrlSamOut v => rw [encodeOp, Machine.decode_ctrlWrite, decodeCtrl_eq_of_wellFormed hw (by simp)]
  | ctrlPrc v => rw [encodeOp, Machine.decode_ctrlWrite, decodeCtrl_eq_of_wellFormed hw (by simp)]
  | ctrlSet v => rw [encodeOp, Machine.decode_ctrlWrite, decodeCtrl_eq_of_wellFormed hw (by simp)]
  | _ => rfl

theorem decodeWord_eq_some_iff {w : OpWord} {i : Instr} : decodeWord w = some i ↔ decode (opOfWord w) = .instr i := by
  unfold decodeWord
  split <;> simp_all

/-- Settles O1: the word of an instruction is the access it stands for, and that access decodes to it. -/
theorem decodingAnEncodedInstructionGivesItBack : Obligations.DecodingAnEncodedInstructionGivesItBack := by
  intro i hw
  have hdecode := decode_encodeOp hw
  exact ⟨decodeWord_eq_some_iff.2 (by rw [opOfWord_encode, hdecode]), hdecode⟩

/-- Settles O5: each word is evaluated. -/
theorem writtenOutWordsDecodeRight : Obligations.WrittenOutWordsDecodeRight := by
  refine ⟨?_, ?_, ?_, ?_, ?_, ?_⟩ <;> decide

end Sys2Proof
end

section
/-! The opcode table against the decoder: the rows are disjoint, and a word matches the row of the instruction it decodes
to (30_encoding.md R52, R65). -/

namespace Sys2Proof

/-- What an operation word is made of (R52). -/
theorem packWord_fields (w : OpWord) :
    packWord (w.getLsbD 40) (w.extractLsb' 32 8) (w.extractLsb' 0 32) = w := by
  refine BitVec.eq_of_getLsbD_eq fun i hi => ?_
  rw [packWord_getLsbD]
  split
  · next hdata => simp [hdata]
  · next hdata =>
    split
    · next hoff => simp [hoff, show 32 + (i - 32) = i by omega]
    · next hoff =>
      obtain rfl : i = 40 := by omega
      simp

theorem opOfWord_ne_reset (w : OpWord) : opOfWord w ≠ .reset := by
  unfold opOfWord
  split <;> simp

/-- Only an instruction's own access decodes to it. -/
theorem encodeOp_of_decodeWord {w : OpWord} {i : Instr} (h : decodeWord w = some i) :
    i.wellFormed = true ∧ encodeOp i = opOfWord w := by
  have hdecode := decodeWord_eq_some_iff.1 h
  have hcases := legalAccessesAreExactlyTheInstructions _ (opOfWord_ne_reset w)
  cases hlegal : (opOfWord w).legal with
  | true =>
    obtain ⟨j, hj, hwf, henc⟩ := hcases.1 hlegal
    obtain rfl : j = i := by simpa [hj] using hdecode
    exact ⟨hwf, henc⟩
  | false =>
    obtain ⟨a, ha⟩ := hcases.2 hlegal
    simp [ha] at hdecode

theorem packWord_and (we we' : Bool) (off off' : BitVec 8) (v v' : Word) :
    packWord we off v &&& packWord we' off' v' = packWord (we && we') (off &&& off') (v &&& v') := by
  refine BitVec.eq_of_getLsbD_eq fun i hi => ?_
  rw [BitVec.getLsbD_and, packWord_getLsbD, packWord_getLsbD, packWord_getLsbD]
  split
  · rw [BitVec.getLsbD_and]
  · split
    · rw [BitVec.getLsbD_and]
    · cases we <;> simp

/-- The fields that an access has: a read has no data. -/
theorem fields_of_opOfWord_eq {w w' : OpWord} (h : opOfWord w = opOfWord w') :
    w.getLsbD 40 = w'.getLsbD 40 ∧ w.extractLsb' 32 8 = w'.extractLsb' 32 8 ∧
      (w.getLsbD 40 = true → w.extractLsb' 0 32 = w'.extractLsb' 0 32) := by
  unfold opOfWord at h
  generalize w.extractLsb' 32 8 = off, w'.extractLsb' 32 8 = off' at *
  generalize w.extractLsb' 0 32 = v, w'.extractLsb' 0 32 = v' at *
  split at h <;> split at h <;> simp_all [BitVec.toNat_inj]

/-- Where a row of the table looks: at the direction, and at the data of writes only. -/
theorem opcodeTable_masks : ∀ r ∈ opcodeTable, r.mask.getLsbD 40 = true ∧
    (r.pattern.getLsbD 40 = false → r.mask = packWord true 0xFF 0) := by decide

theorem getLsbD_of_matchesWord {r : OpcodeRow} (hr : r ∈ opcodeTable) {w : OpWord} (h : r.matchesWord w = true) :
    r.pattern.getLsbD 40 = w.getLsbD 40 := by
  rw [← eq_of_beq h, BitVec.getLsbD_and, (opcodeTable_masks r hr).1, Bool.and_true]

/-- Two words that stand for one access match the same rows. -/
theorem matchesWord_congr {w w' : OpWord} (h : opOfWord w = opOfWord w') {r : OpcodeRow} (hr : r ∈ opcodeTable)
    (hm : r.matchesWord w = true) : r.matchesWord w' = true := by
  obtain ⟨hwe, hoff, hdata⟩ := fields_of_opOfWord_eq h
  cases hdir : w.getLsbD 40 with
  | true =>
    have hw : w = w' := by rw [← packWord_fields w, ← packWord_fields w', hwe, hoff, hdata hdir]
    exact hw ▸ hm
  | false =>
    have hmask : r.mask = packWord true 0xFF 0 :=
      (opcodeTable_masks r hr).2 ((getLsbD_of_matchesWord hr hm).trans hdir)
    rw [OpcodeRow.matchesWord, hmask, ← packWord_fields w, packWord_and] at hm
    rw [OpcodeRow.matchesWord, hmask, ← packWord_fields w', packWord_and, ← hwe, ← hoff]
    simpa using hm

/-- The word of a well-formed instruction matches the row of its mnemonic (R65). -/
theorem encode_matches_row (i : Instr) : Laws.EncodeMatchesRow.Statement i := by
  cases i with
  | rdDevid => exact Laws.EncodeMatchesRow.rdDevid
  | rdCtrl => exact Laws.EncodeMatchesRow.rdCtrl
  | rdCfg0 => exact Laws.EncodeMatchesRow.rdCfg0
  | rdDatain => exact Laws.EncodeMatchesRow.rdDatain
  | rdDataout => exact Laws.EncodeMatchesRow.rdDataout
  | rdStatus => exact Laws.EncodeMatchesRow.rdStatus
  | wrDevid v => exact Laws.EncodeMatchesRow.wrDevid v
  | ctrlSamIn v => exact Laws.EncodeMatchesRow.ctrlSamIn v
  | ctrlSamOut v => exact Laws.EncodeMatchesRow.ctrlSamOut v
  | ctrlPrc v => exact Laws.EncodeMatchesRow.ctrlPrc v
  | ctrlSet v => exact Laws.EncodeMatchesRow.ctrlSet v
  | wrCfg0 v => exact Laws.EncodeMatchesRow.wrCfg0 v
  | wrDatain v => exact Laws.EncodeMatchesRow.wrDatain v
  | wrDataout v => exact Laws.EncodeMatchesRow.wrDataout v
  | wrStatus v => exact Laws.EncodeMatchesRow.wrStatus v

/-- A word that decodes matches the row of the instruction's mnemonic. -/
theorem row_of_decodeWord {w : OpWord} {i : Instr} (h : decodeWord w = some i) :
    ∃ r ∈ opcodeTable, r.mnemonic = i.mnemonic ∧ r.matchesWord w = true := by
  obtain ⟨hwf, henc⟩ := encodeOp_of_decodeWord h
  obtain ⟨r, hr, hname, hmatch⟩ := encode_matches_row i hwf
  exact ⟨r, hr, hname, matchesWord_congr ((opOfWord_encode i).trans henc) hr hmatch⟩

/-- The mnemonics of the table are distinct. -/
theorem opcodeTable_mnemonic_inj : ∀ r ∈ opcodeTable, ∀ r' ∈ opcodeTable, r.mnemonic = r'.mnemonic → r = r' := by
  decide

/-- Two rows differ in a bit that both look at. -/
theorem opcodeTable_disjoint : ∀ r ∈ opcodeTable, ∀ r' ∈ opcodeTable,
    r.pattern &&& r'.mask = r'.pattern &&& r.mask → r = r' := by decide

/-- No word matches two rows. -/
theorem row_unique {w : OpWord} {r r' : OpcodeRow} (hr : r ∈ opcodeTable) (hr' : r' ∈ opcodeTable)
    (h : r.matchesWord w = true) (h' : r'.matchesWord w = true) : r = r' := by
  refine opcodeTable_disjoint r hr r' hr' ?_
  rw [← eq_of_beq h, ← eq_of_beq h', BitVec.and_assoc, BitVec.and_assoc, BitVec.and_comm r.mask]

/-- Every row looks at the whole offset and asks for a mapped one. -/
theorem opcodeTable_offsets : ∀ r ∈ opcodeTable, r.mask.extractLsb' 32 8 = 0xFF ∧
    mappedOffset (r.pattern.extractLsb' 32 8).toNat = true := by decide

/-- A word that matches a row decodes. -/
theorem decodeWord_of_matchesWord {w : OpWord} {r : OpcodeRow} (hr : r ∈ opcodeTable) (h : r.matchesWord w = true) :
    ∃ i, decodeWord w = some i := by
  obtain ⟨hmask, hmapped⟩ := opcodeTable_offsets r hr
  have hoff : mappedOffset (w.extractLsb' 32 8).toNat = true := by
    rw [← eq_of_beq h, BitVec.extractLsb'_and, hmask] at hmapped
    rwa [show (0xFF : BitVec 8) = BitVec.allOnes 8 from rfl, BitVec.and_allOnes] at hmapped
  have hlegal : (opOfWord w).legal = true := by
    unfold opOfWord
    generalize w.extractLsb' 32 8 = off at *
    split <;> simpa [Op.legal] using hoff
  obtain ⟨i, hi, -⟩ := decode_of_legal (opOfWord_ne_reset w) hlegal
  exact ⟨i, decodeWord_eq_some_iff.2 hi⟩

/-- Settles O2: a word that matches a row decodes, and then it matches the row of its instruction, which is the only one. -/
theorem opcodeTableIsExactlyTheDecoder : Obligations.OpcodeTableIsExactlyTheDecoder := by
  intro w r hr
  constructor
  · intro hmatch
    obtain ⟨i, hi⟩ := decodeWord_of_matchesWord hr hmatch
    obtain ⟨r', hr', hname, hmatch'⟩ := row_of_decodeWord hi
    exact ⟨i, hi, by rw [row_unique hr hr' hmatch hmatch', hname]⟩
  · rintro ⟨i, hi, hname⟩
    obtain ⟨r', hr', hname', hmatch'⟩ := row_of_decodeWord hi
    rwa [opcodeTable_mnemonic_inj r hr r' hr' (hname.symm.trans hname'.symm)]

end Sys2Proof
end

section
/-! The step on each kind of operation, reset, and the reads and plain writes (00_scope.md R10, 40_register_ops.md,
70_reset_and_hazards.md R163). -/

namespace Sys2Proof.Machine

/-- Settles O6: the four ways a step goes, from what decoding the oldest operation answers. -/
theorem stepAnswersTheOldestOperation : Obligations.StepAnswersTheOldestOperation := by
  refine fun s rest => ⟨fun op i hp hi => ?_, fun hp => ?_, fun op a hp ha => ?_, step_of_empty⟩
  · rw [step_of_pending hp, answer_of_instr hi]
  · rw [step_of_pending hp]; rfl
  · rw [step_of_pending hp, answer_of_invalid ha]; rfl

theorem answer_answers (op : Op) (s : State) : ∃ t, answer op s = .next t := by
  cases hd : decode op with
  | reset => exact ⟨_, by rw [answer, hd]; rfl⟩
  | instr i => rw [answer_of_instr hd]; exact exec_answers i s
  | invalid a => exact ⟨_, answer_of_invalid hd s⟩

/-- Settles O7: a step waits or answers. -/
theorem everyStepAnswers : Obligations.EveryStepAnswers := by
  intro s
  cases hp : s.pending with
  | nil => exact ⟨s, step_of_empty hp⟩
  | cons op rest => rw [step_of_pending hp]; exact answer_answers op _

/-- Settles O8: the values of `State.reset`; with no entry listed, every entry reads as the free value. -/
theorem resetStateValues : Obligations.ResetStateValues := by
  refine ⟨rfl, rfl, rfl, rfl, rfl, rfl, ?_, rfl, rfl, rfl, rfl, fun i => rfl⟩
  decide

/-- Settles O9: the reset answers from any state, and its buffer lists no entry. -/
theorem resetOperationRestoresEveryElement : Obligations.ResetOperationRestoresEveryElement :=
  fun _ _ hp => ⟨_, step_of_pending hp, rfl, fun _ => rfl⟩

/-- Settles O14: CTRL reads as its two bits, the other registers as they are. -/
theorem registerReadsAnswerTheRegister : Obligations.RegisterReadsAnswerTheRegister := by
  refine fun s => ⟨rfl, ?_, rfl, rfl⟩
  rw [← ctrlReadValue_eq]
  rfl

theorem exec_rdStatus (s : State) :
    exec .rdStatus s = .next { s with
      status := statusAfterRead s.status, irqPending := false, response := .okData (statusReadValue s.status) } := rfl

/-- A STATUS read of a state that one has just cleared finds FULL and EMPTY alone and changes nothing more. -/
theorem exec_rdStatus_twice {s t : State} (h : exec .rdStatus s = .next t) :
    exec .rdStatus t = .next { t with response := .okData (statusReadValue (statusAfterRead s.status)) } := by
  obtain rfl := respond_next.1 h
  rw [exec_rdStatus]
  simp [statusAfterRead_idem, complete]

/-- Settles O15: the bits of the mask, and a second read. -/
theorem statusReadAnswersThenClears : Obligations.StatusReadAnswersThenClears := by
  refine fun s => ⟨?_, fun t ht => ?_⟩
  · rw [← statusReadValue_eq]
    rfl
  · have htwice := exec_rdStatus_twice ht
    rw [statusReadValue_eq] at htwice
    obtain rfl := respond_next.1 ht
    obtain ⟨hready, hscplt, hpcplt, hfull, hempty⟩ := statusAfterRead_bits s.status
    exact ⟨hready, hscplt, hpcplt, hfull, hempty, htwice⟩

theorem nSamples_eq (cfg : Word) : nSamples cfg = 2 ^ (cfg.toNat / 2 % 8 + 4) := by
  rw [nSamples, log2Samples, selector_eq]

/-- Settles O16: the whole next state, and the length that the stored value selects. -/
theorem cfg0WriteSetsModeAndLength : Obligations.Cfg0WriteSetsModeAndLength := by
  refine fun v s => ⟨rfl, fun t ht => ?_⟩
  obtain rfl := respond_next.1 ht
  exact ⟨nSamples_eq v, nSamples_mem_legal v⟩

/-- Settles O17: the write is its own equation. -/
theorem datainWriteSetsOnlyTheLatch : Obligations.DatainWriteSetsOnlyTheLatch := fun _ _ => rfl

end Sys2Proof.Machine
end

section
/-! Invalid accesses (40_register_ops.md section 4). -/

namespace Sys2Proof.Machine

theorem invalidAccess_eq (isRead : Bool) (s : State) :
    invalidAccess isRead s = .next { s with
      response := if Config.addrMode = .strict then .err .invalidOffset else if isRead then .okData 0 else .ok } := by
  rw [invalidAccess, invalidResponse_eq]
  rfl

/-- Settles O18: one row reads, three write. -/
theorem wrongDirectionRowsAnswerByMode : Obligations.WrongDirectionRowsAnswerByMode := fun _ s =>
  ⟨invalidAccess_eq true s, invalidAccess_eq false s, invalidAccess_eq false s, invalidAccess_eq false s⟩

theorem answer_invalid_eq {op : Op} {a : InvalidAccess} (h : decode op = .invalid a) (s : State) :
    answer op s = invalidAccess a.isRead s := by
  rw [answer_of_invalid h]
  rfl

/-- A read that is not of a readable register is treated as invalid, whether it is legal (of DATAIN) or not. -/
theorem answer_read_invalid {off size : Nat} (h : size ≠ 4 ∨ off ∉ [0x00, 0x04, 0x08, 0x10, 0x14]) (s : State) :
    answer (.read off size) s = invalidAccess true s := by
  cases hlegal : (Op.read off size).legal with
  | false =>
    obtain ⟨a, ha, hread⟩ := decode_read_of_not_legal hlegal
    rw [answer_invalid_eq ha, hread]
  | true =>
    obtain ⟨rfl, rfl⟩ : size = 4 ∧ off = 0x0C := by
      simp [Op.legal, mappedOffset] at hlegal h
      omega
    rfl

/-- A write that is not to a writable register is treated as invalid, whether it is legal or not. -/
theorem answer_write_invalid {off size : Nat} (h : size ≠ 4 ∨ off ∉ [0x04, 0x08, 0x0C]) (v : Word) (s : State) :
    answer (.write off size v) s = invalidAccess false s := by
  cases hlegal : (Op.write off size v).legal with
  | false =>
    obtain ⟨a, ha, hread⟩ := decode_write_of_not_legal hlegal
    rw [answer_invalid_eq ha, hread]
  | true =>
    obtain ⟨rfl, rfl | rfl | rfl⟩ : size = 4 ∧ (off = 0x00 ∨ off = 0x10 ∨ off = 0x14) := by
      simp [Op.legal, mappedOffset] at hlegal h
      omega
    all_goals rfl

/-- Settles O19: by direction. -/
theorem invalidAccessesChangeNothing : Obligations.InvalidAccessesChangeNothing := by
  refine fun s off size v rest => ⟨fun hp h => ?_, fun hp h => ?_⟩
  · rw [step_of_pending hp, answer_read_invalid h, invalidAccess_eq]
    rfl
  · rw [step_of_pending hp, answer_write_invalid h, invalidAccess_eq]
    rfl

end Sys2Proof.Machine
end

section
/-! The CTRL commands as equations: when each is accepted, when refused, and the next state in full
(41_ctrl_commands.md R85 to R97). -/

namespace Sys2Proof.Machine

/-! ### Acceptance and refusal -/

theorem exec_ctrlSet (v : Word) (s : State) :
    exec (.ctrlSet v) s = .next (complete .ok (resetPass (ctrlEn v) (storeCtrl (ctrlEn v) (ctrlIen v) s))) := rfl

theorem exec_ctrlSamIn_accepted {s : State} (hc : s.configured = true)
    (hroom : s.sampleIndex + unitSize s.cfg ≤ nSamples s.cfg) (v : Word) :
    exec (.ctrlSamIn v) s = .next (complete .ok (resetPass true (ingest (storeCtrl true (ctrlIen v) s)))) := by
  simp [exec, execCtrlSamIn, ingestOverCapacity, hc, hroom, acceptCtrl, respond]

theorem exec_ctrlSamOut_accepted {s : State} (hc : s.configured = true)
    (hleft : s.resultIndex < nSamples s.cfg / 2) (v : Word) :
    exec (.ctrlSamOut v) s = .next (complete .ok (resetPass false (drain (storeCtrl false (ctrlIen v) s)))) := by
  simp [exec, execCtrlSamOut, drainOverCapacity, hc, hleft, acceptCtrl, respond]

theorem exec_ctrlPrc_accepted {s : State} (hc : s.configured = true) (v : Word) :
    exec (.ctrlPrc v) s =
      .next (complete .ok (resetPass (ctrlEn v) (process (storeCtrl (ctrlEn v) (ctrlIen v) s)))) := by
  simp [exec, execCtrlPrc, hc, acceptCtrl, respond]

theorem exec_ctrlSamIn_overCapacity {s : State} (hc : s.configured = true)
    (hfull : nSamples s.cfg < s.sampleIndex + unitSize s.cfg) (v : Word) :
    exec (.ctrlSamIn v) s = .next (complete (.err .overCapacity) s) := by
  simp [exec, execCtrlSamIn, ingestOverCapacity, hc, hfull, raise, respond]

theorem exec_ctrlSamOut_overCapacity {s : State} (hc : s.configured = true)
    (hnone : nSamples s.cfg / 2 ≤ s.resultIndex) (v : Word) :
    exec (.ctrlSamOut v) s = .next (complete (.err .overCapacity) s) := by
  simp [exec, execCtrlSamOut, drainOverCapacity, hc, hnone, raise, respond]

/-- Settles O30: the check for the flag comes first. -/
theorem triggersOfAnUnconfiguredDeviceAreRefused : Obligations.TriggersOfAnUnconfiguredDeviceAreRefused := by
  intro v s hc
  refine ⟨?_, ?_, ?_⟩
  · simp [exec, execCtrlSamIn, hc, raise, respond, complete]
  · simp [exec, execCtrlSamOut, hc, raise, respond, complete]
  · simp [exec, execCtrlPrc, hc, raise, respond, complete]

/-- Settles O31: the unit of the mode against `n_samples`, and the drain cursor against half of it. -/
theorem overCapacityIsRefused : Obligations.OverCapacityIsRefused :=
  fun v _ hc => ⟨fun hfull => exec_ctrlSamIn_overCapacity hc hfull v, fun hnone => exec_ctrlSamOut_overCapacity hc hnone v⟩

/-! ### The next state in full -/

/-- The reset pass with EN (R97). -/
theorem resetPass_true (s : State) :
    resetPass true s = { s with status := s.status &&& 0x0F, resultIndex := 0 } := rfl

/-- The reset pass without EN (R97). -/
theorem resetPass_false (s : State) :
    resetPass false s = { s with status := (s.status ||| 0x01) &&& 0x17, sampleIndex := 0 } := rfl

/-- Settles O20: the store, then the reset pass of the written EN. -/
theorem ctrlSetStoresAndRunsTheResetPass : Obligations.CtrlSetStoresAndRunsTheResetPass := by
  refine fun v s => ⟨fun hen => ?_, fun hen => ?_⟩
  · rw [exec_ctrlSet, show ctrlEn v = true from hen, resetPass_true]
    rfl
  · rw [exec_ctrlSet, show ctrlEn v = false from hen, resetPass_false]
    rfl

@[simp] theorem ingest_response (s : State) : (ingest s).response = s.response := by simp [ingest, ingestStore]

@[simp] theorem drain_response (s : State) : (drain s).response = s.response := by simp [drain, drainStore]

@[simp] theorem process_response (s : State) : (process s).response = s.response := rfl

theorem or_scplt_full (st : BitVec 5) : st ||| maskSCPLT ||| maskFULL = st ||| 0x0A := BitVec.or_assoc _ _ _

theorem or_scplt_empty (st : BitVec 5) : st ||| maskSCPLT ||| maskEMPTY = st ||| 0x12 := BitVec.or_assoc _ _ _

/-- An ingestion, field by field. -/
theorem ingest_eq (s : State) :
    ingest s = { s with
      sampleBuffer := ingestBuffer s.cfg s.datainLatch s.sampleBuffer s.sampleIndex
      sampleIndex := s.sampleIndex + unitSize s.cfg
      status := if s.sampleIndex + unitSize s.cfg = nSamples s.cfg then s.status ||| 0x0A else s.status ||| 0x02
      irqPending := s.irqPending || s.ien } := by
  apply State.ext <;> simp only [ingest_status, or_scplt_full] <;> simp
  rfl

/-- A drain, field by field. -/
theorem drain_eq (s : State) :
    drain s = { s with
      dataoutLatch := s.sampleBuffer.read s.resultIndex
      resultIndex := s.resultIndex + 1
      status := if s.resultIndex + 1 = nSamples s.cfg / 2 then s.status ||| 0x12 else s.status ||| 0x02
      irqPending := s.irqPending || s.ien } := by
  apply State.ext <;> simp only [drain_status, or_scplt_empty] <;> simp
  rfl

theorem process_eq (s : State) :
    process s = { s with
      sampleBuffer := transformBuffer s.cfg s.sampleBuffer
      status := s.status ||| 0x04
      irqPending := s.irqPending || s.ien } := by
  apply State.ext <;> simp
  rfl

/-- An accepted ingestion, field by field. -/
theorem exec_ctrlSamIn_eq {s : State} (hc : s.configured = true)
    (hroom : s.sampleIndex + unitSize s.cfg ≤ nSamples s.cfg) (v : Word) :
    exec (.ctrlSamIn v) s = .next { s with
      ctrl := packCtrl true (ctrlIen v)
      sampleBuffer := ingestBuffer s.cfg s.datainLatch s.sampleBuffer s.sampleIndex
      sampleIndex := s.sampleIndex + unitSize s.cfg
      status := (if s.sampleIndex + unitSize s.cfg = nSamples s.cfg then s.status ||| 0x0A else s.status ||| 0x02) &&& 0x0F
      resultIndex := 0
      irqPending := s.irqPending || ctrlIen v
      response := .ok } := by
  rw [exec_ctrlSamIn_accepted hc hroom, ingest_eq, resetPass_true, storeCtrl_ien]
  rfl

/-- Settles O21: the unit is the whole latch. -/
theorem ingestionIn32BitMode : Obligations.IngestionIn32BitMode := by
  intro v s hc hmode hroom
  have hmode : smode s.cfg = false := hmode
  have hunit : unitSize s.cfg = 1 := by simp [unitSize, hmode]
  rw [exec_ctrlSamIn_eq hc (hunit ▸ hroom), hunit]
  simp only [ingestBuffer, hmode]
  rfl

/-- Settles O22: the unit is the two halves of the latch. -/
theorem ingestionIn16BitMode : Obligations.IngestionIn16BitMode := by
  intro v s hc hmode hroom
  have hmode : smode s.cfg = true := hmode
  have hunit : unitSize s.cfg = 2 := by simp [unitSize, hmode]
  rw [exec_ctrlSamIn_eq hc (hunit ▸ hroom), hunit]
  simp only [ingestBuffer, hmode, lowHalf_eq, highHalf_eq]
  rfl

/-- Settles O23: the entry at `result_index`, then the reset pass without EN. -/
theorem drainCopiesOneEntry : Obligations.DrainCopiesOneEntry := by
  intro v s hc hleft
  rw [exec_ctrlSamOut_accepted hc hleft, drain_eq, resetPass_false, storeCtrl_ien]
  rfl

/-- Settles O24: the transform, then the reset pass of the written EN. -/
theorem processTransformsTheBuffer : Obligations.ProcessTransformsTheBuffer := by
  intro v s hc
  rw [exec_ctrlPrc_accepted hc, process_eq, storeCtrl_ien]
  cases hen : ctrlEn v with
  | true =>
    rw [show v.getLsbD 0 = true from hen, resetPass_true]
    rfl
  | false =>
    rw [show v.getLsbD 0 = false from hen, resetPass_false]
    simp only [storeCtrl, BitVec.or_assoc]
    rfl

/-- Settles O28: CTRL_SET with EN and IEN 0. -/
theorem softResetFromAnyState : Obligations.SoftResetFromAnyState := by
  refine fun s => ⟨by decide, _, exec_ctrlSet 0 s, rfl, ?_, ?_, rfl, ?_, ?_⟩
  all_goals simp [ctrlEn, ctrlIen]

/-- No bit of STATUS survives the two passes and the read. -/
theorem statusAfterRead_passes (st : BitVec 5) : statusAfterRead (statusAfterPass false (statusAfterPass true st)) = 0 := by
  revert st; decide

/-- Settles O29: the pass with EN, the pass without it, the STATUS read. -/
theorem twoCtrlWritesAndAStatusReadRecover : Obligations.TwoCtrlWritesAndAStatusReadRecover := fun s =>
  ⟨_, _, _, exec_ctrlSet 1 s, exec_ctrlSet 0 _, exec_rdStatus _, rfl, rfl, statusAfterRead_passes s.status, rfl, rfl, rfl,
    rfl, rfl, rfl, rfl⟩

/-! ### Every CTRL write -/

/-- The trigger that a CTRL value asks for (R85, R94). -/
def ctrlTrigger (v : Word) : State → State :=
  if ctrlSam v then (if ctrlEn v then ingest else drain) else if ctrlPrcBit v then process else id

/-- The algorithm of R85 in the operations of the model. -/
theorem ctrlWriteAlgorithm_eq (v : Word) (s : State) :
    ctrlWriteAlgorithm v s =
      if (ctrlSam v || ctrlPrcBit v) && !s.configured then raise .notConfigured s
      else if ctrlSam v && ctrlEn v && ingestOverCapacity s then raise .overCapacity s
      else if ctrlSam v && !ctrlEn v && drainOverCapacity s then raise .overCapacity s
      else acceptCtrl (ctrlEn v) (ctrlIen v) (ctrlTrigger v) s := by
  unfold ctrlWriteAlgorithm ctrlTrigger ctrlSam ctrlPrcBit ctrlEn
  cases v.getLsbD 0 <;> cases v.getLsbD 2 <;> cases v.getLsbD 3 <;> rfl

theorem exec_decodeCtrl_eq_algorithm (v : Word) (s : State) : exec (decodeCtrl v) s = ctrlWriteAlgorithm v s := by
  rw [ctrlWriteAlgorithm_eq]
  cases hsam : ctrlSam v with
  | true =>
    cases hen : ctrlEn v with
    | true => simp [decodeCtrl_of_sam_en hsam hen, ctrlTrigger, hsam, hen, exec, execCtrlSamIn]
    | false => simp [decodeCtrl_of_sam_not_en hsam hen, ctrlTrigger, hsam, hen, exec, execCtrlSamOut]
  | false =>
    cases hprc : ctrlPrcBit v with
    | true => simp [decodeCtrl_of_prc hsam hprc, ctrlTrigger, hsam, hprc, exec, execCtrlPrc]
    | false => simp [decodeCtrl_of_neither hsam hprc, ctrlTrigger, hsam, hprc, exec, execCtrlSet]

/-- Settles O25: by the command that the value selects. -/
theorem ctrlWritesFollowTheAlgorithm : Obligations.CtrlWritesFollowTheAlgorithm := by
  intro v s rest hp
  rw [step_of_pending hp, answer_ctrlWrite, exec_decodeCtrl_eq_algorithm]

end Sys2Proof.Machine
end

section
/-! What an accepted CTRL write does to the flags and cursors, and what every other operation keeps of them: one
structure each, from which the statements about STATUS, the interrupt, the cursors and the invariant follow. -/

namespace Sys2Proof.Machine

/-- The effect of an accepted CTRL command with the written EN and IEN: with `sam` an ingestion or a drain, by EN; with
`prc` a transform; with neither, no trigger (41_ctrl_commands.md R85 to R97). -/
structure CtrlEffect (en ien sam prc : Bool) (s t : State) : Prop where
  triggered_configured : sam = true ∨ prc = true → s.configured = true
  room : sam = true → en = true → s.sampleIndex + unitSize s.cfg ≤ nSamples s.cfg
  left : sam = true → en = false → s.resultIndex < nSamples s.cfg / 2
  response : t.response = .ok
  id : t.id = s.id
  cfg : t.cfg = s.cfg
  configured : t.configured = s.configured
  buffer_wf : s.sampleBuffer.wf = true → t.sampleBuffer.wf = true
  written_en : t.en = en
  ready : t.ready = (!en || s.ready)
  scplt : t.scplt = (sam || s.scplt)
  pcplt : t.pcplt = (prc || s.pcplt)
  full : t.full = (en && (s.full || (sam && s.sampleIndex + unitSize s.cfg == nSamples s.cfg)))
  empty : t.empty = (!en && (s.empty || (sam && s.resultIndex + 1 == nSamples s.cfg / 2)))
  irqPending : t.irqPending = (s.irqPending || ((sam || prc) && ien))
  sampleIndex : t.sampleIndex = if en then (if sam then s.sampleIndex + unitSize s.cfg else s.sampleIndex) else 0
  resultIndex : t.resultIndex = if en then 0 else (if sam then s.resultIndex + 1 else s.resultIndex)

theorem ctrlEffect_set (en ien : Bool) (s : State) :
    CtrlEffect en ien false false s (complete .ok (resetPass en (storeCtrl en ien s))) := by
  constructor <;> simp

theorem ctrlEffect_ingest {s : State} (hc : s.configured = true)
    (hroom : s.sampleIndex + unitSize s.cfg ≤ nSamples s.cfg) (ien : Bool) :
    CtrlEffect true ien true false s (complete .ok (resetPass true (ingest (storeCtrl true ien s)))) := by
  constructor
  case buffer_wf => simpa using ingestBuffer_wf s.cfg s.datainLatch hroom
  all_goals simp [hc, hroom]

theorem ctrlEffect_drain {s : State} (hc : s.configured = true) (hleft : s.resultIndex < nSamples s.cfg / 2)
    (ien : Bool) : CtrlEffect false ien true false s (complete .ok (resetPass false (drain (storeCtrl false ien s)))) := by
  constructor <;> simp [hc, hleft]

theorem ctrlEffect_process {s : State} (hc : s.configured = true) (en ien : Bool) :
    CtrlEffect en ien false true s (complete .ok (resetPass en (process (storeCtrl en ien s)))) := by
  constructor
  case buffer_wf => simpa using transformBuffer_wf s.cfg
  all_goals simp [hc]

/-- A CTRL write is refused, or it has the effect of the command that its value selects. -/
theorem ctrlWrite_effect {v : Word} {s t : State} (h : exec (decodeCtrl v) s = .next t) :
    (∃ k, t = complete (.err k) s) ∨
    CtrlEffect (v.getLsbD 0) (v.getLsbD 1) (v.getLsbD 2) (!v.getLsbD 2 && v.getLsbD 3) s t := by
  obtain ⟨-, -, rfl⟩ | ⟨-, -, -, rfl⟩ | ⟨hsam, hc, hen, hroom, rfl⟩ | ⟨hsam, hc, hen, hleft, rfl⟩ |
    ⟨hsam, hprc, hc, rfl⟩ | ⟨hsam, hprc, rfl⟩ := ctrlWrite_cases h
  · exact .inl ⟨_, rfl⟩
  · exact .inl ⟨_, rfl⟩
  all_goals right; simp only [ctrlEn, ctrlIen, ctrlSam, ctrlPrcBit] at *
  · rw [hsam, hen]; exact ctrlEffect_ingest hc hroom _
  · rw [hsam, hen]; exact ctrlEffect_drain hc hleft _
  · rw [hsam, hprc]; exact ctrlEffect_process hc _ _
  · rw [hsam, hprc]; exact ctrlEffect_set _ _ s

/-- `t` has the flags and cursors of `s`. -/
structure KeepsSession (s t : State) : Prop where
  ctrl : t.ctrl = s.ctrl
  status : t.status = s.status
  irqPending : t.irqPending = s.irqPending
  sampleIndex : t.sampleIndex = s.sampleIndex
  resultIndex : t.resultIndex = s.resultIndex

theorem KeepsSession.bits {s t : State} (h : KeepsSession s t) :
    t.en = s.en ∧ t.ready = s.ready ∧ t.scplt = s.scplt ∧ t.pcplt = s.pcplt ∧ t.full = s.full ∧ t.empty = s.empty := by
  simp only [State.en, State.ready, State.scplt, State.pcplt, State.full, State.empty, h.ctrl, h.status, and_self]

/-- The effect of a hard reset on flags and cursors (10_state.md R34). -/
structure ResetEffect (t : State) : Prop where
  ready : t.ready = true
  scplt : t.scplt = false
  pcplt : t.pcplt = false
  full : t.full = false
  empty : t.empty = false
  irqPending : t.irqPending = false
  sampleIndex : t.sampleIndex = 0
  resultIndex : t.resultIndex = 0

theorem reset_status_bits : State.reset.ready = true ∧ State.reset.scplt = false ∧ State.reset.pcplt = false ∧
    State.reset.full = false ∧ State.reset.empty = false := by decide

theorem hardReset_effect {s t : State} (h : hardReset s = .next t) : ResetEffect t := by
  cases h
  obtain ⟨hready, hscplt, hpcplt, hfull, hempty⟩ := reset_status_bits
  exact ⟨hready, hscplt, hpcplt, hfull, hempty, rfl, rfl, rfl⟩

/-- The effect of a STATUS read on flags and cursors (40_register_ops.md R74). -/
structure StatusReadEffect (s t : State) : Prop where
  cfg : t.cfg = s.cfg
  ready : t.ready = false
  scplt : t.scplt = false
  pcplt : t.pcplt = false
  full : t.full = s.full
  empty : t.empty = s.empty
  irqPending : t.irqPending = false
  sampleIndex : t.sampleIndex = s.sampleIndex
  resultIndex : t.resultIndex = s.resultIndex

theorem exec_rdStatus_effect {s t : State} (h : exec .rdStatus s = .next t) : StatusReadEffect s t := by
  obtain rfl := respond_next.1 h
  obtain ⟨hready, hscplt, hpcplt, hfull, hempty⟩ := statusAfterRead_bits s.status
  exact ⟨rfl, hready, hscplt, hpcplt, hfull, hempty, rfl, rfl, rfl⟩

/-- What an answered operation does to flags and cursors: the hard reset, a refused and an accepted CTRL write, a STATUS
read, any other operation. -/
theorem step_effect {s t : State} {op : Op} {rest : List Op} (hp : s.pending = op :: rest) (h : step s = .next t) :
    (op = .reset ∧ ResetEffect t) ∨
    (∃ v k, op = .write 0x04 4 v ∧ t.response = .err k ∧ t.cfg = s.cfg ∧ KeepsSession s t) ∨
    (∃ v, op = .write 0x04 4 v ∧
      CtrlEffect (v.getLsbD 0) (v.getLsbD 1) (v.getLsbD 2) (!v.getLsbD 2 && v.getLsbD 3) s t) ∨
    (op = .read 0x14 4 ∧ StatusReadEffect s t) ∨
    (op ≠ .reset ∧ (∀ v, op ≠ .write 0x04 4 v) ∧ op ≠ .read 0x14 4 ∧
      ((∀ v, op ≠ .write 0x08 4 v) → t.cfg = s.cfg) ∧ KeepsSession s t) := by
  rw [step_of_pending hp] at h
  obtain ⟨rfl, -⟩ | ⟨v, hop, hctrl⟩ | ⟨hop, hstatus⟩ | ⟨hreset, hctrl, hstatus, hother⟩ := answer_cases h
  case inl => exact .inl ⟨rfl, hardReset_effect h⟩
  case inr.inl =>
    right
    obtain ⟨k, rfl⟩ | heff := ctrlWrite_effect hctrl
    · exact .inl ⟨v, k, hop, rfl, rfl, ⟨rfl, rfl, rfl, rfl, rfl⟩⟩
    · exact .inr (.inl ⟨v, hop, { heff with }⟩)
  case inr.inr.inl => exact .inr (.inr (.inr (.inl ⟨hop, { exec_rdStatus_effect hstatus with }⟩)))
  case inr.inr.inr =>
    refine .inr (.inr (.inr (.inr ⟨hreset, hctrl, hstatus, ?_⟩)))
    obtain ⟨v, hop, rfl⟩ | ⟨v, hop, rfl⟩ | ⟨r, rfl, -⟩ := hother
    · exact ⟨fun hcfg => absurd hop (hcfg v), ⟨rfl, rfl, rfl, rfl, rfl⟩⟩
    · exact ⟨fun _ => rfl, ⟨rfl, rfl, rfl, rfl, rfl⟩⟩
    · exact ⟨fun _ => rfl, ⟨rfl, rfl, rfl, rfl, rfl⟩⟩

end Sys2Proof.Machine
end

section
/-! The invariant, step by step (10_state.md section 7). -/

namespace Sys2Proof.Machine

/-- Settles O10: nothing is written and nothing is enabled. -/
theorem resetSatisfiesTheInvariant : Obligations.ResetSatisfiesTheInvariant where
  id_constant := rfl
  buffer_wf := rfl
  sampleIndex_le := Nat.zero_le _
  resultIndex_le := Nat.zero_le _
  full_en := by decide
  empty_disabled := by decide
  enabled_resultIndex := fun _ => rfl
  disabled_sampleIndex := fun _ => rfl
  unconfigured := fun _ => ⟨rfl, rfl, rfl⟩

/-- The checks before the store bound the cursors. -/
theorem CtrlEffect.cursors_le {en ien sam prc : Bool} {s t : State} (h : CtrlEffect en ien sam prc s t) :
    t.sampleIndex ≤ max s.sampleIndex (nSamples s.cfg) ∧ t.resultIndex ≤ max s.resultIndex (nSamples s.cfg / 2) := by
  rw [h.sampleIndex, h.resultIndex]
  cases en with
  | true =>
    refine ⟨?_, Nat.zero_le _⟩
    cases sam with
    | true => exact le_max_of_le_right (h.room rfl rfl)
    | false => exact le_max_left _ _
  | false =>
    refine ⟨Nat.zero_le _, ?_⟩
    cases sam with
    | true => exact le_max_of_le_right (h.left rfl rfl)
    | false => exact le_max_left _ _

/-- The reset pass gives the flags their invariants. -/
theorem CtrlEffect.inv {en ien sam prc : Bool} {s t : State} (h : CtrlEffect en ien sam prc s t) (hs : s.Inv) : t.Inv where
  id_constant := h.id.trans hs.id_constant
  buffer_wf := h.buffer_wf hs.buffer_wf
  sampleIndex_le := h.cursors_le.1.trans (max_le hs.sampleIndex_le (nSamples_bounds s.cfg).2)
  resultIndex_le := h.cursors_le.2.trans (max_le hs.resultIndex_le (Nat.div_le_div_right (nSamples_bounds s.cfg).2))
  full_en := by
    rw [h.full, h.written_en]
    exact Bool.and_elim_left
  empty_disabled := by
    rw [h.empty, h.written_en]
    cases en <;> simp
  enabled_resultIndex := fun hen => by rw [h.resultIndex, ← h.written_en, if_pos hen]
  disabled_sampleIndex := fun hen => by rw [h.sampleIndex, ← h.written_en, if_neg (by simp [hen])]
  unconfigured := fun hc => by
    have hc' : s.configured = false := h.configured ▸ hc
    obtain ⟨hcfg, hsample, hresult⟩ := hs.unconfigured hc'
    have hsam : sam = false := by
      have := h.triggered_configured
      cases sam <;> simp_all
    exact ⟨h.cfg.trans hcfg, by simp [h.sampleIndex, hsam, hsample], by simp [h.resultIndex, hsam, hresult]⟩

/-- A STATUS read keeps FULL and EMPTY as they are. -/
theorem exec_rdStatus_inv {s t : State} (h : exec .rdStatus s = .next t) (hs : s.Inv) : t.Inv := by
  have heff := exec_rdStatus_effect h
  have hfull := heff.full ▸ hs.full_en
  have hempty := heff.empty ▸ hs.empty_disabled
  obtain rfl := respond_next.1 h
  exact { hs with full_en := hfull, empty_disabled := hempty }

theorem answer_inv {op : Op} {s t : State} (h : answer op s = .next t) (hs : s.Inv) : t.Inv := by
  obtain ⟨-, rfl⟩ | ⟨v, -, hctrl⟩ | ⟨-, hstatus⟩ | ⟨-, -, -, ⟨v, -, rfl⟩ | ⟨v, -, rfl⟩ | ⟨r, rfl, -⟩⟩ := answer_cases h
  · exact { resetSatisfiesTheInvariant with buffer_wf := Memory.wf_afterReset s.sampleBuffer }
  · obtain ⟨k, rfl⟩ | heff := ctrlWrite_effect hctrl
    · exact { hs with }
    · exact heff.inv hs
  · exact exec_rdStatus_inv hstatus hs
  · exact { hs with unconfigured := fun hc => nomatch hc }
  · exact { hs with }
  · exact { hs with }

/-- Settles O11: a wait changes nothing, and each answer keeps the invariant. -/
theorem everyStepKeepsTheInvariant : Obligations.EveryStepKeepsTheInvariant := by
  intro s t hs h
  cases hp : s.pending with
  | nil =>
    rw [step_of_empty hp] at h
    cases h
    exact hs
  | cons op rest =>
    rw [step_of_pending hp] at h
    exact answer_inv h { hs with }

/-- Settles O12, by induction on how the state was reached. -/
theorem reachableStatesSatisfyTheInvariant : Obligations.ReachableStatesSatisfyTheInvariant := by
  intro s h
  induction h with
  | reset => exact resetSatisfiesTheInvariant
  | issue s op _ ih => exact { ih with }
  | step s t _ hstep ih => exact everyStepKeepsTheInvariant s t ih hstep

/-- Settles O13: only an accepted ingestion or drain raises a cursor, and its check bounds it. -/
theorem cursorBoundsAreKeptButForCfg0Writes : Obligations.CursorBoundsAreKeptButForCfg0Writes := by
  intro s t op rest hp hcfg hsample hresult h
  obtain ⟨-, heff⟩ | ⟨v, k, -, -, hcfg', hkeep⟩ | ⟨v, -, heff⟩ | ⟨-, heff⟩ | ⟨-, -, -, hcfg', hkeep⟩ := step_effect hp h
  · rw [heff.sampleIndex, heff.resultIndex]
    exact ⟨Nat.zero_le _, Nat.zero_le _⟩
  · rw [hcfg', hkeep.sampleIndex, hkeep.resultIndex]
    exact ⟨hsample, hresult⟩
  · rw [heff.cfg]
    exact ⟨heff.cursors_le.1.trans (max_le hsample le_rfl), heff.cursors_le.2.trans (max_le hresult le_rfl)⟩
  · rw [heff.cfg, heff.sampleIndex, heff.resultIndex]
    exact ⟨hsample, hresult⟩
  · rw [hcfg' hcfg, hkeep.sampleIndex, hkeep.resultIndex]
    exact ⟨hsample, hresult⟩

end Sys2Proof.Machine
end

section
/-! The responses of a CTRL write, and what an error leaves (60_exceptions.md section 1). -/

namespace Sys2Proof.Machine

/-- An error answers with nothing changed. -/
theorem answer_err {op : Op} {s t : State} {k : ErrKind} (h : answer op s = .next t) (hk : t.response = .err k) :
    t = complete (.err k) s := by
  obtain ⟨-, rfl⟩ | ⟨v, -, hctrl⟩ | ⟨-, hstatus⟩ | ⟨-, -, -, ⟨v, -, rfl⟩ | ⟨v, -, rfl⟩ | ⟨r, rfl, -⟩⟩ := answer_cases h
  · cases hk
  · obtain ⟨k', rfl⟩ | heff := ctrlWrite_effect hctrl
    · rw [← hk]; rfl
    · rw [heff.response] at hk; cases hk
  · obtain rfl := respond_next.1 hstatus
    cases hk
  · cases hk
  · cases hk
  · rw [← hk]; rfl

/-- Settles O32: the step answers its operation. -/
theorem anErrorResponseChangesNothing : Obligations.AnErrorResponseChangesNothing := by
  intro s t op rest k hp h hk
  rw [step_of_pending hp] at h
  exact answer_err h hk

/-- Settles O33: the six outcomes of a CTRL write, each with its response. -/
theorem whichCtrlWritesAreRefused : Obligations.WhichCtrlWritesAreRefused := by
  intro v s t h
  rw [answer_ctrlWrite] at h
  obtain ⟨hsel, hc, rfl⟩ | ⟨hsam, hc, hcap, rfl⟩ | ⟨hsam, hc, hen, hroom, rfl⟩ | ⟨hsam, hc, hen, hleft, rfl⟩ |
    ⟨hsam, hprc, hc, rfl⟩ | ⟨hsam, hprc, rfl⟩ := ctrlWrite_cases h
  all_goals simp only [ctrlSam, ctrlPrcBit, ctrlEn, complete_response] at *
  all_goals generalize v.getLsbD 0 = en, v.getLsbD 2 = sam, v.getLsbD 3 = prc at *
  · simp [hsel, hc]
  · simp [hsam, hc, hcap]
  · simp [hsam, hc, hen, hroom]
  · simp [hsam, hc, hen, hleft]
  · simp [hsam, hc]
  · simp [hsam, hprc]

end Sys2Proof.Machine
end

section
/-! STATUS, the interrupt and the cursors over every step (10_state.md section 4, 60_exceptions.md section 2,
41_ctrl_commands.md section 4). -/

namespace Sys2Proof.Machine

/-- Settles O35: the hard reset and an accepted CTRL write without EN set READY, the STATUS read clears it, and every
other operation keeps it. -/
theorem readyIsSetAndClearedOnlyAsStated : Obligations.ReadyIsSetAndClearedOnlyAsStated := by
  intro s t op rest hp h
  obtain ⟨rfl, heff⟩ | ⟨v, k, rfl, hr, -, hkeep⟩ | ⟨v, rfl, heff⟩ | ⟨rfl, heff⟩ | ⟨hreset, hctrl, hstatus, -, hkeep⟩ :=
    step_effect hp h
  · simp [heff.ready]
  · obtain ⟨-, hready, -⟩ := hkeep.bits
    simp [hready, hr, hkeep.irqPending]
  · refine ⟨by rw [heff.ready, heff.response]; simp, ?_⟩
    rintro v' ⟨⟩ hsam hprc
    rw [heff.irqPending, hsam, hprc]
    simp
  · simp [heff.ready]
  · obtain ⟨-, hready, -⟩ := hkeep.bits
    simp [hready, hreset, hctrl, hstatus]

/-- Settles O36: an accepted CTRL write sets them by its SAM and PRC, the STATUS read and the hard reset clear them, and
every other operation keeps them. -/
theorem edgeBitsAreSetAndClearedOnlyAsStated : Obligations.EdgeBitsAreSetAndClearedOnlyAsStated := by
  intro s t op rest hp h
  obtain ⟨rfl, heff⟩ | ⟨v, k, rfl, hr, -, hkeep⟩ | ⟨v, rfl, heff⟩ | ⟨rfl, heff⟩ | ⟨hreset, hctrl, hstatus, -, hkeep⟩ :=
    step_effect hp h
  · simp [heff.scplt, heff.pcplt]
  · obtain ⟨-, -, hscplt, hpcplt, -, -⟩ := hkeep.bits
    simp [hscplt, hpcplt, hr]
  · refine ⟨by rw [heff.scplt, heff.response]; simp, by rw [heff.pcplt, heff.response]; simp, ?_⟩
    rintro v' ⟨⟩ hien htrigger -
    rw [heff.irqPending, hien]
    revert htrigger
    cases v.getLsbD 2 <;> cases v.getLsbD 3 <;> simp
  · simp [heff.scplt, heff.pcplt]
  · obtain ⟨-, -, hscplt, hpcplt, -, -⟩ := hkeep.bits
    simp [hscplt, hpcplt, hreset, hctrl, hstatus]

/-- Settles O37: an accepted CTRL write sets and clears them by its EN, the hard reset clears them, and every other
operation keeps them. -/
theorem stickyBitsAreSetAndClearedOnlyAsStated : Obligations.StickyBitsAreSetAndClearedOnlyAsStated := by
  intro s t op rest hp h
  obtain ⟨rfl, heff⟩ | ⟨v, k, rfl, hr, -, hkeep⟩ | ⟨v, rfl, heff⟩ | ⟨rfl, heff⟩ | ⟨hreset, hctrl, hstatus, -, hkeep⟩ :=
    step_effect hp h
  · simp [heff.full, heff.empty]
  · obtain ⟨-, -, -, -, hfull, hempty⟩ := hkeep.bits
    simp [hfull, hempty, hr]
  · rw [heff.full, heff.empty, heff.response]
    cases hen : v.getLsbD 0 <;> cases hsam : v.getLsbD 2 <;> simp_all [or_comm]
  · simp [heff.full, heff.empty]
  · obtain ⟨-, -, -, -, hfull, hempty⟩ := hkeep.bits
    simp [hfull, hempty, hreset, hctrl]

/-- Settles O38: an accepted CTRL write with a trigger and IEN raises the latch, the STATUS read and the hard reset lower
it, and every other operation, and a wait, keeps it. -/
theorem interruptRisesAndFallsOnlyAsStated : Obligations.InterruptRisesAndFallsOnlyAsStated := by
  refine ⟨fun s t op rest hp h => ?_, fun s t hp h => ?_⟩
  · simp only [State.irq]
    obtain ⟨rfl, heff⟩ | ⟨v, k, rfl, hr, -, hkeep⟩ | ⟨v, rfl, heff⟩ | ⟨rfl, heff⟩ | ⟨hreset, hctrl, hstatus, -, hkeep⟩ :=
      step_effect hp h
    · simp [heff.irqPending]
    · simp [hkeep.irqPending, hr]
    · rw [heff.irqPending, heff.response]
      cases hien : v.getLsbD 1 <;> cases hsam : v.getLsbD 2 <;> cases hprc : v.getLsbD 3 <;> simp_all
    · simp [heff.irqPending]
    · simp [hkeep.irqPending, hreset, hctrl, hstatus]
  · rw [step_of_empty hp] at h
    cases h
    rfl

theorem CtrlEffect.cursors_exclusive {en ien sam prc : Bool} {s t : State} (h : CtrlEffect en ien sam prc s t) :
    (s.sampleIndex < t.sampleIndex → sam = true ∧ en = true ∧ t.en = true ∧ t.resultIndex = 0) ∧
    (s.resultIndex < t.resultIndex → sam = true ∧ en = false ∧ t.en = false ∧ t.sampleIndex = 0) := by
  rw [h.sampleIndex, h.resultIndex, h.written_en]
  cases en <;> cases sam <;> simp

/-- What moves a cursor is a CTRL write with the effect of its value. -/
theorem step_moves_cursor {s t : State} (h : step s = .next t)
    (hmove : s.sampleIndex < t.sampleIndex ∨ s.resultIndex < t.resultIndex) :
    ∃ v, s.pending.head? = some (.write 0x04 4 v) ∧
      CtrlEffect (v.getLsbD 0) (v.getLsbD 1) (v.getLsbD 2) (!v.getLsbD 2 && v.getLsbD 3) s t := by
  cases hp : s.pending with
  | nil =>
    rw [step_of_empty hp] at h
    cases h
    omega
  | cons op rest =>
    obtain ⟨-, heff⟩ | ⟨v, k, -, -, -, hkeep⟩ | ⟨v, rfl, heff⟩ | ⟨-, heff⟩ | ⟨-, -, -, -, hkeep⟩ := step_effect hp h
    · simp [heff.sampleIndex, heff.resultIndex] at hmove
    · simp [hkeep.sampleIndex, hkeep.resultIndex] at hmove
    · exact ⟨v, rfl, heff⟩
    · simp [heff.sampleIndex, heff.resultIndex] at hmove
    · simp [hkeep.sampleIndex, hkeep.resultIndex] at hmove

/-- Settles O39: a cursor moves only in a CTRL write with SAM and its EN, whose reset pass zeroes the other one. -/
theorem theTwoCursorsNeverAdvanceTogether : Obligations.TheTwoCursorsNeverAdvanceTogether := by
  intro s t h
  refine ⟨fun ⟨hsample, hresult⟩ => ?_, fun hsample => ?_, fun hresult => ?_⟩
  · obtain ⟨v, -, heff⟩ := step_moves_cursor h (.inl hsample)
    obtain ⟨-, -, -, hzero⟩ := heff.cursors_exclusive.1 hsample
    omega
  · obtain ⟨v, hv, heff⟩ := step_moves_cursor h (.inl hsample)
    obtain ⟨hsam, hen, hten, hzero⟩ := heff.cursors_exclusive.1 hsample
    exact ⟨⟨v, hv, hsam, hen⟩, hten, hzero⟩
  · obtain ⟨v, hv, heff⟩ := step_moves_cursor h (.inr hresult)
    obtain ⟨hsam, hen, hten, hzero⟩ := heff.cursors_exclusive.2 hresult
    exact ⟨⟨v, hv, hsam, hen⟩, hten, hzero⟩

end Sys2Proof.Machine
end

section
/-! Frames: which elements an instruction changes (10_state.md sections 2 to 6), and what a transform reads
(43_transform_engine.md R114). -/

namespace Sys2Proof.Machine

/-- The four accepted CTRL commands: what none of them changes. -/
theorem command_frame {i : Instr} {s t : State} (h : exec i s = .next t) (hi : isCtrlCommand i = true) :
    t.id = s.id ∧ t.pending = s.pending ∧ t.sampleBuffer.epoch = s.sampleBuffer.epoch ∧ t.cfg = s.cfg ∧
    t.configured = s.configured ∧ t.datainLatch = s.datainLatch ∧
    ((∀ v, i ≠ .ctrlSamOut v) → t.dataoutLatch = s.dataoutLatch) := by
  obtain ⟨r, rfl⟩ | ⟨rfl, -⟩ | ⟨v, rfl, -⟩ | ⟨v, rfl, -⟩ | ⟨v, -, rfl⟩ | ⟨v, -, -, -, rfl⟩ | ⟨v, rfl, -, -, rfl⟩ |
    ⟨v, -, -, rfl⟩ := exec_cases h
  · simp
  · cases hi
  · cases hi
  · cases hi
  · simp
  · simp
  · simp
  · simp

/-- The other rows: what none of them changes. -/
theorem register_access_frame {i : Instr} {s t : State} (h : exec i s = .next t) (hi : isCtrlCommand i = false) :
    t.id = s.id ∧ t.pending = s.pending ∧ t.sampleBuffer = s.sampleBuffer ∧ t.dataoutLatch = s.dataoutLatch ∧
    t.ctrl = s.ctrl ∧ t.sampleIndex = s.sampleIndex ∧ t.resultIndex = s.resultIndex ∧ t.full = s.full ∧
    t.empty = s.empty ∧ (i ≠ .rdStatus → t.status = s.status ∧ t.irqPending = s.irqPending) ∧
    ((∀ v, i ≠ .wrCfg0 v) → t.cfg = s.cfg ∧ t.configured = s.configured) ∧
    ((∀ v, i ≠ .wrDatain v) → t.datainLatch = s.datainLatch) := by
  obtain ⟨r, rfl⟩ | ⟨rfl, rfl⟩ | ⟨v, rfl, rfl⟩ | ⟨v, rfl, rfl⟩ | ⟨v, rfl, -⟩ | ⟨v, rfl, -⟩ | ⟨v, rfl, -⟩ | ⟨v, rfl, -⟩ :=
    exec_cases h
  · simp
  · obtain ⟨-, -, -, hfull, hempty⟩ := statusAfterRead_bits s.status
    simpa using ⟨hfull, hempty⟩
  · simp [State.full, State.empty]
  · simp [State.full, State.empty]
  all_goals cases hi

/-- Settles O41: by the two kinds of row. -/
theorem registersChangeOnlyByTheirWriters : Obligations.RegistersChangeOnlyByTheirWriters := by
  intro i s t h
  cases hi : isCtrlCommand i with
  | true =>
    obtain ⟨hid, hpending, hepoch, hcfg, hconfigured, hin, hout⟩ := command_frame h hi
    exact ⟨hid, hpending, hepoch, fun _ => ⟨hcfg, hconfigured⟩, fun _ => hin, hout, fun h => nomatch h⟩
  | false =>
    obtain ⟨hid, hpending, hbuf, hout, hctrl, hsample, hresult, hfull, hempty, hstatus, hcfg, hin⟩ :=
      register_access_frame h hi
    exact ⟨hid, hpending, by rw [hbuf], hcfg, hin, fun _ => hout,
      fun _ => ⟨hctrl, hsample, hresult, hstatus, hfull, hempty⟩⟩

/-- Settles O42: the buffer is written by an ingestion and a transform alone, each within its bounds. -/
theorem bufferChangesOnlyWhereStored : Obligations.BufferChangesOnlyWhereStored := by
  intro i s t a h hno
  obtain ⟨r, rfl⟩ | ⟨-, rfl⟩ | ⟨v, -, rfl⟩ | ⟨v, -, rfl⟩ | ⟨v, -, rfl⟩ | ⟨v, rfl, -, -, rfl⟩ | ⟨v, -, -, -, rfl⟩ |
    ⟨v, rfl, -, rfl⟩ := exec_cases h
  case inr.inr.inr.inr.inr.inl =>
    simp only [complete_sampleBuffer, resetPass_sampleBuffer, ingest_sampleBuffer, storeCtrl_cfg, storeCtrl_datainLatch,
      storeCtrl_sampleBuffer, storeCtrl_sampleIndex]
    refine ingestBuffer_read_outside _ _ _ ?_
    simp [storesEntry] at hno
    omega
  case inr.inr.inr.inr.inr.inr.inr =>
    have hout : nSamples s.cfg ≤ a := by simpa [storesEntry] using hno
    simpa using transformBuffer_read_outside s.cfg s.sampleBuffer hout
  all_goals simp

/-- With SAM set a CTRL write reads no more of its value than EN and IEN. -/
theorem exec_decodeCtrl_congr_of_sam {v v' : Word} (hsam : ctrlSam v = true) (hsam' : ctrlSam v' = true)
    (hen : ctrlEn v = ctrlEn v') (hien : ctrlIen v = ctrlIen v') (s : State) :
    exec (decodeCtrl v) s = exec (decodeCtrl v') s := by
  cases he : ctrlEn v with
  | true =>
    rw [decodeCtrl_of_sam_en hsam he, decodeCtrl_of_sam_en hsam' (hen ▸ he)]
    exact execCtrlSamIn_congr hien s
  | false =>
    rw [decodeCtrl_of_sam_not_en hsam he, decodeCtrl_of_sam_not_en hsam' (hen ▸ he)]
    exact execCtrlSamOut_congr hien s

/-- A value without its PRC bit has the same other three fields. -/
theorem ctrl_fields_without_prc (v : Word) :
    ctrlEn (v &&& 0xFFFFFFF7) = ctrlEn v ∧ ctrlIen (v &&& 0xFFFFFFF7) = ctrlIen v ∧
    ctrlSam (v &&& 0xFFFFFFF7) = ctrlSam v := by
  simp [ctrlEn, ctrlIen, ctrlSam]

/-- Settles O27: the value selects the SAM command; PRC is not among the bits that command reads; an ingestion and a
drain leave PCPLT, and the buffer but for the ingested unit. -/
theorem samWinsOverPrc : Obligations.SamWinsOverPrc := by
  intro v s t hsam hprc
  have hdecode : decodeCtrl v = if v.getLsbD 0 then .ctrlSamIn v else .ctrlSamOut v := if_pos hsam
  refine ⟨by rw [decode_ctrlWrite, hdecode], ?_, fun h => ?_⟩
  · obtain ⟨hen, hien, hsam'⟩ := ctrl_fields_without_prc v
    rw [answer_ctrlWrite, answer_ctrlWrite]
    exact exec_decodeCtrl_congr_of_sam hsam (hsam'.trans hsam) hen.symm hien.symm s
  · rw [answer_ctrlWrite] at h
    refine ⟨?_, fun a ha => ?_⟩
    · obtain ⟨k, rfl⟩ | heff := ctrlWrite_effect h
      · rfl
      · rw [heff.pcplt, hsam]; rfl
    · refine bufferChangesOnlyWhereStored _ _ _ a h ?_
      rw [hdecode]
      split
      · next hen => simpa [storesEntry, hen] using ha
      · rfl

/-- SMODE and the length are read from the low four bits of CFG0. -/
theorem cfg_fields_congr {c c' : Word} (h : ∀ b, b < 4 → c.getLsbD b = c'.getLsbD b) :
    smode c = smode c' ∧ log2Samples c = log2Samples c' := by
  have hmask : c &&& nsamplesMask = c' &&& nsamplesMask := by
    refine BitVec.eq_of_getLsbD_eq fun i hi => ?_
    rw [BitVec.getLsbD_and, BitVec.getLsbD_and]
    by_cases hlow : i < 4
    · rw [h i hlow]
    · have hzero : ∀ i : Fin 32, ¬ (i : Nat) < 4 → nsamplesMask.getLsbD i = false := by decide
      simp [hzero ⟨i, hi⟩ hlow]
  exact ⟨h 0 (by decide), by rw [log2Samples, log2Samples, selector, selector, hmask]⟩

/-- Settles O44: the outputs are computed from SMODE, the length and the entries below it. -/
theorem transformReadsNothingElse : Obligations.TransformReadsNothingElse := by
  intro v v' s s' t t' hc hc' hcfg hbuf h h' k hk
  obtain ⟨hmode, hlog⟩ := cfg_fields_congr hcfg
  have hn : nSamples s'.cfg = nSamples s.cfg := by rw [nSamples, nSamples, hlog]
  obtain ⟨-, -, ht⟩ := exec_ctrlPrc_configured hc h
  obtain ⟨-, -, ht'⟩ := exec_ctrlPrc_configured hc' h'
  have hout := transform_getElem?_eq_transformBuffer_read s.cfg s.sampleBuffer hk
  have hout' := transform_getElem?_eq_transformBuffer_read s'.cfg s'.sampleBuffer (hn ▸ hk)
  rw [Memory.firstEntries_congr hbuf, hmode, hlog] at hout
  rw [hn, hout] at hout'
  rw [ht, ht']
  exact Option.some.inj hout'

end Sys2Proof.Machine
end

section
/-! The protocol's transition table (41_ctrl_commands.md R100). -/

namespace Sys2Proof.Machine

theorem exec_ctrlSet_effect {v : Word} {s t : State} (h : exec (.ctrlSet v) s = .next t) :
    CtrlEffect (v.getLsbD 0) (v.getLsbD 1) false false s t := by
  obtain rfl := execCtrlSet_next.1 h
  exact ctrlEffect_set _ _ s

theorem exec_ctrlPrc_effect {v : Word} {s t : State} (h : exec (.ctrlPrc v) s = .next t) (hc : s.configured = true) :
    CtrlEffect (v.getLsbD 0) (v.getLsbD 1) false true s t := by
  rw [exec_ctrlPrc_accepted hc] at h
  cases h
  exact ctrlEffect_process hc _ _

theorem exec_ctrlSamIn_effect {v : Word} {s t : State} (h : exec (.ctrlSamIn v) s = .next t)
    (hc : s.configured = true) (hroom : s.sampleIndex + unitSize s.cfg ≤ nSamples s.cfg) :
    CtrlEffect true (v.getLsbD 1) true false s t := by
  rw [exec_ctrlSamIn_accepted hc hroom] at h
  cases h
  exact ctrlEffect_ingest hc hroom _

theorem exec_ctrlSamOut_effect {v : Word} {s t : State} (h : exec (.ctrlSamOut v) s = .next t)
    (hc : s.configured = true) (hleft : s.resultIndex < nSamples s.cfg / 2) :
    CtrlEffect false (v.getLsbD 1) true false s t := by
  rw [exec_ctrlSamOut_accepted hc hleft] at h
  cases h
  exact ctrlEffect_drain hc hleft _

/-- An accepted command, whichever it is. -/
theorem command_effect {i : Instr} {s t : State} (hi : isCtrlCommand i = true) (h : exec i s = .next t)
    (hok : t.response = .ok) : ∃ en ien sam prc, CtrlEffect en ien sam prc s t := by
  cases i with
  | ctrlSet v => exact ⟨_, _, _, _, exec_ctrlSet_effect h⟩
  | ctrlSamIn v =>
    obtain ⟨-, rfl⟩ | ⟨-, -, rfl⟩ | ⟨hc, hroom, -⟩ := execCtrlSamIn_cases h
    · cases hok
    · cases hok
    · exact ⟨_, _, _, _, exec_ctrlSamIn_effect h hc hroom⟩
  | ctrlSamOut v =>
    obtain ⟨-, rfl⟩ | ⟨-, -, rfl⟩ | ⟨hc, hleft, -⟩ := execCtrlSamOut_cases h
    · cases hok
    · cases hok
    · exact ⟨_, _, _, _, exec_ctrlSamOut_effect h hc hleft⟩
  | ctrlPrc v =>
    obtain ⟨-, rfl⟩ | ⟨hc, -⟩ := execCtrlPrc_cases h
    · cases hok
    · exact ⟨_, _, _, _, exec_ctrlPrc_effect h hc⟩
  | _ => cases hi

/-! ### The protocol states as propositions -/

theorem isIngesting_iff {s : State} : s.isIngesting = true ↔ s.en = true ∧ s.sampleIndex < nSamples s.cfg := by
  simp [State.isIngesting]

theorem isReadyToProcess_iff {s : State} :
    s.isReadyToProcess = true ↔ s.en = true ∧ s.sampleIndex = nSamples s.cfg := by
  simp [State.isReadyToProcess]

theorem isDraining_iff {s : State} : s.isDraining = true ↔ s.en = false ∧ s.resultIndex < nSamples s.cfg / 2 := by
  simp [State.isDraining]

theorem isDrained_iff {s : State} : s.isDrained = true ↔ s.en = false ∧ s.resultIndex = nSamples s.cfg / 2 := by
  simp [State.isDrained]

/-- A device with a cursor off zero is configured, and so is one at a bound. -/
theorem State.Inv.configured_of_sampleIndex {s : State} (hs : s.Inv) (h : s.sampleIndex ≠ 0) : s.configured = true := by
  by_contra hc
  exact h (hs.unconfigured (by simpa using hc)).2.1

theorem State.Inv.configured_of_resultIndex {s : State} (hs : s.Inv) (h : s.resultIndex ≠ 0) : s.configured = true := by
  by_contra hc
  exact h (hs.unconfigured (by simpa using hc)).2.2

/-- STATUS already shows what the pass without EN clears and sets, or the pass with EN clears. -/
theorem statusAfterPass_of_clear (st : BitVec 5) :
    (st.getLsbD 3 = false → statusAfterPass false st = st ||| 0x01) ∧
    (st.getLsbD 4 = false → statusAfterPass true st = st) := by
  revert st; decide

/-! ### The rows, by command -/

section
variable {s t : State} {v : Word}

/-- CTRL_SET with EN: from a disabled device to Ingesting, and nothing from an enabled one. -/
theorem ctrlSet_enable_rows (hs : s.Inv) (h : exec (.ctrlSet v) s = .next t) (hv : v.getLsbD 0 = true) :
    (s.en = false → t.isIngesting = true ∧ t.sampleIndex = 0 ∧ t.empty = false) ∧
    (s.en = true → t.en = true ∧ t.sampleIndex = s.sampleIndex ∧ t.resultIndex = s.resultIndex ∧ t.status = s.status) := by
  have heff := exec_ctrlSet_effect h
  rw [hv] at heff
  have hn := (nSamples_bounds s.cfg).1
  refine ⟨fun hen => ?_, fun hen => ?_⟩
  · have hsample := hs.disabled_sampleIndex hen
    simp [isIngesting_iff, heff.written_en, heff.sampleIndex, heff.cfg, heff.empty, hsample]
    omega
  · have hempty : s.empty = false := by
      by_contra he
      simpa [hen] using hs.empty_disabled (by simpa using he)
    have hstatus : t.status = statusAfterPass true s.status := by
      obtain rfl := execCtrlSet_next.1 h
      simp [ctrlEn, -BitVec.getLsbD_eq_getElem, hv]
    rw [hstatus, (statusAfterPass_of_clear s.status).2 hempty]
    simp [heff.written_en, heff.sampleIndex, heff.resultIndex, hs.enabled_resultIndex hen]

/-- CTRL_SET without EN: from an enabled device to Draining, and READY alone from a disabled one. -/
theorem ctrlSet_disable_rows (hs : s.Inv) (h : exec (.ctrlSet v) s = .next t) (hv : v.getLsbD 0 = false) :
    (s.en = true → t.isDraining = true ∧ t.resultIndex = 0 ∧ t.isIdle = true ∧ t.ready = true ∧ t.full = false) ∧
    (s.en = false → t.en = false ∧ t.sampleIndex = s.sampleIndex ∧ t.resultIndex = s.resultIndex ∧ t.ready = true ∧
      t.status = s.status ||| 0x01) := by
  have heff := exec_ctrlSet_effect h
  rw [hv] at heff
  have hn := (nSamples_bounds s.cfg).1
  refine ⟨fun hen => ?_, fun hen => ?_⟩
  · have hresult := hs.enabled_resultIndex hen
    simp [isDraining_iff, State.isIdle, heff.written_en, heff.sampleIndex, heff.resultIndex, heff.cfg, heff.ready,
      heff.full, hresult]
    omega
  · have hfull : s.full = false := by
      by_contra hf
      simpa [hen] using hs.full_en (by simpa using hf)
    have hstatus : t.status = statusAfterPass false s.status := by
      obtain rfl := execCtrlSet_next.1 h
      simp [ctrlEn, -BitVec.getLsbD_eq_getElem, hv]
    rw [hstatus, (statusAfterPass_of_clear s.status).1 hfull]
    simp [heff.written_en, heff.sampleIndex, heff.resultIndex, heff.ready, hs.disabled_sampleIndex hen]

/-- CTRL_SAM_IN: the first unit, a unit that leaves room, the unit that fills the buffer, one unit more. -/
theorem ctrlSamIn_rows (hs : s.Inv) (h : exec (.ctrlSamIn v) s = .next t) :
    (s.en = false → s.configured = true →
      t.isIngesting = true ∧ t.sampleIndex = unitSize s.cfg ∧ t.scplt = true) ∧
    (s.isIngesting = true → s.configured = true →
      (s.sampleIndex + unitSize s.cfg < nSamples s.cfg → t.isIngesting = true ∧ t.scplt = true) ∧
      (s.sampleIndex + unitSize s.cfg = nSamples s.cfg → t.isReadyToProcess = true ∧ t.scplt = true ∧ t.full = true)) ∧
    (s.isReadyToProcess = true → t = { s with response := .err .overCapacity }) := by
  have hn := (nSamples_bounds s.cfg).1
  have hu := unitSize_bounds s.cfg
  simp only [isIngesting_iff, isReadyToProcess_iff]
  refine ⟨fun hen hc => ?_, fun _ hc => ⟨fun hlt => ?_, fun heq => ?_⟩, fun ⟨_, hfull⟩ => ?_⟩
  · have hsample := hs.disabled_sampleIndex hen
    have heff := exec_ctrlSamIn_effect h hc (by omega)
    simp [heff.written_en, heff.sampleIndex, heff.cfg, heff.scplt, hsample]
    omega
  · have heff := exec_ctrlSamIn_effect h hc hlt.le
    simp [heff.written_en, heff.sampleIndex, heff.cfg, heff.scplt, hlt]
  · have heff := exec_ctrlSamIn_effect h hc heq.le
    simp [heff.written_en, heff.sampleIndex, heff.cfg, heff.scplt, heff.full, heq]
  · have hc := hs.configured_of_sampleIndex (by omega)
    rw [exec_ctrlSamIn_overCapacity hc (by omega)] at h
    cases h
    rfl

/-- CTRL_SAM_OUT: the first result, a result that leaves some, the last one, one result more. -/
theorem ctrlSamOut_rows (hs : s.Inv) (h : exec (.ctrlSamOut v) s = .next t) :
    (s.en = true → s.configured = true →
      t.isDraining = true ∧ t.resultIndex = 1 ∧ t.scplt = true ∧ t.ready = true ∧ t.full = false) ∧
    (s.isDraining = true → s.configured = true →
      (s.resultIndex + 1 < nSamples s.cfg / 2 → t.isDraining = true ∧ t.scplt = true ∧ t.ready = true) ∧
      (s.resultIndex + 1 = nSamples s.cfg / 2 →
        t.isDrained = true ∧ t.scplt = true ∧ t.empty = true ∧ t.ready = true)) ∧
    (s.isDrained = true → t = { s with response := .err .overCapacity }) := by
  have hn := (nSamples_bounds s.cfg).1
  simp only [isDraining_iff, isDrained_iff]
  refine ⟨fun hen hc => ?_, fun ⟨_, hleft⟩ hc => ⟨fun hlt => ?_, fun heq => ?_⟩, fun ⟨_, hnone⟩ => ?_⟩
  · have hresult := hs.enabled_resultIndex hen
    have heff := exec_ctrlSamOut_effect h hc (by omega)
    simp [heff.written_en, heff.resultIndex, heff.cfg, heff.scplt, heff.ready, heff.full, hresult]
    omega
  · have heff := exec_ctrlSamOut_effect h hc hleft
    simp [heff.written_en, heff.resultIndex, heff.cfg, heff.scplt, heff.ready, hlt]
  · have heff := exec_ctrlSamOut_effect h hc hleft
    simp [heff.written_en, heff.resultIndex, heff.cfg, heff.scplt, heff.ready, heff.empty, heq]
  · have hc := hs.configured_of_resultIndex (by omega)
    rw [exec_ctrlSamOut_overCapacity hc (by omega)] at h
    cases h
    rfl

/-- CTRL_PRC: the cursors go with the written EN, as for CTRL_SET. -/
theorem ctrlPrc_rows (hs : s.Inv) (h : exec (.ctrlPrc v) s = .next t) (hc : s.configured = true) :
    t.pcplt = true ∧ t.en = v.getLsbD 0 ∧
    (v.getLsbD 0 = true → s.en = true → t.sampleIndex = s.sampleIndex ∧ t.resultIndex = s.resultIndex ∧
      t.isIngesting = s.isIngesting ∧ t.isReadyToProcess = s.isReadyToProcess) ∧
    (v.getLsbD 0 = true → s.en = false → t.isIngesting = true ∧ t.sampleIndex = 0 ∧ t.resultIndex = 0 ∧
      t.empty = false) ∧
    (v.getLsbD 0 = false → t.sampleIndex = 0 ∧ t.resultIndex = s.resultIndex ∧ t.ready = true ∧ t.full = false) := by
  have heff := exec_ctrlPrc_effect h hc
  have hn := (nSamples_bounds s.cfg).1
  refine ⟨by simp [heff.pcplt], heff.written_en, fun hv hen => ?_, fun hv hen => ?_, fun hv => ?_⟩
  all_goals rw [hv] at heff
  · have hresult := hs.enabled_resultIndex hen
    simp [State.isIngesting, State.isReadyToProcess, heff.written_en, heff.sampleIndex, heff.resultIndex, heff.cfg, hen,
      hresult]
  · have hsample := hs.disabled_sampleIndex hen
    simp [isIngesting_iff, heff.written_en, heff.sampleIndex, heff.resultIndex, heff.cfg, heff.empty, hsample]
    omega
  · simp [heff.sampleIndex, heff.resultIndex, heff.ready, heff.full]

/-- Every accepted command ends with the reset pass. -/
theorem command_resets {i : Instr} (hi : isCtrlCommand i = true) (h : exec i s = .next t) (hok : t.response = .ok) :
    (t.en = true → t.resultIndex = 0 ∧ t.empty = false) ∧
    (t.en = false → t.sampleIndex = 0 ∧ t.ready = true ∧ t.full = false) := by
  obtain ⟨en, ien, sam, prc, heff⟩ := command_effect hi h hok
  rw [heff.written_en, heff.resultIndex, heff.sampleIndex, heff.ready, heff.full, heff.empty]
  cases en <;> simp

end

/-- Settles O40: the rows in the order of the table. -/
theorem protocolTransitions : Obligations.ProtocolTransitions := fun _ _ _ hs =>
  ⟨fun h hv => (ctrlSet_enable_rows hs h hv).1, fun h => (ctrlSamIn_rows hs h).1, fun h => (ctrlSamIn_rows hs h).2.1,
    fun h => (ctrlSamIn_rows hs h).2.2, ctrlPrc_rows hs, fun h hv => (ctrlSet_disable_rows hs h hv).1,
    fun h => (ctrlSamOut_rows hs h).1, fun h => (ctrlSamOut_rows hs h).2.1, fun h => (ctrlSamOut_rows hs h).2.2,
    fun h hv => (ctrlSet_disable_rows hs h hv).2, fun h hv => (ctrlSet_enable_rows hs h hv).2, fun _ => command_resets⟩

end Sys2Proof.Machine
end

section
/-! The outputs of the transform against its magnitudes (43_transform_engine.md section 6). -/

namespace Sys2Proof.Machine

theorem rescaleOne_of_eq (s16 : Bool) {lo hi : Nat} (h : lo = hi) (m : Nat) :
    rescaleOne s16 lo hi m = fullScale s16 / 2 := if_pos h

theorem rescaleOne_of_ne (s16 : Bool) {lo hi : Nat} (h : lo ≠ hi) (m : Nat) :
    rescaleOne s16 lo hi m = (m - lo) * fullScale s16 / (hi - lo) := if_neg h

/-- An output word holds the rescaled magnitude: full scale is far below `2^32`. -/
theorem toNat_output {s16 : Bool} {lo hi m : Nat} (h : m ≤ hi) :
    (BitVec.ofNat 32 (rescaleOne s16 lo hi m)).toNat = rescaleOne s16 lo hi m := by
  have hle := rescaleOne_le s16 (lo := lo) h
  have hfull := fullScale_le s16
  rw [BitVec.toNat_ofNat, Nat.mod_eq_of_lt (by omega)]

/-- The outputs are those of the magnitudes. -/
theorem mem_transform {L : Nat} {s16 : Bool} {x : List Word} {w : Word} :
    w ∈ transform L s16 x ↔ ∃ m ∈ magnitudes L x,
      BitVec.ofNat 32 (rescaleOne s16 (minOf (magnitudes L x)) (maxOf (magnitudes L x)) m) = w := by
  simp [transform, rescale]

/-- Every magnitude gives an output, with its rescaled value. -/
theorem exists_output {L : Nat} (s16 : Bool) {x : List Word} {m : Nat} (hm : m ∈ magnitudes L x) :
    ∃ w ∈ transform L s16 x, w.toNat = rescaleOne s16 (minOf (magnitudes L x)) (maxOf (magnitudes L x)) m :=
  ⟨_, mem_transform.2 ⟨m, hm, rfl⟩, toNat_output (le_maxOf hm)⟩

theorem transform_getD {L : Nat} (s16 : Bool) (x : List Word) {k : Nat} (hk : k < 2 ^ L) :
    ((transform L s16 x).getD k 0).toNat =
      rescaleOne s16 (minOf (magnitudes L x)) (maxOf (magnitudes L x)) ((magnitudes L x).getD k 0) := by
  have hlt : k < (magnitudes L x).length := by rwa [magnitudes_length]
  rw [List.getD_eq_getElem _ _ (by simpa using hk), List.getD_eq_getElem _ _ hlt]
  simpa [transform, rescale] using toNat_output (le_maxOf (List.getElem_mem hlt))

/-- Settles O45: the least magnitude goes to 0, the greatest to full scale, and each entry to its quotient. -/
theorem outputsLieInTheScaledRange : Obligations.OutputsLieInTheScaledRange := by
  intro L s16 x
  have hne := magnitudes_ne_nil L x
  refine ⟨transform_length L s16 x, fun w hw => transform_toNat_le hw, fun heq w hw => ?_,
    fun hlt => ⟨?_, ?_, fun k hk => ?_⟩⟩
  · obtain ⟨m, hm, rfl⟩ := mem_transform.1 hw
    rw [toNat_output (le_maxOf hm), rescaleOne_of_eq s16 heq]
    rfl
  · obtain ⟨w, hw, hval⟩ := exists_output s16 (minOf_mem hne)
    exact ⟨w, hw, by rw [hval, rescaleOne_lo s16 hlt]⟩
  · obtain ⟨w, hw, hval⟩ := exists_output s16 (maxOf_mem hne)
    have hle : minOf (magnitudes L x) ≤ maxOf (magnitudes L x) := minOf_le (maxOf_mem hne)
    exact ⟨w, hw, by rw [hval, rescaleOne_hi s16 (by omega)]; rfl⟩
  · rw [transform_getD s16 x hk, rescaleOne_of_ne s16 hlt]
    rfl

end Sys2Proof.Machine
end

section
/-! The pairs of a pass, by bit `t` of an index, and a pass as all its butterflies at once
(43_transform_engine.md section 5). -/

namespace Sys2Proof.Machine

/-! ### Pairs -/

theorem and_two_pow_eq_zero_iff {i t : Nat} : i &&& 2 ^ t = 0 ↔ i.testBit t = false := by
  rw [Nat.and_two_pow]
  cases i.testBit t <;> simp

theorem testBit_add_two_pow (i t : Nat) : (i + 2 ^ t).testBit t = !i.testBit t := by
  rw [Nat.add_comm, Nat.testBit_two_pow_add_eq]

/-- The first index of the pair that `j` belongs to: `j` with bit `t` cleared. -/
def pairBase (t j : Nat) : Nat := if j &&& 2 ^ t = 0 then j else j - 2 ^ t

theorem pairBase_of_clear {t j : Nat} (h : j &&& 2 ^ t = 0) : pairBase t j = j := if_pos h

/-- An index with bit `t` set is the second one of its pair. -/
theorem pairBase_of_set {t j : Nat} (h : ¬ j &&& 2 ^ t = 0) : pairBase t j + 2 ^ t = j := by
  have hbit : j.testBit t = true := by simpa [and_two_pow_eq_zero_iff] using h
  have hle := Nat.ge_two_pow_of_testBit hbit
  rw [pairBase, if_neg h, Nat.sub_add_cancel hle]

theorem pairBase_and_two_pow (t j : Nat) : pairBase t j &&& 2 ^ t = 0 := by
  by_cases h : j &&& 2 ^ t = 0
  · rwa [pairBase_of_clear h]
  · have hbit : j.testBit t = true := by simpa [and_two_pow_eq_zero_iff] using h
    rw [← pairBase_of_set h, testBit_add_two_pow] at hbit
    rw [and_two_pow_eq_zero_iff]
    simpa using hbit

theorem pairBase_le (t j : Nat) : pairBase t j ≤ j := by
  unfold pairBase
  split
  · exact le_rfl
  · exact Nat.sub_le _ _

theorem pairBase_pair (t j : Nat) : j = pairBase t j ∨ j = pairBase t j + 2 ^ t := by
  by_cases h : j &&& 2 ^ t = 0
  · exact .inl (pairBase_of_clear h).symm
  · exact .inr (pairBase_of_set h).symm

/-- The two indexes of a pair have its first one as their base. -/
theorem eq_pairBase {t i j : Nat} (hi : i &&& 2 ^ t = 0) (hj : j = i ∨ j = i + 2 ^ t) : i = pairBase t j := by
  rcases hj with rfl | rfl
  · exact (pairBase_of_clear hi).symm
  · have hset : ¬ (i + 2 ^ t) &&& 2 ^ t = 0 := by
      rw [and_two_pow_eq_zero_iff] at hi ⊢
      simp [testBit_add_two_pow, hi]
    have := pairBase_of_set hset
    omega

/-- The second index of a pair is inside the array: the quotient by `2^t` is even, and so is its bound. -/
theorem pair_lt {L t i : Nat} (ht : t < L) (hi : i < 2 ^ L) (hclear : i &&& 2 ^ t = 0) : i + 2 ^ t < 2 ^ L := by
  obtain ⟨c, rfl⟩ : ∃ c, L = t + (c + 1) := ⟨L - t - 1, by omega⟩
  rw [and_two_pow_eq_zero_iff, Nat.testBit_eq_decide_div_mod_eq, decide_eq_false_iff_not] at hclear
  rw [Nat.pow_add, Nat.mul_comm, ← Nat.div_lt_iff_lt_mul (Nat.two_pow_pos t)] at hi ⊢
  rw [Nat.add_div_right _ (Nat.two_pow_pos t)]
  rw [Nat.pow_succ] at *
  omega

theorem twiddleIndex_eq {L t : Nat} (ht : t < L) (i : Nat) :
    twiddleIndex (2 ^ L) (2 ^ t) i = (i % 2 ^ t) * 2 ^ (L - 1 - t) := by
  have hstride : 2 ^ L / (2 * 2 ^ t) = 2 ^ (L - 1 - t) := by
    rw [← Nat.pow_succ', Nat.pow_div ht (by norm_num)]
    congr 1
    omega
  rw [twiddleIndex, hstride, Nat.mul_mod_mul_right]

theorem twiddleIndex_lt {L t : Nat} (ht : t < L) (i : Nat) : twiddleIndex (2 ^ L) (2 ^ t) i < 2 ^ (L - 1) := by
  have hsplit : 2 ^ (L - 1) = 2 ^ t * 2 ^ (L - 1 - t) := by rw [← Nat.pow_add]; congr 1; omega
  rw [twiddleIndex_eq ht, hsplit]
  exact Nat.mul_lt_mul_of_pos_right (Nat.mod_lt _ (Nat.two_pow_pos t)) (Nat.two_pow_pos _)

/-- Settles O48: the pair of an index is that of its base. -/
theorem everyIndexIsInExactlyOnePair : Obligations.EveryIndexIsInExactlyOnePair := by
  intro L t ht
  refine ⟨fun j hj => ⟨pairBase t j, ⟨?_, pairBase_and_two_pow t j, pairBase_pair t j⟩, fun i' _ hclear hpair => ?_⟩,
    fun i hi hclear => pair_lt ht hi hclear, fun i _ => ⟨twiddleIndex_eq ht i, twiddleIndex_lt ht i⟩⟩
  · exact (pairBase_le t j).trans_lt hj
  · exact eq_pairBase hclear hpair

/-! ### A pass -/

/-- The product `W·v` of the pair with first index `i`, from the values `d` (R127). -/
def pairProduct (w : List Cplx) (L t : Nat) (d : List Cplx) (i : Nat) : Cplx :=
  twiddleMul (w.getD (twiddleIndex (2 ^ L) (2 ^ t) i) Cplx.zero) (d.getD (i + 2 ^ t) Cplx.zero)

/-- Entry `j` after the butterfly of its pair, from the values `d`. -/
def pairValue (w : List Cplx) (L t : Nat) (d : List Cplx) (j : Nat) : Cplx :=
  let u := d.getD (pairBase t j) Cplx.zero
  let p := pairProduct w L t d (pairBase t j)
  if j &&& 2 ^ t = 0 then ⟨fadd u.re p.re, fadd u.im p.im⟩ else ⟨fsub u.re p.re, fsub u.im p.im⟩

/-- A pair's values depend on the two entries of the pair alone. -/
theorem pairValue_congr {w d d' : List Cplx} {L t j : Nat}
    (h : d'.getD (pairBase t j) Cplx.zero = d.getD (pairBase t j) Cplx.zero)
    (h' : d'.getD (pairBase t j + 2 ^ t) Cplx.zero = d.getD (pairBase t j + 2 ^ t) Cplx.zero) :
    pairValue w L t d' j = pairValue w L t d j := by
  simp only [pairValue, pairProduct, h, h']

/-- One butterfly writes its pair. -/
theorem butterfly_getD {w d : List Cplx} {L t i : Nat} (ht : t < L) (hd : d.length = 2 ^ L) (hi : i < 2 ^ L)
    (hclear : i &&& 2 ^ t = 0) (j : Nat) :
    (butterfly w (2 ^ L) (2 ^ t) d i).getD j Cplx.zero =
      if pairBase t j = i then pairValue w L t d j else d.getD j Cplx.zero := by
  have hlt := pair_lt ht hi hclear
  have hpos := Nat.two_pow_pos t
  split
  · next hbase =>
    subst hbase
    by_cases hj : j &&& 2 ^ t = 0
    · rw [pairBase_of_clear hj] at hi
      simp [butterfly, pairValue, pairProduct, pairBase_of_clear hj, hj, List.getD_eq_getElem?_getD, hd, hi]
    · rw [pairBase_of_set hj] at hlt
      simp [butterfly, pairValue, pairProduct, hj, List.getD_eq_getElem?_getD, hd, pairBase_of_set hj, hlt]
  · next hbase =>
    have hfirst : i ≠ j := fun h => hbase (by rw [← h, pairBase_of_clear hclear])
    have hsecond : i + 2 ^ t ≠ j := fun h => hbase (eq_pairBase hclear (.inr h.symm)).symm
    simp [butterfly, List.getD_eq_getElem?_getD, hfirst, hsecond]

/-- What a pass does at index `i`. -/
def passStep (w : List Cplx) (L t : Nat) (d : List Cplx) (i : Nat) : List Cplx :=
  if i &&& 2 ^ t = 0 then butterfly w (2 ^ L) (2 ^ t) d i else d

theorem pass_eq_foldl (w : List Cplx) (L t : Nat) (d : List Cplx) :
    pass w (2 ^ L) (2 ^ t) d = (List.range (2 ^ L)).foldl (passStep w L t) d := rfl

theorem passStep_length (w : List Cplx) (L t : Nat) (d : List Cplx) (i : Nat) : (passStep w L t d i).length = d.length := by
  unfold passStep
  split <;> simp

/-- The pass up to index `n`: the pairs whose first index lies below are done, the others are as before. -/
theorem pass_prefix_getD {w d : List Cplx} {L t : Nat} (ht : t < L) (hd : d.length = 2 ^ L) {n : Nat} (hn : n ≤ 2 ^ L)
    (j : Nat) :
    ((List.range n).foldl (passStep w L t) d).getD j Cplx.zero =
      if pairBase t j < n then pairValue w L t d j else d.getD j Cplx.zero := by
  induction n generalizing j with
  | zero => simp
  | succ n ih =>
    have ih := ih (by omega)
    have hlen := (foldl_keeps_length _ (passStep_length w L t) (List.range n) d).trans hd
    rw [List.range_succ, List.foldl_append, List.foldl_cons, List.foldl_nil]
    generalize (List.range n).foldl (passStep w L t) d = d' at *
    unfold passStep
    split
    · next hclear =>
      have hkept : ∀ k, pairBase t k = n → d'.getD k Cplx.zero = d.getD k Cplx.zero := fun k hk => by
        rw [ih k, if_neg (by omega)]
      rw [butterfly_getD ht hlen (by omega) hclear]
      by_cases hbase : pairBase t j = n
      · rw [if_pos hbase, if_pos (by omega)]
        refine pairValue_congr (hkept _ ?_) (hkept _ ?_)
        · rw [hbase, pairBase_of_clear hclear]
        · rw [hbase, ← eq_pairBase hclear (.inr rfl)]
      · rw [if_neg hbase, ih j]
        congr 1
        rw [eq_iff_iff]
        omega
    · next hset =>
      have hbase : pairBase t j ≠ n := fun h => hset (h ▸ pairBase_and_two_pow t j)
      rw [ih j]
      congr 1
      rw [eq_iff_iff]
      omega

theorem pass_getD {w d : List Cplx} {L t j : Nat} (ht : t < L) (hd : d.length = 2 ^ L) (hj : j < 2 ^ L) :
    (pass w (2 ^ L) (2 ^ t) d).getD j Cplx.zero = pairValue w L t d j := by
  rw [pass_eq_foldl, pass_prefix_getD ht hd le_rfl, if_pos ((pairBase_le t j).trans_lt hj)]

/-- Settles O49: after its last pair the pass has done them all. -/
theorem aPassIsAllButterfliesAtOnce : Obligations.APassIsAllButterfliesAtOnce := by
  intro w d L t j ht hd hj
  refine (pass_getD ht hd hj).trans ?_
  unfold pairValue pairBase
  split <;> rfl

end Sys2Proof.Machine
end

section
/-! Sessions: a run of ingestions, a run of drains (42_sample_codec.md R106 to R112). -/

namespace Sys2Proof.Machine

/-! ### Ingestions -/

/-- The unit of the word `d` stands in the buffer from entry `a` on (R106, R107). -/
def UnitStored (cfg : Word) (b : Memory) (a : Nat) (d : Word) : Prop :=
  if smode cfg then
    b.read a = BitVec.ofNat 32 (d.toNat % 65536) ∧ b.read (a + 1) = BitVec.ofNat 32 (d.toNat / 65536)
  else b.read a = d

theorem unitStored_ingestBuffer (cfg d : Word) (b : Memory) (si : Nat) :
    UnitStored cfg (ingestBuffer cfg d b si) si d := by
  unfold UnitStored ingestBuffer
  split
  · simp [Memory.read_write_other _ (Nat.ne_of_lt (Nat.lt_succ_self si)), lowHalf_eq, highHalf_eq]
  · simp

/-- A stored unit stays stored while its entries keep their values. -/
theorem UnitStored.congr {cfg d : Word} {b b' : Memory} {a : Nat} (h : UnitStored cfg b a d)
    (hkeep : ∀ x, x < a + unitSize cfg → b'.read x = b.read x) : UnitStored cfg b' a d := by
  unfold UnitStored unitSize at *
  split
  · next hmode =>
    simp only [hmode, if_true] at h hkeep
    rwa [hkeep a (by omega), hkeep (a + 1) (by omega)]
  · next hmode =>
    simp only [hmode] at h hkeep
    exact (hkeep a (by simp)).trans h

/-- The first word of a session that has room is accepted, and the session goes on from there. -/
theorem loadAll_cons {s : State} (hc : s.configured = true) (hroom : s.sampleIndex + unitSize s.cfg ≤ nSamples s.cfg)
    (v d : Word) (ds : List Word) :
    ∃ t, loadAll v (d :: ds) s = loadAll v ds t ∧ CtrlEffect true (v.getLsbD 1) true false s t ∧
      t.sampleBuffer = ingestBuffer s.cfg d s.sampleBuffer s.sampleIndex := by
  have hlatch : exec (.wrDatain d) s = .next { s with datainLatch := d, response := .ok } := rfl
  have hsam := exec_ctrlSamIn_accepted (s := { s with datainLatch := d, response := .ok }) hc hroom v
  refine ⟨_, ?_, { exec_ctrlSamIn_effect hsam hc hroom with }, ?_⟩
  · simp only [loadAll, hlatch, hsam, complete_response, if_true]
  · simp

/-- The general session: from any cursor, with a unit of room for every word. -/
theorem loadAll_spec (v : Word) (ds : List Word) {s : State} (hc : s.configured = true)
    (hroom : s.sampleIndex + ds.length * unitSize s.cfg ≤ nSamples s.cfg) :
    ∃ t, loadAll v ds s = .next t ∧ t.sampleIndex = s.sampleIndex + ds.length * unitSize s.cfg ∧
      (t.full = true ↔ s.full = true ∨ (ds ≠ [] ∧ t.sampleIndex = nSamples s.cfg)) ∧
      (∀ a, a < s.sampleIndex → t.sampleBuffer.read a = s.sampleBuffer.read a) ∧
      (∀ k d, ds[k]? = some d → UnitStored s.cfg t.sampleBuffer (s.sampleIndex + k * unitSize s.cfg) d) := by
  induction ds generalizing s with
  | nil => exact ⟨s, rfl, by simp, by simp, fun _ _ => rfl, by simp⟩
  | cons d ds ih =>
    have hunit := (unitSize_bounds s.cfg).1
    rw [List.length_cons, Nat.succ_mul] at hroom
    obtain ⟨s', hall, heff, hbuf⟩ := loadAll_cons hc (by omega) v d ds
    have hindex' : s'.sampleIndex = s.sampleIndex + unitSize s.cfg := by simp [heff.sampleIndex]
    obtain ⟨t, ht, hindex, hfull, hkeep, hstored⟩ :=
      ih (s := s') (heff.configured.trans hc) (by rw [heff.cfg]; omega)
    rw [heff.cfg, hindex'] at *
    refine ⟨t, hall.trans ht, by rw [hindex, List.length_cons, Nat.succ_mul]; omega, ?_, fun a ha => ?_, fun k e he => ?_⟩
    · rw [hfull, heff.full]
      cases ds with
      | nil => simp_all
      | cons e es =>
        have hmore : s.sampleIndex + unitSize s.cfg ≠ nSamples s.cfg := by
          rw [List.length_cons, Nat.succ_mul] at hroom
          omega
        simp [hmore]
    · rw [hkeep a (by omega), hbuf, ingestBuffer_read_outside _ _ _ (.inl ha)]
    · cases k with
      | zero =>
        obtain rfl : d = e := by simpa using he
        rw [Nat.zero_mul, Nat.add_zero]
        exact (hbuf ▸ unitStored_ingestBuffer s.cfg d s.sampleBuffer s.sampleIndex).congr hkeep
      | succ k =>
        rw [Nat.succ_mul, Nat.add_comm _ (unitSize s.cfg), ← Nat.add_assoc]
        exact hstored k e (by simpa using he)

/-- Settles O58: the general session from an empty ingestion. -/
theorem ingestingAWholeSession : Obligations.IngestingAWholeSession := by
  intro v ds s hc hzero hfull hroom
  have hn := (nSamples_bounds s.cfg).1
  obtain ⟨t, ht, hindex, hiff, -, hstored⟩ := loadAll_spec v ds hc (by omega)
  rw [hzero, Nat.zero_add] at hindex
  refine ⟨t, ht, hindex, ?_, fun k d hd => ?_⟩
  · rw [hiff, hfull, hindex]
    cases ds with
    | nil => simp; omega
    | cons d ds => simp
  · have hunit := hstored k d hd
    rw [hzero, Nat.zero_add] at hunit
    unfold UnitStored unitSize at hunit
    split
    · next hmode => simpa [hmode, Nat.mul_comm] using hunit
    · next hmode => simpa [hmode] using hunit

/-! ### Drains -/

theorem drainAll_succ {s : State} (hc : s.configured = true) (hleft : s.resultIndex < nSamples s.cfg / 2) (v : Word)
    (k : Nat) :
    ∃ t, drainAll v (k + 1) s = (drainAll v k t).map (fun r => (s.sampleBuffer.read s.resultIndex :: r.1, r.2)) ∧
      CtrlEffect false (v.getLsbD 1) true false s t ∧ t.sampleBuffer = s.sampleBuffer := by
  have hsam := exec_ctrlSamOut_accepted hc hleft v
  refine ⟨_, ?_, exec_ctrlSamOut_effect hsam hc hleft, by simp⟩
  simp [drainAll, hsam]

/-- The general session: from any cursor, as many drains as there are results left. -/
theorem drainAll_spec (v : Word) (k : Nat) {s : State} (hc : s.configured = true)
    (hleft : s.resultIndex + k ≤ nSamples s.cfg / 2) :
    ∃ t, drainAll v k s = some ((List.range' s.resultIndex k).map s.sampleBuffer.read, t) ∧
      t.resultIndex = s.resultIndex + k ∧
      (t.empty = true ↔ s.empty = true ∨ (k ≠ 0 ∧ t.resultIndex = nSamples s.cfg / 2)) := by
  induction k generalizing s with
  | zero => exact ⟨s, rfl, rfl, by simp⟩
  | succ k ih =>
    obtain ⟨s', hall, heff, hbuf⟩ := drainAll_succ hc (by omega) v k
    obtain ⟨t, ht, hindex, hempty⟩ := ih (s := s') (heff.configured.trans hc) (by simp [heff.resultIndex, heff.cfg]; omega)
    have hnext : s'.resultIndex = s.resultIndex + 1 := by simp [heff.resultIndex]
    refine ⟨t, ?_, by omega, ?_⟩
    · rw [hall, ht, hbuf, hnext, List.range'_succ]
      rfl
    · rw [hempty, heff.empty, heff.cfg, hindex, hnext]
      cases k with
      | zero => simp
      | succ k =>
        have hmore : s.resultIndex + 1 ≠ nSamples s.cfg / 2 := by omega
        simp [hmore]

theorem drainAll_refused (v : Word) {k : Nat} {s : State} (hc : s.configured = true)
    (hindex : s.resultIndex ≤ nSamples s.cfg / 2) (hk : nSamples s.cfg / 2 < s.resultIndex + k) : drainAll v k s = none := by
  induction k generalizing s with
  | zero => omega
  | succ k ih =>
    by_cases hleft : s.resultIndex < nSamples s.cfg / 2
    · obtain ⟨s', hall, heff, -⟩ := drainAll_succ hc hleft v k
      have hnext : s'.resultIndex = s.resultIndex + 1 := by simp [heff.resultIndex]
      rw [hall, ih (heff.configured.trans hc) (by rw [heff.cfg]; omega) (by rw [heff.cfg]; omega)]
      rfl
    · rw [drainAll, exec_ctrlSamOut_overCapacity hc (by omega)]
      rfl

/-- Settles O59: the general session from `result_index = 0`. -/
theorem drainingAWholeSession : Obligations.DrainingAWholeSession := by
  intro v k s hc hzero hempty
  have hn := (nSamples_bounds s.cfg).1
  refine ⟨fun hk => ?_, fun hk => drainAll_refused v hc (by omega) (by omega)⟩
  obtain ⟨t, ht, hindex, hiff⟩ := drainAll_spec v k hc (by omega)
  refine ⟨t, by rw [ht, hzero, List.range_eq_range'], by omega, ?_⟩
  rw [hiff, hempty, hindex, hzero]
  simp
  omega

end Sys2Proof.Machine
end

section
/-! Sums, differences, products, quotients and roots against the exact values (43_transform_engine.md R121). -/

namespace Sys2Proof.Machine

/-! ### The one form -/

theorem zero_canonical (s : Bool) : (F64.zero s).canonical = true := by cases s <;> decide

theorem addFin_canonical (s₁ : Bool) (m₁ : Nat) (e₁ : Int) (s₂ : Bool) (m₂ : Nat) (e₂ : Int) :
    (addFin s₁ m₁ e₁ s₂ m₂ e₂).canonical = true := by
  unfold addFin
  dsimp only
  split
  · exact zero_canonical _
  · exact roundF64_canonical _ _ _

theorem fadd_canonical (x y : F64) : (fadd x y).canonical = true := by
  unfold fadd
  split
  case h_3 => split <;> rfl
  case h_7 => exact addFin_canonical _ _ _ _ _ _
  all_goals rfl

theorem fmul_canonical (x y : F64) : (fmul x y).canonical = true := by
  unfold fmul
  split
  case h_4 => split <;> rfl
  case h_6 => split <;> rfl
  case h_7 => exact roundF64_canonical _ _ _
  all_goals rfl

theorem fdiv_canonical (x y : F64) : (fdiv x y).canonical = true := by
  unfold fdiv
  split
  case h_6 => exact zero_canonical _
  case h_7 =>
    split
    · split <;> rfl
    · exact roundF64_canonical _ _ _
  all_goals rfl

theorem fsqrt_canonical (x : F64) : (fsqrt x).canonical = true := by
  unfold fsqrt
  split
  case h_1 => rfl
  case h_2 => split <;> rfl
  case h_3 =>
    split
    · exact zero_canonical _
    · split
      · rfl
      · exact roundF64_canonical _ _ _

theorem i2f_canonical (z : Int) : (i2f z).canonical = true := roundF64_canonical _ _ _

/-- Settles O50: every operation ends in a rounding, a zero, an infinity or a NaN. -/
theorem operationsAnswerBinary64Values : Obligations.OperationsAnswerBinary64Values := fun x y _ _ =>
  ⟨fadd_canonical x y, fadd_canonical x (fneg y), fmul_canonical x y, fdiv_canonical x y, fsqrt_canonical x, i2f_canonical⟩

/-! ### Exact values -/

theorem exists_fin {x : F64} (h : x.isFinite = true) : ∃ s m e, x = .fin s m e := by
  cases x with
  | fin s m e => exact ⟨s, m, e, rfl⟩
  | inf s => cases h
  | nan => cases h

theorem toRat_fin (s : Bool) (m : Nat) (e : Int) :
    (F64.fin s m e).toRat = (if s then -1 else 1) * ((m : ℚ) * (2 : ℚ) ^ e) := by
  cases s <;> simp [F64.toRat]

theorem cast_signed (s : Bool) (m : Nat) : ((signed s m : Int) : ℚ) = (if s then -1 else 1) * (m : ℚ) := by
  cases s <;> simp [signed]

@[simp] theorem toRat_zero (s : Bool) : (F64.zero s).toRat = 0 := by simp [F64.zero, F64.toRat]

theorem toRat_fneg (x : F64) : (fneg x).toRat = -x.toRat := by
  cases x with
  | fin s m e => cases s <;> simp [fneg, toRat_fin]
  | inf s => simp [fneg, F64.toRat]
  | nan => simp [fneg, F64.toRat]

theorem fneg_isFinite {x : F64} (h : x.isFinite = true) : (fneg x).isFinite = true := by
  obtain ⟨s, m, e, rfl⟩ := exists_fin h
  rfl

/-- A value of the format is its own nearest one. -/
theorem isNearestEven_self {r : F64} (hf : r.isFinite = true) (hc : r.canonical = true) : IsNearestEven r.toRat r := by
  refine ⟨hf, hc, fun y _ _ => ⟨by simp, fun heq hne => ?_⟩⟩
  rw [sub_self, abs_zero, eq_comm, abs_eq_zero, sub_eq_zero] at heq
  exact absurd heq.symm hne

/-- Rounding a scaled significand. -/
theorem isNearestEven_roundF64 {q : ℚ} {neg : Bool} {m : Nat} {e : Int}
    (hq : q = (if neg then -1 else 1) * ((m : ℚ) * (2 : ℚ) ^ e)) (hb : |q| < overflowBound) :
    IsNearestEven q (roundF64 neg m e) := by
  by_cases hm : m = 0
  · subst hm
    have hzero : q = (F64.zero neg).toRat := by simp [hq]
    rw [hzero]
    exact isNearestEven_self rfl (zero_canonical neg)
  · refine roundF64_isNearestEven neg hm (.inl ?_) hb
    rw [hq]
    cases neg <;> simp

/-- An integer has the sign and the magnitude that rounding takes. -/
theorem cast_eq_sign_mul_natAbs (z : Int) : (z : ℚ) = (if decide (z < 0) then -1 else 1) * ((z.natAbs : ℕ) : ℚ) := by
  by_cases hz : z < 0
  · simp [hz, Nat.cast_natAbs, abs_of_neg hz]
  · simp [hz, Nat.cast_natAbs, abs_of_nonneg (not_lt.1 hz)]

/-- Aligned to a lower exponent a significand keeps its value. -/
theorem align_value (s : Bool) (m : Nat) {e e' : Int} (h : e ≤ e') :
    ((signed s (m * 2 ^ (e' - e).toNat) : Int) : ℚ) * (2 : ℚ) ^ e = (F64.fin s m e').toRat := by
  have hpow : (2 : ℚ) ^ e' = 2 ^ (e' - e).toNat * (2 : ℚ) ^ e := by
    rw [← zpow_natCast, ← zpow_add₀ two_ne_zero]
    congr 1
    omega
  rw [cast_signed, toRat_fin, hpow]
  push_cast
  ring

/-- The integer that an addition rounds, at the lower of the two exponents. -/
def alignedSum (s₁ : Bool) (m₁ : Nat) (e₁ : Int) (s₂ : Bool) (m₂ : Nat) (e₂ : Int) : Int :=
  signed s₁ (m₁ * 2 ^ (e₁ - min e₁ e₂).toNat) + signed s₂ (m₂ * 2 ^ (e₂ - min e₁ e₂).toNat)

theorem alignedSum_value (s₁ : Bool) (m₁ : Nat) (e₁ : Int) (s₂ : Bool) (m₂ : Nat) (e₂ : Int) :
    (F64.fin s₁ m₁ e₁).toRat + (F64.fin s₂ m₂ e₂).toRat =
      (alignedSum s₁ m₁ e₁ s₂ m₂ e₂ : ℚ) * (2 : ℚ) ^ min e₁ e₂ := by
  rw [alignedSum, Int.cast_add, add_mul, align_value s₁ m₁ (min_le_left e₁ e₂), align_value s₂ m₂ (min_le_right e₁ e₂)]

theorem addFin_eq (s₁ : Bool) (m₁ : Nat) (e₁ : Int) (s₂ : Bool) (m₂ : Nat) (e₂ : Int) :
    addFin s₁ m₁ e₁ s₂ m₂ e₂ =
      if alignedSum s₁ m₁ e₁ s₂ m₂ e₂ = 0 then F64.zero (s₁ && s₂)
      else roundF64 (decide (alignedSum s₁ m₁ e₁ s₂ m₂ e₂ < 0)) (alignedSum s₁ m₁ e₁ s₂ m₂ e₂).natAbs (min e₁ e₂) := rfl

theorem fadd_nearest {x y : F64} (hx : x.isFinite = true) (hy : y.isFinite = true)
    (hb : |x.toRat + y.toRat| < overflowBound) : IsNearestEven (x.toRat + y.toRat) (fadd x y) := by
  obtain ⟨s₁, m₁, e₁, rfl⟩ := exists_fin hx
  obtain ⟨s₂, m₂, e₂, rfl⟩ := exists_fin hy
  rw [alignedSum_value] at *
  show IsNearestEven _ (addFin s₁ m₁ e₁ s₂ m₂ e₂)
  rw [addFin_eq]
  generalize alignedSum s₁ m₁ e₁ s₂ m₂ e₂ = z at *
  split
  · next hz =>
    have hzero : (z : ℚ) * (2 : ℚ) ^ min e₁ e₂ = (F64.zero (s₁ && s₂)).toRat := by simp [hz]
    rw [hzero]
    exact isNearestEven_self rfl (zero_canonical _)
  · exact isNearestEven_roundF64 (by rw [cast_eq_sign_mul_natAbs z, mul_assoc]) hb

theorem fsub_nearest {x y : F64} (hx : x.isFinite = true) (hy : y.isFinite = true)
    (hb : |x.toRat - y.toRat| < overflowBound) : IsNearestEven (x.toRat - y.toRat) (fsub x y) := by
  have hsum := fadd_nearest hx (fneg_isFinite hy)
  rw [toRat_fneg, ← sub_eq_add_neg] at hsum
  exact hsum hb

theorem fmul_nearest {x y : F64} (hx : x.isFinite = true) (hy : y.isFinite = true)
    (hb : |x.toRat * y.toRat| < overflowBound) : IsNearestEven (x.toRat * y.toRat) (fmul x y) := by
  obtain ⟨s₁, m₁, e₁, rfl⟩ := exists_fin hx
  obtain ⟨s₂, m₂, e₂, rfl⟩ := exists_fin hy
  refine isNearestEven_roundF64 ?_ hb
  rw [toRat_fin, toRat_fin, zpow_add₀ two_ne_zero]
  push_cast
  cases s₁ <;> cases s₂ <;> simp <;> ring

/-- Settles O52: the exact sum and the exact product are rounded once. -/
theorem sumsAndProductsAreCorrectlyRounded : Obligations.SumsAndProductsAreCorrectlyRounded := fun _ _ hx hy =>
  ⟨fadd_nearest hx hy, fsub_nearest hx hy, fmul_nearest hx hy⟩

/-! ### Quotients and roots: a digit that is cut off shows in the last bit -/

/-- A significand of more than 54 bits whose last bit says whether something was cut off. -/
theorem stands_sticky {R : ℝ} {k : Nat} {e : Int} (sticky : Bool) (hk : 2 ^ 54 ≤ k)
    (hexact : sticky = false → R = 2 * (k : ℝ) * (2 : ℝ) ^ e)
    (hcut : sticky = true → 2 * (k : ℝ) * (2 : ℝ) ^ e < R ∧ R < (2 * (k : ℝ) + 2) * (2 : ℝ) ^ e) :
    Stands R (2 * k + sticky.toNat) e := by
  cases sticky with
  | false => exact .inl (by simpa using hexact rfl)
  | true =>
    obtain ⟨hlo, hhi⟩ := hcut rfl
    refine .inr ⟨by simp [Nat.add_mod], ?_, ?_⟩
    · rw [abs_lt]
      push_cast [Bool.toNat_true]
      constructor <;> nlinarith
    · have hlog : 55 ≤ Nat.log2 (2 * k + 1) := (Nat.le_log2 (by omega)).2 (by omega)
      have := (roundExp_spec (2 * k + 1) e).2.1
      simp only [Bool.toNat_true]
      omega

/-- The quotient of two significands, scaled. -/
theorem stands_quotient {n d : Nat} (hd : d ≠ 0) (hk : 2 ^ 54 ≤ n / d) {e : Int} :
    Stands (2 * (n / d : ℝ) * (2 : ℝ) ^ e) (2 * (n / d) + (n % d != 0).toNat) e := by
  have hpos : (0 : ℝ) < d := by exact_mod_cast Nat.pos_of_ne_zero hd
  have he := two_zpow_pos e
  have hdiv : (n : ℝ) = d * (n / d : Nat) + (n % d : Nat) := by exact_mod_cast (Nat.div_add_mod n d).symm
  have hquot : (n / d : ℝ) = (n / d : Nat) + (n % d : Nat) / (d : ℝ) := by
    rw [hdiv]
    field_simp
  refine stands_sticky _ hk (fun h => ?_) fun h => ?_
  · have hzero : n % d = 0 := by simpa using h
    rw [hquot, hzero]
    simp
  · have hne : n % d ≠ 0 := by simpa using h
    have hfrac0 : (0 : ℝ) < (n % d : Nat) / (d : ℝ) := div_pos (by exact_mod_cast Nat.pos_of_ne_zero hne) hpos
    have hfrac1 : ((n % d : Nat) : ℝ) / (d : ℝ) < 1 := by
      rw [div_lt_one hpos]
      exact_mod_cast Nat.mod_lt n (Nat.pos_of_ne_zero hd)
    rw [hquot]
    constructor <;> nlinarith

/-- The quotient of two finite values by sign, significands and exponents. -/
theorem toRat_div (s₁ : Bool) (m₁ : Nat) (e₁ : Int) (s₂ : Bool) (m₂ : Nat) (e₂ : Int) :
    (F64.fin s₁ m₁ e₁).toRat / (F64.fin s₂ m₂ e₂).toRat =
      (if s₁ ^^ s₂ then -1 else 1) * ((m₁ / m₂ : ℚ) * (2 : ℚ) ^ (e₁ - e₂)) := by
  rw [toRat_fin, toRat_fin, zpow_sub₀ two_ne_zero]
  cases s₁ <;> cases s₂ <;> simp <;> ring

/-- The value that a division rounds, by its integer quotient. -/
theorem scaled_quotient (m₁ m₂ : Nat) (e : Int) :
    (m₁ / m₂ : ℝ) * (2 : ℝ) ^ e = 2 * ((m₁ * 2 ^ divBits : Nat) / m₂ : ℝ) * (2 : ℝ) ^ (e - (divBits : Int) - 1) := by
  have hpow : (2 : ℝ) ^ e = 2 * 2 ^ divBits * (2 : ℝ) ^ (e - (divBits : Int) - 1) := by
    rw [← zpow_natCast (2 : ℝ) divBits, ← zpow_one_add₀ two_ne_zero, ← zpow_add₀ two_ne_zero]
    congr 1
    omega
  rw [hpow]
  push_cast
  ring

theorem fdiv_nearest {x y : F64} (hx : x.isFinite = true) (hy : y.isFinite = true) (hyc : y.canonical = true)
    (hne : y.toRat ≠ 0) (hb : |x.toRat / y.toRat| < overflowBound) : IsNearestEven (x.toRat / y.toRat) (fdiv x y) := by
  obtain ⟨s₁, m₁, e₁, rfl⟩ := exists_fin hx
  obtain ⟨s₂, m₂, e₂, rfl⟩ := exists_fin hy
  have hm₂ : m₂ ≠ 0 := by
    rintro rfl
    simp [toRat_fin] at hne
  have hdiv : fdiv (.fin s₁ m₁ e₁) (.fin s₂ m₂ e₂) = divFin s₁ m₁ e₁ s₂ m₂ e₂ := by simp [fdiv, hm₂]
  rw [hdiv, divFin]
  by_cases hm₁ : m₁ = 0
  · subst hm₁
    have hzero : (F64.fin s₁ 0 e₁).toRat / (F64.fin s₂ m₂ e₂).toRat = (F64.zero (s₁ ^^ s₂)).toRat := by simp [toRat_fin]
    rw [hzero]
    simpa [roundF64] using isNearestEven_self rfl (zero_canonical (s₁ ^^ s₂))
  · have hk : 2 ^ 54 ≤ m₁ * 2 ^ divBits / m₂ := by
      have hlt := (canonical_fin.1 hyc).1
      rw [Nat.le_div_iff_mul_le (Nat.pos_of_ne_zero hm₂)]
      calc 2 ^ 54 * m₂ ≤ 2 ^ 54 * 2 ^ 53 := Nat.mul_le_mul_left _ hlt.le
        _ ≤ 1 * 2 ^ divBits := by norm_num [divBits]
        _ ≤ m₁ * 2 ^ divBits := Nat.mul_le_mul_right _ (Nat.pos_of_ne_zero hm₁)
    refine roundF64_isNearestEven _ (by omega) ?_ hb
    have hstands := stands_quotient hm₂ hk (e := e₁ - e₂ - (divBits : Int) - 1)
    rw [← scaled_quotient] at hstands
    convert hstands using 1
    rw [toRat_div]
    cases s₁ <;> cases s₂ <;> simp

/-- Settles O53: the quotient with a sticky last bit is rounded once. -/
theorem quotientsAreCorrectlyRounded : Obligations.QuotientsAreCorrectlyRounded := fun _ _ hx hy _ hyc hne hb =>
  fdiv_nearest hx hy hyc hne hb

/-- The integer root stands for the real one. -/
theorem stands_root {n r : Nat} (hlo : r * r ≤ n) (hhi : n < (r + 1) * (r + 1)) (hr : 2 ^ 54 ≤ r) {e : Int} :
    Stands (2 * Real.sqrt n * (2 : ℝ) ^ e) (2 * r + (r * r != n).toNat) e := by
  have he := two_zpow_pos e
  have hlo' : ((r * r : Nat) : ℝ) ≤ n := by exact_mod_cast hlo
  have hhi' : (n : ℝ) < ((r + 1) * (r + 1) : Nat) := by exact_mod_cast hhi
  push_cast at hlo' hhi'
  refine stands_sticky _ hr (fun h => ?_) fun h => ?_
  · obtain rfl : r * r = n := by simpa using h
    push_cast
    rw [Real.sqrt_mul_self (Nat.cast_nonneg r)]
  · have hne : r * r ≠ n := by simpa using h
    have hlt : (r * r : ℝ) < n := by exact_mod_cast lt_of_le_of_ne hlo hne
    have hr1 : (r : ℝ) < Real.sqrt n := Real.lt_sqrt_of_sq_lt (by rw [pow_two]; exact hlt)
    have hr2 : Real.sqrt n < r + 1 := (Real.sqrt_lt' (by positivity)).2 (by rw [pow_two]; exact hhi')
    constructor <;> nlinarith

/-- The exponent that a root is taken at: even, and low enough for 55 bits of root. -/
theorem sqrt_scaled {m k : Nat} {e : Int} (hk : (e - k) % 2 = 0) :
    Real.sqrt ((m : ℝ) * (2 : ℝ) ^ e) = 2 * Real.sqrt ((m * 2 ^ k : Nat) : ℝ) * (2 : ℝ) ^ ((e - (k : Int)) / 2 - 1) := by
  obtain ⟨h, hh⟩ : ∃ h, e - k = 2 * h := ⟨(e - k) / 2, by omega⟩
  have hdiv : (e - (k : Int)) / 2 - 1 = h - 1 := by omega
  have hpow : (m : ℝ) * (2 : ℝ) ^ e = ((m * 2 ^ k : Nat) : ℝ) * ((2 : ℝ) ^ h * (2 : ℝ) ^ h) := by
    have hexp : e = (k : Int) + (h + h) := by omega
    rw [hexp, zpow_add₀ two_ne_zero, zpow_add₀ two_ne_zero, zpow_natCast]
    push_cast
    ring
  rw [hdiv, hpow, Real.sqrt_mul (Nat.cast_nonneg _), Real.sqrt_mul_self (two_zpow_pos h).le, zpow_sub_one₀ two_ne_zero]
  ring

theorem two_pow_le_overflowBound : (2 : ℚ) ^ 1000 ≤ overflowBound := by
  have hsplit : (2 : ℚ) ^ 1000 = 2 ^ 30 * 2 ^ 970 := by rw [← pow_add]
  rw [hsplit, overflowBound]
  exact mul_le_mul_of_nonneg_right (by norm_num) (by positivity)

/-- The root of a value of the format is far below the greatest one. -/
theorem sqrt_lt_overflowBound {m : Nat} {e : Int} (hc : (F64.fin false m e).canonical = true) :
    Real.sqrt ((m : ℝ) * (2 : ℝ) ^ e) < ((overflowBound : ℚ) : ℝ) := by
  obtain ⟨hm, -, he, -⟩ := canonical_fin.1 hc
  have hm' : (m : ℝ) < 2 ^ 53 := by exact_mod_cast hm
  have hle : (2 : ℝ) ^ e ≤ 2 ^ 971 := by
    rw [← zpow_natCast]
    exact two_zpow_mono he
  have hlt : (m : ℝ) * (2 : ℝ) ^ e < (2 ^ 512) ^ 2 := by
    rw [← pow_mul, show 512 * 2 = 53 + 971 by norm_num, pow_add]
    exact mul_lt_mul hm' hle (two_zpow_pos e) (by positivity)
  have hbound : (2 : ℝ) ^ 1000 ≤ ((overflowBound : ℚ) : ℝ) := by exact_mod_cast two_pow_le_overflowBound
  calc Real.sqrt ((m : ℝ) * (2 : ℝ) ^ e) < 2 ^ 512 := (Real.sqrt_lt' (by positivity)).2 hlt
    _ ≤ 2 ^ 1000 := pow_le_pow_right₀ one_le_two (by norm_num)
    _ ≤ _ := hbound

theorem sqrtFin_nearest {m : Nat} {e : Int} (hc : (F64.fin false m e).canonical = true) (hm : m ≠ 0) :
    ∃ (n : Nat) (t : Int), sqrtFin m e = .fin false n t ∧ (F64.fin false n t).canonical = true ∧
      ∀ y, IsMagnitude y →
        |Real.sqrt ((m : ℝ) * (2 : ℝ) ^ e) - n * (2 : ℝ) ^ t| ≤ |Real.sqrt ((m : ℝ) * (2 : ℝ) ^ e) - y| := by
  have hm53 := (canonical_fin.1 hc).1
  obtain ⟨k, hk⟩ : ∃ k : Nat, k = if e % 2 = 0 then 110 else 111 := ⟨_, rfl⟩
  have hk110 : 110 ≤ k ∧ k ≤ 111 := by split at hk <;> omega
  have hparity : (e - k) % 2 = 0 := by split at hk <;> omega
  have hn : 2 ^ 110 ≤ m * 2 ^ k ∧ m * 2 ^ k < 2 ^ 166 := by
    have hmpos : 1 ≤ m := Nat.pos_of_ne_zero hm
    constructor
    · exact (Nat.pow_le_pow_right (by norm_num) hk110.1).trans (Nat.le_mul_of_pos_left _ hmpos)
    · calc m * 2 ^ k ≤ 2 ^ 53 * 2 ^ 111 :=
            Nat.mul_le_mul hm53.le (Nat.pow_le_pow_right (by norm_num) hk110.2)
        _ < 2 ^ 166 := by norm_num
  obtain ⟨hlo, hhi⟩ := isqrtFrom_spec (m * 2 ^ k) sqrtDigits 0 (by omega) (by
    rw [Nat.zero_add, ← Nat.pow_add]; exact hn.2)
  have hform : sqrtFin m e = roundF64 false
      (2 * isqrtFrom (m * 2 ^ k) sqrtDigits 0 +
        (isqrtFrom (m * 2 ^ k) sqrtDigits 0 * isqrtFrom (m * 2 ^ k) sqrtDigits 0 != m * 2 ^ k).toNat)
      ((e - (k : Int)) / 2 - 1) := by
    rw [hk]; rfl
  rw [hform]
  generalize isqrtFrom (m * 2 ^ k) sqrtDigits 0 = r at *
  have hr : 2 ^ 54 ≤ r := by
    by_contra hlt
    have : (r + 1) * (r + 1) ≤ 2 ^ 54 * 2 ^ 54 := Nat.mul_le_mul (by omega) (by omega)
    omega
  have hstands := stands_root hlo hhi hr (e := (e - (k : Int)) / 2 - 1)
  rw [← sqrt_scaled hparity] at hstands
  obtain ⟨n, t, hround, hcanon, hnear⟩ := roundF64_nearest (by omega) hstands (sqrt_lt_overflowBound hc) false
  exact ⟨n, t, hround, hcanon, fun y hy => (hnear y hy).1⟩

/-- Settles O54: the root of zero is exact, and the root of a positive value is rounded to nearest. -/
theorem squareRootsAreCorrectlyRounded : Obligations.SquareRootsAreCorrectlyRounded := by
  intro x y hx hxc hx0 hy hyc
  obtain ⟨s, m, e, rfl⟩ := exists_fin hx
  by_cases hm : m = 0
  · subst hm
    refine ⟨rfl, zero_canonical s, ?_⟩
    simp [fsqrt, toRat_fin]
  · have hs : s = false := by
      have hpos : (0 : ℚ) < (m : ℚ) * (2 : ℚ) ^ e := by positivity
      cases s with
      | false => rfl
      | true => simp [toRat_fin] at hx0; linarith
    subst hs
    have hsqrt : fsqrt (.fin false m e) = sqrtFin m e := by simp [fsqrt, hm]
    obtain ⟨n, t, hform, hcanon, hnear⟩ := sqrtFin_nearest hxc hm
    rw [hsqrt, hform]
    refine ⟨rfl, hcanon, ?_⟩
    have := hnear _ (isMagnitude_toRat hy hyc)
    simpa [toRat_cast] using this

end Sys2Proof.Machine
end

section
/-! Conversions between integers and binary64, and the rescale in both forms (43_transform_engine.md R121, R130, R134). -/

namespace Sys2Proof.Machine

/-! ### What correct rounding fixes -/

/-- A value of the format at or below the argument is at or below the rounded one. -/
theorem IsNearestEven.ge {q : ℚ} {r y : F64} (h : IsNearestEven q r) (hf : y.isFinite = true) (hc : y.canonical = true)
    (hy : y.toRat ≤ q) : y.toRat ≤ r.toRat := by
  by_contra hlt
  have hnear := (h.2.2 y hf hc).1
  rw [abs_of_nonneg (by linarith), abs_of_nonneg (by linarith)] at hnear
  linarith

theorem IsNearestEven.le {q : ℚ} {r y : F64} (h : IsNearestEven q r) (hf : y.isFinite = true) (hc : y.canonical = true)
    (hy : q ≤ y.toRat) : r.toRat ≤ y.toRat := by
  by_contra hlt
  have hnear := (h.2.2 y hf hc).1
  rw [abs_of_nonpos (by linarith), abs_of_nonpos (by linarith)] at hnear
  linarith

/-- A value of the format is rounded to itself. -/
theorem IsNearestEven.exact {q : ℚ} {r y : F64} (h : IsNearestEven q r) (hf : y.isFinite = true) (hc : y.canonical = true)
    (hy : y.toRat = q) : r.toRat = q :=
  le_antisymm (hy ▸ h.le hf hc hy.ge) (hy ▸ h.ge hf hc hy.le)

/-- One form for each value but zero. -/
theorem eq_of_toRat_eq {x y : F64} (hx : x.isFinite = true) (hy : y.isFinite = true) (hxc : x.canonical = true)
    (hyc : y.canonical = true) (h : x.toRat = y.toRat) (hne : x.toRat ≠ 0) : x = y := by
  obtain ⟨s₁, m₁, e₁, rfl⟩ := exists_fin hx
  obtain ⟨s₂, m₂, e₂, rfl⟩ := exists_fin hy
  rw [toRat_fin] at hne
  rw [toRat_fin, toRat_fin] at h
  have h₁ : (0 : ℚ) ≤ (m₁ : ℚ) * (2 : ℚ) ^ e₁ := by positivity
  have h₂ : (0 : ℚ) ≤ (m₂ : ℚ) * (2 : ℚ) ^ e₂ := by positivity
  have hs : s₁ = s₂ := by
    by_contra hs
    have hzero : (m₁ : ℚ) * (2 : ℚ) ^ e₁ = 0 := by
      cases s₁ <;> cases s₂ <;> simp at h hs <;> linarith
    exact hne (by rw [hzero, mul_zero])
  subst hs
  have hmag : (m₁ : ℚ) * (2 : ℚ) ^ e₁ = (m₂ : ℚ) * (2 : ℚ) ^ e₂ := mul_left_cancel₀ (by cases s₁ <;> simp) h
  have hreal := congrArg (Rat.cast (K := ℝ)) hmag
  push_cast at hreal
  obtain ⟨rfl, rfl⟩ := canonical_unique hxc hyc hreal
  rfl

theorem lt_overflowBound {q : ℚ} (h : |q| < 2 ^ 200) : |q| < overflowBound :=
  (h.trans_le (pow_le_pow_right₀ one_le_two (by norm_num))).trans_le two_pow_le_overflowBound

/-! ### Truncation -/

/-- Truncation of a magnitude. -/
theorem floor_scaled (m : Nat) (e : Int) :
    ⌊(m : ℚ) * (2 : ℚ) ^ e⌋ = ((if 0 ≤ e then m * 2 ^ e.toNat else m / 2 ^ (-e).toNat : Nat) : Int) := by
  split
  · next he =>
    have hpow : (2 : ℚ) ^ e = 2 ^ e.toNat := by rw [← zpow_natCast, Int.toNat_of_nonneg he]
    rw [hpow, Int.floor_eq_iff]
    push_cast
    constructor <;> linarith
  · next he =>
    have hpow : (2 : ℚ) ^ e = ((2 ^ (-e).toNat : Nat) : ℚ)⁻¹ := by
      push_cast
      rw [← zpow_natCast, Int.toNat_of_nonneg (by omega), zpow_neg, inv_inv]
    rw [hpow, ← div_eq_mul_inv, Rat.floor_natCast_div_natCast]
    rfl

theorem f2i_fin (s : Bool) (m : Nat) (e : Int) :
    f2i (.fin s m e) = (if s then -1 else 1) * ⌊(m : ℚ) * (2 : ℚ) ^ e⌋ := by
  rw [floor_scaled, f2i]
  generalize (if 0 ≤ e then m * 2 ^ e.toNat else m / 2 ^ (-e).toNat) = n
  cases s <;> simp [signed]

/-- `f2i` rounds toward zero: it is the floor of a value that is not negative. -/
theorem f2i_eq_floor {x : F64} (hf : x.isFinite = true) (h0 : 0 ≤ x.toRat) : f2i x = ⌊x.toRat⌋ := by
  obtain ⟨s, m, e, rfl⟩ := exists_fin hf
  rw [f2i_fin, toRat_fin] at *
  cases s with
  | false => simp
  | true =>
    have hpos : (0 : ℚ) ≤ (m : ℚ) * (2 : ℚ) ^ e := by positivity
    have hzero : (m : ℚ) * (2 : ℚ) ^ e = 0 := by
      simp only [if_true] at h0
      linarith
    simp [hzero]

theorem f2i_of_toRat_eq {x : F64} (hf : x.isFinite = true) {z : Int} (h : x.toRat = z) : f2i x = z := by
  obtain ⟨s, m, e, rfl⟩ := exists_fin hf
  rw [f2i_fin]
  rw [toRat_fin] at h
  cases s with
  | false =>
    rw [if_neg Bool.false_ne_true, one_mul] at h ⊢
    rw [h, Int.floor_intCast]
  | true =>
    have hneg : (m : ℚ) * (2 : ℚ) ^ e = ((-z : Int) : ℚ) := by
      push_cast
      simp only [if_true] at h
      linarith
    rw [hneg, Int.floor_intCast]
    simp

/-! ### Small integers -/

theorem i2f_exact {z : Int} (h : z.natAbs < 2 ^ 53) : (i2f z).isFinite = true ∧ (i2f z).toRat = z := by
  obtain ⟨-, hf, hv⟩ := roundF64_exact (decide (z < 0)) (e := 0) h (by decide) (by decide)
  refine ⟨hf, hv.trans ?_⟩
  rw [zpow_zero, mul_one]
  exact (cast_eq_sign_mul_natAbs z).symm

theorem i2f_natCast_exact {n : Nat} (h : n < 2 ^ 53) : (i2f n).isFinite = true ∧ (i2f n).toRat = n := by
  simpa using i2f_exact (z := (n : Int)) (by simpa using h)

/-- Rounding keeps the sign. -/
theorem roundF64_sign {neg : Bool} {m : Nat} {e : Int} (h : (roundF64 neg m e).isFinite = true) :
    ∃ n t, roundF64 neg m e = .fin neg n t := by
  have hpack : ∀ q t, (packFin neg q t).isFinite = true → ∃ n t', packFin neg q t = .fin neg n t' := by
    intro q t hq
    unfold packFin at hq ⊢
    split_ifs at hq ⊢
    · cases hq
    · exact ⟨_, _, rfl⟩
    · cases hq
    · exact ⟨_, _, rfl⟩
  unfold roundF64 at h ⊢
  split at h
  · next hm => exact ⟨0, minExp, by simp [hm, F64.zero]⟩
  · next hm =>
    rw [if_neg hm]
    dsimp only at h ⊢
    split at h
    · next hte => rw [if_pos hte]; exact hpack _ _ h
    · next hte => rw [if_neg hte]; exact hpack _ _ h

/-- A small integer sum is exact, unless it is the zero of two negative addends. -/
theorem fadd_eq_i2f {s₁ s₂ : Bool} {m₁ m₂ : Nat} {e₁ e₂ : Int} {z : Int} (hz : z.natAbs < 2 ^ 53)
    (h : (F64.fin s₁ m₁ e₁).toRat + (F64.fin s₂ m₂ e₂).toRat = z) (hs : z = 0 → (s₁ && s₂) = false) :
    fadd (.fin s₁ m₁ e₁) (.fin s₂ m₂ e₂) = i2f z := by
  obtain ⟨hzf, hzv⟩ := i2f_exact hz
  by_cases h0 : z = 0
  · subst h0
    have hsum : alignedSum s₁ m₁ e₁ s₂ m₂ e₂ = 0 := by
      rw [alignedSum_value, Int.cast_zero] at h
      exact_mod_cast (mul_eq_zero.1 h).resolve_right (zpow_ne_zero _ two_ne_zero)
    show addFin s₁ m₁ e₁ s₂ m₂ e₂ = _
    rw [addFin_eq, if_pos hsum, hs rfl]
    rfl
  · have hb : |(z : ℚ)| < 2 ^ 200 := by
      have hcast : |(z : ℚ)| < 2 ^ 53 := by
        rw [← Int.cast_abs, Int.abs_eq_natAbs, Int.cast_natCast]
        exact_mod_cast hz
      exact hcast.trans (by norm_num)
    have hnear := fadd_nearest (x := .fin s₁ m₁ e₁) (y := .fin s₂ m₂ e₂) rfl rfl (lt_overflowBound (h ▸ hb))
    rw [h] at hnear
    have hval := hnear.exact hzf (i2f_canonical z) hzv
    refine eq_of_toRat_eq hnear.1 hzf hnear.2.1 (i2f_canonical z) (hval.trans hzv.symm) ?_
    rw [hval]
    exact_mod_cast h0

/-- Settles O51: the exact result is a value of the format, so rounding keeps it. -/
theorem smallIntegerArithmeticIsExact : Obligations.SmallIntegerArithmeticIsExact := by
  intro a b ha hb
  obtain ⟨haf, hav⟩ := i2f_exact ha
  obtain ⟨hbf, hbv⟩ := i2f_exact hb
  obtain ⟨m₁, e₁, hia⟩ := roundF64_sign haf
  obtain ⟨m₂, e₂, hib⟩ := roundF64_sign hbf
  change i2f a = _ at hia
  change i2f b = _ at hib
  refine ⟨hav, f2i_of_toRat_eq haf hav, fun hsum => ?_, fun hdiff => ?_, fun hprod => ?_⟩
  · rw [hia, hib]
    refine fadd_eq_i2f hsum (by rw [← hia, ← hib, hav, hbv, Int.cast_add]) fun h => ?_
    simp
    omega
  · rw [fsub, hia, hib]
    refine fadd_eq_i2f hdiff ?_ fun h => ?_
    · have hneg := toRat_fneg (.fin (decide (b < 0)) m₂ e₂)
      simp only [fneg] at hneg
      rw [hneg, ← hia, ← hib, hav, hbv, Int.cast_sub, sub_eq_add_neg]
    · simp
      omega
  · obtain ⟨hpf, hpv⟩ := i2f_exact hprod
    have hbound : |(i2f a).toRat * (i2f b).toRat| < 2 ^ 200 := by
      rw [hav, hbv, ← Int.cast_mul, ← Int.cast_abs, Int.abs_eq_natAbs, Int.cast_natCast]
      have hcast : (((a * b).natAbs : ℕ) : ℚ) < 2 ^ 53 := by exact_mod_cast hprod
      exact hcast.trans (by norm_num)
    have hnear := fmul_nearest haf hbf (lt_overflowBound hbound)
    refine f2i_of_toRat_eq hnear.1 ?_
    rw [hnear.exact hpf (i2f_canonical _) (by rw [hpv, hav, hbv]; push_cast; ring), hav, hbv]
    push_cast
    ring

/-! ### The rescale in binary64 -/

/-- The rounding error of an argument of moderate size, without the exponents of the format. -/
theorem IsNearestEven.error_le {q : ℚ} {r : F64} (h : IsNearestEven q r) (hb : |q| < 2 ^ 200) :
    |q - r.toRat| ≤ |q| / 2 ^ 52 + 1 / 2 ^ 200 := by
  have herr := h.error (hb.trans_le (pow_le_pow_right₀ one_le_two (by norm_num)))
  have hmin : (2 : ℚ) ^ minExp ≤ (2 : ℚ) ^ (-200 : ℤ) := zpow_le_zpow_right₀ one_le_two (by decide)
  have h52 : (2 : ℚ) ^ (-52 : ℤ) = 1 / 2 ^ 52 := by norm_num
  have h200 : (2 : ℚ) ^ (-200 : ℤ) = 1 / 2 ^ 200 := by norm_num
  rw [h52] at herr
  rw [h200] at hmin
  linarith

theorem fullScale_eq_two_pow (s16 : Bool) : ∃ c, c ≤ 5 ∧ fullScale s16 = 2 ^ c := by
  cases s16
  · exact ⟨4, by norm_num, rfl⟩
  · exact ⟨5, by norm_num, rfl⟩

/-- A small integer over a power of two is a value of the format. -/
theorem exists_toRat_eq_div {k c : Nat} (hk : k < 2 ^ 53) (hc : c ≤ 5) :
    ∃ y : F64, y.isFinite = true ∧ y.canonical = true ∧ y.toRat = (k : ℚ) / 2 ^ c := by
  obtain ⟨hcanon, hf, hv⟩ := roundF64_exact false (e := -(c : ℤ)) hk (by simp only [minExp]; omega)
    (by simp only [maxExp]; omega)
  refine ⟨_, hf, hcanon, hv.trans ?_⟩
  simp [div_eq_mul_inv]

/-- The rounded quotient, between the truncated result and the next one, in units of `2^-c`. -/
theorem quotient_bounds {a b k c : Nat} {d : F64} (hab : a ≤ b) (hb : 0 < b) (hc : c ≤ 5) (hk : k ≤ 2 ^ c)
    (hlo : k * b ≤ a * 2 ^ c) (hhi : a * 2 ^ c + 1 ≤ (k + 1) * b) (hd : IsNearestEven ((a : ℚ) / b) d) :
    (k : ℚ) ≤ d.toRat * 2 ^ c ∧ d.toRat * 2 ^ c ≤ k + 1 - 1 / b + 1 / 2 ^ 46 := by
  have hb' : (0 : ℚ) < b := by exact_mod_cast hb
  have hp : (0 : ℚ) < 2 ^ c := by positivity
  have hp32 : (2 : ℚ) ^ c ≤ 2 ^ 5 := pow_le_pow_right₀ one_le_two hc
  have hq0 : (0 : ℚ) ≤ a / b := by positivity
  have hq1 : (a : ℚ) / b ≤ 1 := by
    rw [div_le_one hb']
    exact_mod_cast hab
  constructor
  · have hk53 : k < 2 ^ 53 :=
      lt_of_le_of_lt (hk.trans (Nat.pow_le_pow_right (by norm_num) hc)) (by norm_num)
    obtain ⟨y, hyf, hyc, hyv⟩ := exists_toRat_eq_div hk53 hc
    have hle : y.toRat ≤ a / b := by
      rw [hyv, div_le_div_iff₀ hp hb']
      exact_mod_cast hlo
    have := hd.ge hyf hyc hle
    rwa [hyv, div_le_iff₀ hp] at this
  · have herr := (abs_le.1 (hd.error_le (by rw [abs_of_nonneg hq0]; exact hq1.trans_lt (by norm_num)))).1
    rw [abs_of_nonneg hq0] at herr
    have hd' : d.toRat ≤ a / b + 1 / 2 ^ 51 := by
      have : (a : ℚ) / b / 2 ^ 52 + 1 / 2 ^ 200 ≤ 1 / 2 ^ 51 := by
        have : (a : ℚ) / b / 2 ^ 52 ≤ 1 / 2 ^ 52 := div_le_div_of_nonneg_right hq1 (by positivity)
        linarith
      linarith
    have hscaled : (a : ℚ) / b * 2 ^ c ≤ k + 1 - 1 / b := by
      have hcast : (a : ℚ) * 2 ^ c + 1 ≤ (k + 1) * b := by exact_mod_cast hhi
      rw [div_mul_eq_mul_div, le_sub_iff_add_le, ← add_div, div_le_iff₀ hb']
      exact hcast
    have hunit : (1 : ℚ) / 2 ^ 51 * 2 ^ c ≤ 1 / 2 ^ 46 := by
      calc (1 : ℚ) / 2 ^ 51 * 2 ^ c ≤ 1 / 2 ^ 51 * 2 ^ 5 := mul_le_mul_of_nonneg_left hp32 (by positivity)
        _ = 1 / 2 ^ 46 := by norm_num
    calc d.toRat * 2 ^ c ≤ (a / b + 1 / 2 ^ 51) * 2 ^ c := mul_le_mul_of_nonneg_right hd' hp.le
      _ = a / b * 2 ^ c + 1 / 2 ^ 51 * 2 ^ c := add_mul _ _ _
      _ ≤ k + 1 - 1 / b + 1 / 2 ^ 46 := add_le_add hscaled hunit

/-- The truncated product keeps the integer that the exact quotient has. -/
theorem f2i_scaled {b k c : Nat} {d p : F64} (hb : 0 < b) (hb43 : b < 2 ^ 43) (hc : c ≤ 5) (hk : k ≤ 2 ^ c)
    (hlo : (k : ℚ) ≤ d.toRat * 2 ^ c) (hhi : d.toRat * 2 ^ c ≤ k + 1 - 1 / b + 1 / 2 ^ 46)
    (hp : |d.toRat * 2 ^ c| < overflowBound → IsNearestEven (d.toRat * 2 ^ c) p) : f2i p = k := by
  have hb' : (0 : ℚ) < b := by exact_mod_cast hb
  have hk32 : k ≤ 2 ^ 5 := hk.trans (Nat.pow_le_pow_right (by norm_num) hc)
  have hkq : (k : ℚ) ≤ 2 ^ 5 := by exact_mod_cast hk32
  have hk0 : (0 : ℚ) ≤ k := Nat.cast_nonneg k
  have hgap : (1 : ℚ) / 2 ^ 43 < 1 / b := one_div_lt_one_div_of_lt hb' (by exact_mod_cast hb43)
  generalize d.toRat * 2 ^ c = x at *
  have hx0 : 0 ≤ x := hk0.trans hlo
  have hx34 : x ≤ 34 := by linarith
  have hx200 : |x| < 2 ^ 200 := by
    rw [abs_of_nonneg hx0]
    exact hx34.trans_lt (by norm_num)
  have hp := hp (lt_overflowBound hx200)
  obtain ⟨hyf, hyv⟩ := i2f_natCast_exact (n := k) (by omega)
  have hge : (k : ℚ) ≤ p.toRat := hyv ▸ hp.ge hyf (i2f_canonical _) (hyv ▸ hlo)
  have herr := (abs_le.1 (hp.error_le hx200)).1
  rw [abs_of_nonneg hx0] at herr
  have hlt : p.toRat < k + 1 := by
    have : x / 2 ^ 52 ≤ 34 / 2 ^ 52 := div_le_div_of_nonneg_right hx34 (by positivity)
    linarith
  rw [f2i_eq_floor hp.1 (hk0.trans hge), Int.floor_eq_iff]
  exact ⟨by exact_mod_cast hge, by exact_mod_cast hlt⟩

theorem fdiv_i2f_nearest {a b : Nat} (hab : a ≤ b) (hb : 0 < b) (hb53 : b < 2 ^ 53) :
    IsNearestEven ((a : ℚ) / b) (fdiv (i2f a) (i2f b)) := by
  obtain ⟨haf, hav⟩ := i2f_natCast_exact (n := a) (by omega)
  obtain ⟨hbf, hbv⟩ := i2f_natCast_exact hb53
  have hb' : (0 : ℚ) < b := by exact_mod_cast hb
  have hq1 : |(a : ℚ) / b| ≤ 1 := by
    rw [abs_of_nonneg (by positivity), div_le_one hb']
    exact_mod_cast hab
  rw [← hav, ← hbv] at hq1 ⊢
  exact fdiv_nearest haf hbf (i2f_canonical _) (by rw [hbv]; exact hb'.ne') (lt_overflowBound (hq1.trans_lt (by norm_num)))

/-- The binary64 form of a quotient in units of `2^-c`, truncated, is the integer form. -/
theorem f2i_scaled_quotient {a b c : Nat} (hab : a ≤ b) (hb : 0 < b) (hb43 : b < 2 ^ 43) (hc : c ≤ 5) :
    f2i (fmul (fdiv (i2f a) (i2f b)) (i2f (2 ^ c : Nat))) = (a * 2 ^ c / b : Nat) := by
  have hd := fdiv_i2f_nearest hab hb (by omega)
  obtain ⟨hcf, hcv⟩ := i2f_natCast_exact (n := 2 ^ c) (Nat.pow_lt_pow_right (by norm_num) (by omega))
  have hk : a * 2 ^ c / b ≤ 2 ^ c := Nat.div_le_of_le_mul (Nat.mul_le_mul_right _ hab)
  have hdiv := Nat.div_mul_le_self (a * 2 ^ c) b
  have hmod := Nat.lt_div_mul_add (a := a * 2 ^ c) hb
  generalize a * 2 ^ c / b = k at *
  obtain ⟨hlow, hhigh⟩ := quotient_bounds hab hb hc hk hdiv (by rw [Nat.succ_mul]; omega) hd
  have hmul := fmul_nearest hd.1 hcf
  rw [hcv, Nat.cast_pow, Nat.cast_ofNat] at hmul
  exact f2i_scaled hb hb43 hc hk hlow hhigh hmul

/-- Settles O55: the quotient lies more than the two rounding errors below the next integer. -/
theorem integerRescaleEqualsTheBinary64Form : Obligations.IntegerRescaleEqualsTheBinary64Form := by
  intro s16 lo hi m hlo hhi hlt hbound
  obtain ⟨c, hc, hscale⟩ := fullScale_eq_two_pow s16
  rw [rescaleOne_of_ne s16 hlt.ne, hscale]
  exact f2i_scaled_quotient (by omega) (by omega) (by omega) hc

end Sys2Proof.Machine
end

section
/-! The passes as a whole: what every butterfly keeps, every entry after the last pass has (43_transform_engine.md
section 5). -/

namespace Sys2Proof.Machine

/-- The first output of a butterfly with twiddle `c` on the old values `u`, `v` (R127). -/
def butterflySum (c u v : Cplx) : Cplx := ⟨fadd u.re (twiddleMul c v).re, fadd u.im (twiddleMul c v).im⟩

/-- The second output. -/
def butterflyDiff (c u v : Cplx) : Cplx := ⟨fsub u.re (twiddleMul c v).re, fsub u.im (twiddleMul c v).im⟩

theorem mem_iff_getD {d : List Cplx} {z : Cplx} : z ∈ d ↔ ∃ j, j < d.length ∧ d.getD j Cplx.zero = z := by
  rw [List.mem_iff_getElem]
  constructor
  · rintro ⟨j, hj, rfl⟩
    exact ⟨j, hj, List.getD_eq_getElem _ _ hj⟩
  · rintro ⟨j, hj, rfl⟩
    exact ⟨j, hj, (List.getD_eq_getElem _ _ hj).symm⟩

/-- A pair's values are the outputs of one butterfly, on two entries of the array and a twiddle of the table. -/
theorem pairValue_eq_butterfly {w d : List Cplx} {L t j : Nat} (ht : t < L) (hd : d.length = 2 ^ L)
    (hw : w.length = 2 ^ (L - 1)) (hj : j < 2 ^ L) :
    ∃ c ∈ w, ∃ u ∈ d, ∃ v ∈ d, pairValue w L t d j = butterflySum c u v ∨ pairValue w L t d j = butterflyDiff c u v := by
  have hbase := (pairBase_le t j).trans_lt hj
  have hpair := pair_lt ht hbase (pairBase_and_two_pow t j)
  refine ⟨_, mem_iff_getD.2 ⟨_, hw ▸ twiddleIndex_lt ht (pairBase t j), rfl⟩,
    _, mem_iff_getD.2 ⟨_, hd ▸ hbase, rfl⟩, _, mem_iff_getD.2 ⟨_, hd ▸ hpair, rfl⟩, ?_⟩
  unfold pairValue
  dsimp only
  split
  · exact .inl rfl
  · exact .inr rfl

/-- What every butterfly makes of `P`, a pass makes of every entry. -/
theorem pass_forall {P Q : Cplx → Prop} {w d : List Cplx} {L t : Nat} (ht : t < L) (hd : d.length = 2 ^ L)
    (hw : w.length = 2 ^ (L - 1)) (hP : ∀ z ∈ d, P z)
    (hstep : ∀ c ∈ w, ∀ u v, P u → P v → Q (butterflySum c u v) ∧ Q (butterflyDiff c u v)) :
    ∀ z ∈ pass w (2 ^ L) (2 ^ t) d, Q z := by
  intro z hz
  obtain ⟨j, hj, rfl⟩ := mem_iff_getD.1 hz
  have hj : j < 2 ^ L := by rwa [pass_length, hd] at hj
  rw [pass_getD ht hd hj]
  obtain ⟨c, hc, u, hu, v, hv, h | h⟩ := pairValue_eq_butterfly ht hd hw hj
  · exact h ▸ (hstep c hc u v (hP u hu) (hP v hv)).1
  · exact h ▸ (hstep c hc u v (hP u hu) (hP v hv)).2

/-- The first `n` passes. -/
theorem passes_prefix_forall {P : Nat → Cplx → Prop} {w d : List Cplx} {L : Nat} (hd : d.length = 2 ^ L)
    (hw : w.length = 2 ^ (L - 1)) (hP : ∀ z ∈ d, P 0 z)
    (hstep : ∀ t, t < L → ∀ c ∈ w, ∀ u v, P t u → P t v → P (t + 1) (butterflySum c u v) ∧ P (t + 1) (butterflyDiff c u v))
    {n : Nat} (hn : n ≤ L) : ∀ z ∈ (List.range n).foldl (fun d t => pass w (2 ^ L) (2 ^ t) d) d, P n z := by
  induction n with
  | zero => exact hP
  | succ n ih =>
    have hlen := (foldl_keeps_length _ (fun d t => pass_length w (2 ^ L) (2 ^ t) d) (List.range n) d).trans hd
    rw [List.range_succ, List.foldl_append]
    exact pass_forall hn hlen hw (ih (by omega)) (hstep n hn)

/-- A property of entries that every butterfly of pass `t` takes from `P t` to `P (t + 1)`. -/
theorem passes_forall {P : Nat → Cplx → Prop} {w d : List Cplx} {L : Nat} (hd : d.length = 2 ^ L)
    (hw : w.length = 2 ^ (L - 1)) (hP : ∀ z ∈ d, P 0 z)
    (hstep : ∀ t, t < L → ∀ c ∈ w, ∀ u v, P t u → P t v → P (t + 1) (butterflySum c u v) ∧ P (t + 1) (butterflyDiff c u v)) :
    ∀ z ∈ passes w L d, P L z :=
  passes_prefix_forall hd hw hP hstep le_rfl

end Sys2Proof.Machine
end

section
/-! Rounded complex arithmetic: how far each operation may be off, in the norm of the complex plane. -/

namespace Sys2Proof.Machine

/-- The real number that a value stands for. -/
noncomputable def F64.toReal (x : F64) : ℝ := ((x.toRat : ℚ) : ℝ)

/-- The complex number that a pair of values stands for. -/
noncomputable def Cplx.toComplex (z : Cplx) : ℂ := ⟨z.re.toReal, z.im.toReal⟩

/-- Both parts of `z` are finite, and its norm is at most `r`. -/
structure Bounded (z : Cplx) (r : ℝ) : Prop where
  re_finite : z.re.isFinite = true
  im_finite : z.im.isFinite = true
  norm_le : ‖z.toComplex‖ ≤ r

theorem Bounded.mono {z : Cplx} {r r' : ℝ} (h : Bounded z r) (hr : r ≤ r') : Bounded z r' :=
  ⟨h.re_finite, h.im_finite, h.norm_le.trans hr⟩

theorem Bounded.abs_re_le {z : Cplx} {r : ℝ} (h : Bounded z r) : |z.re.toReal| ≤ r :=
  (Complex.abs_re_le_norm z.toComplex).trans h.norm_le

theorem Bounded.abs_im_le {z : Cplx} {r : ℝ} (h : Bounded z r) : |z.im.toReal| ≤ r :=
  (Complex.abs_im_le_norm z.toComplex).trans h.norm_le

/-- From the errors of the two parts. -/
theorem bounded_of_near {z : Cplx} {c : ℂ} {r ε : ℝ} (hre : z.re.isFinite = true) (him : z.im.isFinite = true)
    (hc : ‖c‖ ≤ r) (hε₁ : |z.re.toReal - c.re| ≤ ε) (hε₂ : |z.im.toReal - c.im| ≤ ε) : Bounded z (r + 2 * ε) := by
  refine ⟨hre, him, ?_⟩
  have herr : ‖z.toComplex - c‖ ≤ |z.re.toReal - c.re| + |z.im.toReal - c.im| := Complex.norm_le_abs_re_add_abs_im _
  have htri : ‖z.toComplex‖ ≤ ‖c‖ + ‖z.toComplex - c‖ := by
    have := norm_add_le c (z.toComplex - c)
    rwa [add_sub_cancel] at this
  linarith

/-! ### One operation -/

/-- A rounded value of moderate size is finite, and close to what it rounds. -/
theorem near_of_nearest {q : ℚ} {r : F64} {M : ℝ} (h : |q| < overflowBound → IsNearestEven q r) (hq : |(q : ℝ)| ≤ M)
    (hM : M ≤ 2 ^ 120) : r.isFinite = true ∧ |r.toReal - q| ≤ M / 2 ^ 52 + 1 / 2 ^ 200 := by
  have hlt : |(q : ℝ)| < 2 ^ 200 := (hq.trans hM).trans_lt (by norm_num)
  have hlt' : |q| < 2 ^ 200 := by exact_mod_cast hlt
  have hnear := h (lt_overflowBound hlt')
  have herr := (Rat.cast_le (K := ℝ)).2 (hnear.error_le hlt')
  push_cast at herr
  rw [abs_sub_comm] at herr
  refine ⟨hnear.1, herr.trans ?_⟩
  have : |(q : ℝ)| / 2 ^ 52 ≤ M / 2 ^ 52 := div_le_div_of_nonneg_right hq (by positivity)
  linarith

theorem toReal_fneg (x : F64) : (fneg x).toReal = -x.toReal := by
  rw [F64.toReal, toRat_fneg, Rat.cast_neg]
  rfl

section
variable {x y : F64} {M : ℝ}

theorem fadd_near (hx : x.isFinite = true) (hy : y.isFinite = true) (hM : |x.toReal + y.toReal| ≤ M) (hM' : M ≤ 2 ^ 120) :
    (fadd x y).isFinite = true ∧ |(fadd x y).toReal - (x.toReal + y.toReal)| ≤ M / 2 ^ 52 + 1 / 2 ^ 200 := by
  have hcast : ((x.toRat + y.toRat : ℚ) : ℝ) = x.toReal + y.toReal := Rat.cast_add _ _
  rw [← hcast] at hM ⊢
  exact near_of_nearest (fadd_nearest hx hy) hM hM'

theorem fmul_near (hx : x.isFinite = true) (hy : y.isFinite = true) (hM : |x.toReal * y.toReal| ≤ M) (hM' : M ≤ 2 ^ 120) :
    (fmul x y).isFinite = true ∧ |(fmul x y).toReal - x.toReal * y.toReal| ≤ M / 2 ^ 52 + 1 / 2 ^ 200 := by
  have hcast : ((x.toRat * y.toRat : ℚ) : ℝ) = x.toReal * y.toReal := Rat.cast_mul _ _
  rw [← hcast] at hM ⊢
  exact near_of_nearest (fmul_nearest hx hy) hM hM'

end

/-! ### Two products and their sum or difference -/

/-- The rounded sum of two values that are off by one rounding each. -/
theorem fadd_of_near {x y : F64} {p q M : ℝ} (hx : x.isFinite = true) (hy : y.isFinite = true) (hp : |p| ≤ M)
    (hq : |q| ≤ M) (hxp : |x.toReal - p| ≤ M / 2 ^ 52 + 1 / 2 ^ 200) (hyq : |y.toReal - q| ≤ M / 2 ^ 52 + 1 / 2 ^ 200)
    (hM : M ≤ 2 ^ 110) : (fadd x y).isFinite = true ∧ |(fadd x y).toReal - (p + q)| ≤ (M + 1) / 2 ^ 49 := by
  have hM0 : 0 ≤ M := (abs_nonneg p).trans hp
  rw [abs_le] at hp hq hxp hyq
  obtain ⟨hf, herr⟩ := fadd_near hx hy (M := 3 * M + 1) (abs_le.2 ⟨by linarith, by linarith⟩) (by linarith)
  rw [abs_le] at herr ⊢
  exact ⟨hf, by linarith, by linarith⟩

section
variable {a b c d : F64} {M : ℝ}

theorem add_products_near (ha : a.isFinite = true) (hb : b.isFinite = true) (hc : c.isFinite = true)
    (hd : d.isFinite = true) (hab : |a.toReal * b.toReal| ≤ M) (hcd : |c.toReal * d.toReal| ≤ M) (hM : M ≤ 2 ^ 110) :
    (fadd (fmul a b) (fmul c d)).isFinite = true ∧
    |(fadd (fmul a b) (fmul c d)).toReal - (a.toReal * b.toReal + c.toReal * d.toReal)| ≤ (M + 1) / 2 ^ 49 := by
  have hM' : M ≤ 2 ^ 120 := hM.trans (by norm_num)
  obtain ⟨hf₁, he₁⟩ := fmul_near ha hb hab hM'
  obtain ⟨hf₂, he₂⟩ := fmul_near hc hd hcd hM'
  exact fadd_of_near hf₁ hf₂ hab hcd he₁ he₂ hM

theorem sub_products_near (ha : a.isFinite = true) (hb : b.isFinite = true) (hc : c.isFinite = true)
    (hd : d.isFinite = true) (hab : |a.toReal * b.toReal| ≤ M) (hcd : |c.toReal * d.toReal| ≤ M) (hM : M ≤ 2 ^ 110) :
    (fsub (fmul a b) (fmul c d)).isFinite = true ∧
    |(fsub (fmul a b) (fmul c d)).toReal - (a.toReal * b.toReal - c.toReal * d.toReal)| ≤ (M + 1) / 2 ^ 49 := by
  have hM' : M ≤ 2 ^ 120 := hM.trans (by norm_num)
  obtain ⟨hf₁, he₁⟩ := fmul_near ha hb hab hM'
  obtain ⟨hf₂, he₂⟩ := fmul_near hc hd hcd hM'
  rw [sub_eq_add_neg (a.toReal * b.toReal)]
  refine fadd_of_near hf₁ (fneg_isFinite hf₂) hab (by rwa [abs_neg]) he₁ ?_ hM
  rwa [toReal_fneg, ← neg_sub', abs_neg]

end

theorem abs_mul_le {x y r s : ℝ} (hx : |x| ≤ r) (hy : |y| ≤ s) : |x * y| ≤ r * s := by
  rw [abs_mul]
  exact mul_le_mul hx hy (abs_nonneg y) ((abs_nonneg x).trans hx)

/-- The product of a twiddle and a value. -/
theorem twiddleMul_bounded {w v : Cplx} {r s : ℝ} (hw : Bounded w r) (hv : Bounded v s) (hM : r * s ≤ 2 ^ 110) :
    Bounded (twiddleMul w v) (r * s + (r * s + 1) / 2 ^ 48) := by
  obtain ⟨hre, hεre⟩ := sub_products_near hw.re_finite hv.re_finite hw.im_finite hv.im_finite
    (abs_mul_le hw.abs_re_le hv.abs_re_le) (abs_mul_le hw.abs_im_le hv.abs_im_le) hM
  obtain ⟨him, hεim⟩ := add_products_near hw.re_finite hv.im_finite hw.im_finite hv.re_finite
    (abs_mul_le hw.abs_re_le hv.abs_im_le) (abs_mul_le hw.abs_im_le hv.abs_re_le) hM
  have hnorm : ‖w.toComplex * v.toComplex‖ ≤ r * s := by
    rw [norm_mul]
    exact mul_le_mul hw.norm_le hv.norm_le (norm_nonneg _) ((norm_nonneg _).trans hw.norm_le)
  have hbound := bounded_of_near (z := twiddleMul w v) hre him hnorm hεre hεim
  exact hbound.mono (by linarith)

/-- The sum of two values, part by part. -/
theorem complexSum_bounded {u p : Cplx} {r s : ℝ} (hu : Bounded u r) (hp : Bounded p s) (hM : r + s ≤ 2 ^ 120) :
    Bounded ⟨fadd u.re p.re, fadd u.im p.im⟩ (r + s + (r + s + 1) / 2 ^ 51) := by
  obtain ⟨hre, hεre⟩ := fadd_near hu.re_finite hp.re_finite
    ((abs_add_le _ _).trans (add_le_add hu.abs_re_le hp.abs_re_le)) hM
  obtain ⟨him, hεim⟩ := fadd_near hu.im_finite hp.im_finite
    ((abs_add_le _ _).trans (add_le_add hu.abs_im_le hp.abs_im_le)) hM
  have hnorm : ‖u.toComplex + p.toComplex‖ ≤ r + s := (norm_add_le _ _).trans (add_le_add hu.norm_le hp.norm_le)
  exact (bounded_of_near hre him hnorm hεre hεim).mono (by linarith)

theorem Bounded.neg {p : Cplx} {s : ℝ} (h : Bounded p s) : Bounded ⟨fneg p.re, fneg p.im⟩ s := by
  have hneg : (⟨fneg p.re, fneg p.im⟩ : Cplx).toComplex = -p.toComplex :=
    Complex.ext (toReal_fneg p.re) (toReal_fneg p.im)
  exact ⟨fneg_isFinite h.re_finite, fneg_isFinite h.im_finite, by rw [hneg, norm_neg]; exact h.norm_le⟩

/-- The two outputs of a butterfly: the second one adds the negated product. -/
theorem butterfly_bounded {c u v : Cplx} {r s : ℝ} (hu : Bounded u r) (hp : Bounded (twiddleMul c v) s)
    (hM : r + s ≤ 2 ^ 120) :
    Bounded (butterflySum c u v) (r + s + (r + s + 1) / 2 ^ 51) ∧
    Bounded (butterflyDiff c u v) (r + s + (r + s + 1) / 2 ^ 51) :=
  ⟨complexSum_bounded hu hp hM, complexSum_bounded hu hp.neg hM⟩

end Sys2Proof.Machine
end

section
/-! The size of twiddles, of the entries after each pass and of the magnitudes (43_transform_engine.md R122 to R130,
R138). -/

namespace Sys2Proof.Machine

/-! ### Twiddles -/

/-- The squares of the two parts, as integers in units of `2^-100`. -/
def squaresWithin (z : Cplx) (bound : Nat) : Bool :=
  match z.re, z.im with
  | .fin _ m e, .fin _ n f =>
    decide (-100 ≤ e) && decide (-100 ≤ f) &&
      decide ((m * 2 ^ (e + 100).toNat) ^ 2 + (n * 2 ^ (f + 100).toNat) ^ 2 ≤ bound ^ 2)
  | _, _ => false

theorem sq_toReal {s : Bool} {m : Nat} {e : Int} (he : -100 ≤ e) :
    (F64.fin s m e).toReal ^ 2 = ((m * 2 ^ (e + 100).toNat : Nat) : ℝ) ^ 2 / 2 ^ 200 := by
  have hpow : (2 : ℝ) ^ e = 2 ^ (e + 100).toNat / 2 ^ 100 := by
    rw [eq_div_iff (by positivity), ← zpow_natCast, ← zpow_natCast, ← zpow_add₀ two_ne_zero]
    congr 1
    omega
  rw [F64.toReal, toRat_cast, hpow]
  push_cast
  cases s <;> simp <;> ring

theorem bounded_of_squaresWithin {z : Cplx} {bound : Nat} (h : squaresWithin z bound = true) :
    Bounded z (bound / 2 ^ 100) := by
  obtain ⟨x, y⟩ := z
  cases x with
  | fin s m e =>
    cases y with
    | fin s' n f =>
      simp only [squaresWithin, Bool.and_eq_true, decide_eq_true_eq] at h
      obtain ⟨⟨he, hf⟩, hsum⟩ := h
      refine ⟨rfl, rfl, ?_⟩
      have hcast : ((m * 2 ^ (e + 100).toNat : Nat) : ℝ) ^ 2 + ((n * 2 ^ (f + 100).toNat : Nat) : ℝ) ^ 2 ≤ (bound : ℝ) ^ 2 := by
        exact_mod_cast hsum
      refine (sq_le_sq₀ (norm_nonneg _) (by positivity)).1 ?_
      rw [Complex.sq_norm, Complex.normSq_apply, ← pow_two, ← pow_two]
      simp only [Cplx.toComplex, sq_toReal he, sq_toReal hf]
      rw [← add_div, div_pow, ← pow_mul]
      exact div_le_div_of_nonneg_right hcast (by positivity)
    | _ => cases h
  | _ => cases h

theorem seed_bounded {L : Nat} (h4 : 4 ≤ L) (h11 : L ≤ 11) : Bounded (seed L) (1 + 1 / 2 ^ 50) := by
  have hcheck : ∀ L ≤ 11, 4 ≤ L → squaresWithin (seed L) (2 ^ 100 + 2 ^ 50) = true := by decide
  refine (bounded_of_squaresWithin (hcheck L h11 h4)).mono ?_
  push_cast
  norm_num

theorem toComplex_one : (⟨F64.one, F64.zero false⟩ : Cplx).toComplex = 1 := by
  refine Complex.ext ?_ ?_
  · norm_num [Cplx.toComplex, F64.toReal, F64.one, toRat_fin]
  · simp [Cplx.toComplex, F64.toReal]

theorem one_bounded : Bounded ⟨F64.one, F64.zero false⟩ 1 :=
  ⟨rfl, rfl, by rw [toComplex_one, norm_one]⟩

/-- The recurrence adds less than `2^-40` to the norm at each step. -/
theorem nextTwiddle_bounded {w1 w : Cplx} {k : Nat} (hw1 : Bounded w1 (1 + 1 / 2 ^ 50)) (hw : Bounded w (1 + k / 2 ^ 40))
    (hk : k ≤ 1024) : Bounded (nextTwiddle w1 w) (1 + (k + 1 : Nat) / 2 ^ 40) := by
  have hk' : (k : ℝ) ≤ 1024 := by exact_mod_cast hk
  have hk0 : (0 : ℝ) ≤ k := Nat.cast_nonneg k
  have hprod := twiddleMul_bounded hw hw1 (by nlinarith)
  refine Bounded.mono hprod ?_
  push_cast
  nlinarith

theorem twiddlesFrom_bounded {w1 : Cplx} (hw1 : Bounded w1 (1 + 1 / 2 ^ 50)) (n : Nat) {k : Nat} {w : Cplx}
    (hw : Bounded w (1 + k / 2 ^ 40)) (hk : k + n ≤ 1024) : ∀ c ∈ twiddlesFrom w1 n w, Bounded c (1 + 1 / 2 ^ 30) := by
  induction n generalizing k w with
  | zero => simp [twiddlesFrom]
  | succ n ih =>
    intro c hc
    rcases List.mem_cons.1 hc with rfl | hc
    · have hk' : (k : ℝ) ≤ 1024 := by exact_mod_cast (by omega : k ≤ 1024)
      exact hw.mono (by linarith)
    · exact ih (nextTwiddle_bounded hw1 hw (by omega)) (by omega) c hc

theorem twiddles_bounded {L : Nat} (h4 : 4 ≤ L) (h11 : L ≤ 11) : ∀ c ∈ twiddles L, Bounded c (1 + 1 / 2 ^ 30) := by
  intro c hc
  rcases List.mem_cons.1 hc with rfl | hc
  · exact one_bounded.mono (by norm_num)
  · have hseed := seed_bounded h4 h11
    have hcount : 2 ^ (L - 1) ≤ 2 ^ 10 := Nat.pow_le_pow_right (by norm_num) (by omega)
    exact twiddlesFrom_bounded hseed _ (k := 1) (hseed.mono (by norm_num)) (by omega) c hc

/-! ### The passes -/

/-- What bounds the entries before pass `t`: each pass at most doubles the norm, but for a thousandth. -/
noncomputable def passBound (t : Nat) : ℝ := 2 ^ 31 * (2 + 1 / 2 ^ 10) ^ t

theorem passBound_mono {t t' : Nat} (h : t ≤ t') : passBound t ≤ passBound t' :=
  mul_le_mul_of_nonneg_left (pow_le_pow_right₀ (by norm_num) h) (by positivity)

theorem one_le_passBound (t : Nat) : 1 ≤ passBound t :=
  le_trans (by norm_num [passBound]) (passBound_mono (Nat.zero_le t))

theorem passBound_le {t : Nat} (h : t ≤ 11) : passBound t ≤ 5 * 2 ^ 40 :=
  (passBound_mono h).trans (by norm_num [passBound])

theorem butterfly_passBound {c u v : Cplx} {t : Nat} (ht : t ≤ 11) (hc : Bounded c (1 + 1 / 2 ^ 30))
    (hu : Bounded u (passBound t)) (hv : Bounded v (passBound t)) :
    Bounded (butterflySum c u v) (passBound (t + 1)) ∧ Bounded (butterflyDiff c u v) (passBound (t + 1)) := by
  have hone := one_le_passBound t
  have hle := passBound_le ht
  have hsucc : passBound (t + 1) = passBound t * (2 + 1 / 2 ^ 10) := by
    simp only [passBound, pow_succ _ t]
    ring
  rw [hsucc]
  generalize passBound t = B at *
  have hprod := (twiddleMul_bounded hc hv (by linarith)).mono (r' := B * (1 + 1 / 2 ^ 20)) (by linarith)
  obtain ⟨hsum, hdiff⟩ := butterfly_bounded hu hprod (by linarith)
  exact ⟨hsum.mono (by linarith), hdiff.mono (by linarith)⟩

theorem s32_natAbs_le (v : Word) : (s32 v).natAbs ≤ 2 ^ 31 := by
  have := v.isLt
  unfold s32
  split <;> omega

theorem loadSamples_bounded (L : Nat) (x : List Word) : ∀ z ∈ loadSamples L x, Bounded z (2 ^ 31) := by
  intro z hz
  obtain ⟨j, -, rfl⟩ := List.mem_map.1 hz
  generalize x.getD (bitRev L j) 0 = v
  have hle := s32_natAbs_le v
  obtain ⟨hf, hval⟩ := i2f_exact (z := s32 v) (by omega)
  refine ⟨hf, rfl, ?_⟩
  have hcomplex : (⟨i2f (s32 v), F64.zero false⟩ : Cplx).toComplex = ((s32 v : Int) : ℂ) := by
    refine Complex.ext ?_ ?_ <;> simp [Cplx.toComplex, F64.toReal, hval]
  rw [hcomplex, Complex.norm_intCast, ← Int.cast_abs, Int.abs_eq_natAbs, Int.cast_natCast]
  exact_mod_cast hle

theorem passes_bounded {L : Nat} (h4 : 4 ≤ L) (h11 : L ≤ 11) (x : List Word) :
    ∀ z ∈ passes (twiddles L) L (loadSamples L x), Bounded z (5 * 2 ^ 40) := by
  have htw := twiddles_bounded h4 h11
  have hall := passes_forall (P := fun t z => Bounded z (passBound t)) (loadSamples_length L x) (twiddles_length L)
    (by simpa [passBound] using loadSamples_bounded L x)
    (fun t ht c hc u v hu hv => butterfly_passBound (by omega) (htw c hc) hu hv)
  exact fun z hz => (hall z hz).mono (passBound_le h11)

/-! ### The magnitudes -/

theorem toRat_roundF64_nonneg (m : Nat) (e : Int) : 0 ≤ (roundF64 false m e).toRat := by
  cases hf : (roundF64 false m e).isFinite with
  | true =>
    obtain ⟨n, t, h⟩ := roundF64_sign hf
    rw [h, toRat_fin]
    simp only [Bool.false_eq_true, if_false]
    positivity
  | false =>
    cases hr : roundF64 false m e with
    | fin s n t => rw [hr] at hf; cases hf
    | inf s => exact le_rfl
    | nan => exact le_rfl

/-- A square is not negative. -/
theorem fmul_self_nonneg {x : F64} (hx : x.isFinite = true) : 0 ≤ (fmul x x).toRat := by
  obtain ⟨s, m, e, rfl⟩ := exists_fin hx
  rw [fmul, Bool.xor_self]
  exact toRat_roundF64_nonneg _ _

/-- Neither is a sum of values that are not negative. -/
theorem fadd_nonneg {x y : F64} (hx : x.isFinite = true) (hy : y.isFinite = true) (hx0 : 0 ≤ x.toRat)
    (hy0 : 0 ≤ y.toRat) : 0 ≤ (fadd x y).toRat := by
  obtain ⟨s₁, m₁, e₁, rfl⟩ := exists_fin hx
  obtain ⟨s₂, m₂, e₂, rfl⟩ := exists_fin hy
  have hsum := add_nonneg hx0 hy0
  rw [alignedSum_value] at hsum
  have hz : 0 ≤ alignedSum s₁ m₁ e₁ s₂ m₂ e₂ := by
    exact_mod_cast nonneg_of_mul_nonneg_left hsum (zpow_pos two_pos _)
  rw [fadd, addFin_eq, decide_eq_false (not_lt.2 hz)]
  split
  · rw [toRat_zero]
  · exact toRat_roundF64_nonneg _ _

/-- A root lies between zero and any value of the format that the real root does not exceed. -/
theorem fsqrt_bounds {x y : F64} (hx : x.isFinite = true) (hxc : x.canonical = true) (hx0 : 0 ≤ x.toRat)
    (hy : y.isFinite = true) (hyc : y.canonical = true) (hle : Real.sqrt x.toReal ≤ y.toReal) :
    (fsqrt x).isFinite = true ∧ 0 ≤ (fsqrt x).toRat ∧ (fsqrt x).toRat ≤ y.toRat := by
  obtain ⟨hf, -, hnear⟩ := squareRootsAreCorrectlyRounded x y hx hxc hx0 hy hyc
  obtain ⟨-, -, hnear0⟩ := squareRootsAreCorrectlyRounded x (F64.zero false) hx hxc hx0 rfl (zero_canonical _)
  have hroot := Real.sqrt_nonneg x.toReal
  rw [toRat_zero, Rat.cast_zero, sub_zero] at hnear0
  change |Real.sqrt x.toReal - (fsqrt x).toReal| ≤ |Real.sqrt x.toReal - y.toReal| at hnear
  change |Real.sqrt x.toReal - (fsqrt x).toReal| ≤ |Real.sqrt x.toReal| at hnear0
  rw [abs_of_nonneg hroot, abs_le] at hnear0
  rw [abs_of_nonpos (sub_nonpos.2 hle), abs_le] at hnear
  have hlow : 0 ≤ (fsqrt x).toReal := by linarith
  have hhigh : (fsqrt x).toReal ≤ y.toReal := by linarith
  exact ⟨hf, Rat.cast_nonneg.1 hlow, Rat.cast_le.1 hhigh⟩

theorem norm_sq_toComplex (z : Cplx) : ‖z.toComplex‖ ^ 2 = z.re.toReal * z.re.toReal + z.im.toReal * z.im.toReal := by
  rw [Complex.sq_norm, Complex.normSq_apply]
  rfl

/-- The sum under the root. -/
theorem sum_of_squares_bounds {z : Cplx} (h : Bounded z (5 * 2 ^ 40)) :
    (fadd (fmul z.re z.re) (fmul z.im z.im)).isFinite = true ∧
    0 ≤ (fadd (fmul z.re z.re) (fmul z.im z.im)).toRat ∧
    (fadd (fmul z.re z.re) (fmul z.im z.im)).toReal ≤ 26 * 2 ^ 80 := by
  have hre := abs_mul_le h.abs_re_le h.abs_re_le
  have him := abs_mul_le h.abs_im_le h.abs_im_le
  have hsq : z.re.toReal * z.re.toReal + z.im.toReal * z.im.toReal ≤ (5 * 2 ^ 40) ^ 2 := by
    rw [← norm_sq_toComplex]
    exact pow_le_pow_left₀ (norm_nonneg _) h.norm_le 2
  obtain ⟨hf, herr⟩ := add_products_near h.re_finite h.re_finite h.im_finite h.im_finite hre him (by norm_num)
  obtain ⟨hf₁, -⟩ := fmul_near h.re_finite h.re_finite hre (by norm_num)
  obtain ⟨hf₂, -⟩ := fmul_near h.im_finite h.im_finite him (by norm_num)
  refine ⟨hf, fadd_nonneg hf₁ hf₂ (fmul_self_nonneg h.re_finite) (fmul_self_nonneg h.im_finite), ?_⟩
  have := (abs_le.1 herr).2
  linarith

theorem magnitude_bounds {z : Cplx} (h : Bounded z (5 * 2 ^ 40)) :
    (magnitude z).isFinite = true ∧ 0 ≤ (magnitude z).toRat ∧ (magnitude z).toRat < 2 ^ 43 := by
  obtain ⟨hf, h0, hle⟩ := sum_of_squares_bounds h
  obtain ⟨hyf, hyv⟩ := i2f_exact (z := 6 * 2 ^ 40) (by norm_num)
  obtain ⟨hmf, hm0, hm⟩ := fsqrt_bounds hf (fadd_canonical _ _) h0 hyf (i2f_canonical _) (by
    rw [F64.toReal, F64.toReal, hyv]
    refine Real.sqrt_le_iff.2 ⟨by norm_num, hle.trans (by norm_num)⟩)
  refine ⟨hmf, hm0, hm.trans_lt ?_⟩
  rw [hyv]
  norm_num

theorem intMagnitude_lt {z : Cplx} (h : Bounded z (5 * 2 ^ 40)) : intMagnitude z < 2 ^ 43 := by
  obtain ⟨hf, h0, hlt⟩ := magnitude_bounds h
  have hfloor : ⌊(magnitude z).toRat⌋ < 2 ^ 43 := Int.floor_lt.2 (by exact_mod_cast hlt)
  rw [intMagnitude, f2i_eq_floor hf h0]
  omega

/-- Settles O56: the bound on the entries keeps every operation within the format. -/
theorem noExceptionalValueArises : Obligations.NoExceptionalValueArises := by
  intro L x h4 h11
  have hbound := passes_bounded h4 h11 x
  refine ⟨?_, fun z hz => (magnitude_bounds (hbound z hz)).1⟩
  rw [allFinite, List.all_eq_true]
  intro z hz
  rw [(hbound z hz).re_finite, (hbound z hz).im_finite]
  rfl

/-- Settles O60: the entries stay below `5 * 2^40` in norm, and full scale is at most `2^5`. -/
theorem magnitudesStayBelowTheBound : Obligations.MagnitudesStayBelowTheBound := by
  intro L s16 x h4 h11
  have hbound := passes_bounded h4 h11 x
  refine ⟨fun z hz => ⟨(magnitude_bounds (hbound z hz)).2.2, intMagnitude_lt (hbound z hz)⟩, fun m hm => ?_⟩
  obtain ⟨z, hz, rfl⟩ := List.mem_map.1 hm
  have hlt := intMagnitude_lt (hbound z hz)
  have hscale := fullScale_le s16
  refine ⟨hlt, ?_⟩
  calc (intMagnitude z - minOf (magnitudes L x)) * fullScale s16 ≤ intMagnitude z * 32 :=
        Nat.mul_le_mul (Nat.sub_le _ _) hscale
    _ < 2 ^ 48 := by omega

end Sys2Proof.Machine
end

section
/-! The all-zero input (43_transform_engine.md R132). -/

namespace Sys2Proof.Machine

/-- Both parts are zeros, of either sign. -/
def Cplx.IsZero (z : Cplx) : Prop := ∃ s s', z = ⟨F64.zero s, F64.zero s'⟩

theorem fmul_zero {x : F64} (hx : x.isFinite = true) (s : Bool) : ∃ s', fmul x (F64.zero s) = F64.zero s' := by
  obtain ⟨s₁, m₁, e₁, rfl⟩ := exists_fin hx
  exact ⟨s₁ ^^ s, by simp [fmul, F64.zero, roundF64]⟩

theorem fadd_zero_zero (s s' : Bool) : fadd (F64.zero s) (F64.zero s') = F64.zero (s && s') := by
  cases s <;> cases s' <;> decide

theorem fsub_zero_zero (s s' : Bool) : fsub (F64.zero s) (F64.zero s') = F64.zero (s && !s') :=
  fadd_zero_zero s (!s')

theorem twiddleMul_isZero {c v : Cplx} {r : ℝ} (hc : Bounded c r) (hv : v.IsZero) : (twiddleMul c v).IsZero := by
  obtain ⟨s, s', rfl⟩ := hv
  obtain ⟨a, ha⟩ := fmul_zero hc.re_finite s
  obtain ⟨b, hb⟩ := fmul_zero hc.im_finite s'
  obtain ⟨a', ha'⟩ := fmul_zero hc.re_finite s'
  obtain ⟨b', hb'⟩ := fmul_zero hc.im_finite s
  exact ⟨a && !b, a' && b', by simp only [twiddleMul, ha, hb, ha', hb', fsub_zero_zero, fadd_zero_zero]⟩

theorem butterfly_isZero {c u v : Cplx} {r : ℝ} (hc : Bounded c r) (hu : u.IsZero) (hv : v.IsZero) :
    (butterflySum c u v).IsZero ∧ (butterflyDiff c u v).IsZero := by
  obtain ⟨s, s', rfl⟩ := hu
  obtain ⟨a, a', hp⟩ := twiddleMul_isZero hc hv
  exact ⟨⟨s && a, s' && a', by simp only [butterflySum, hp, fadd_zero_zero]⟩,
    ⟨s && !a, s' && !a', by simp only [butterflyDiff, hp, fsub_zero_zero]⟩⟩

theorem fsqrt_zero (s : Bool) : fsqrt (F64.zero s) = F64.zero s := by simp [fsqrt, F64.zero]

theorem intMagnitude_of_isZero {z : Cplx} (h : z.IsZero) : intMagnitude z = 0 := by
  obtain ⟨s, s', rfl⟩ := h
  obtain ⟨a, ha⟩ := fmul_zero (x := F64.zero s) rfl s
  obtain ⟨b, hb⟩ := fmul_zero (x := F64.zero s') rfl s'
  have hroot : magnitude ⟨F64.zero s, F64.zero s'⟩ = F64.zero (a && b) := by
    rw [magnitude, ha, hb, fadd_zero_zero, fsqrt_zero]
  rw [intMagnitude, hroot, f2i_of_toRat_eq (z := 0) rfl (by simp)]
  rfl

theorem loadSamples_isZero (L : Nat) {x : List Word} (hx : ∀ w ∈ x, w = 0) : ∀ z ∈ loadSamples L x, z.IsZero := by
  intro z hz
  obtain ⟨j, -, rfl⟩ := List.mem_map.1 hz
  have hentry : x.getD (bitRev L j) 0 = 0 := by
    rw [List.getD_eq_getElem?_getD]
    cases hget : x[bitRev L j]? with
    | none => rfl
    | some w => exact hx w (List.mem_of_getElem? hget)
  rw [hentry]
  exact ⟨false, false, by decide⟩

theorem magnitudes_eq_zero {L : Nat} (h4 : 4 ≤ L) (h11 : L ≤ 11) {x : List Word} (hx : ∀ w ∈ x, w = 0) :
    ∀ m ∈ magnitudes L x, m = 0 := by
  have htw := twiddles_bounded h4 h11
  have hall := passes_forall (P := fun _ z => z.IsZero) (loadSamples_length L x) (twiddles_length L)
    (loadSamples_isZero L hx) (fun _ _ c hc _ _ hu hv => butterfly_isZero (htw c hc) hu hv)
  intro m hm
  obtain ⟨z, hz, rfl⟩ := List.mem_map.1 hm
  exact intMagnitude_of_isZero (hall z hz)

/-- Settles O57: the passes keep zeros, so the least and the greatest magnitude are both 0. -/
theorem allZeroInputGivesMidScale : Obligations.AllZeroInputGivesMidScale := by
  intro L s16 x h4 h11 hx
  have hzero := magnitudes_eq_zero h4 h11 hx
  refine ⟨hzero, fun w hw => ?_⟩
  obtain ⟨m, -, rfl⟩ := mem_transform.1 hw
  have hne := magnitudes_ne_nil L x
  rw [rescaleOne_of_eq s16 ((hzero _ (minOf_mem hne)).trans (hzero _ (maxOf_mem hne)).symm)]
  cases s16 <;> rfl

end Sys2Proof.Machine
end
